-- ==== Sys2Proof/Word.lean ====
section
/-! DEFINITION. The words the spec counts in bits (rules R12, R80, R83) and the type of the values of `F32`
(rule R13). Arithmetic on `F32` stands in Machine/Float.lean. -/

namespace Sys2Proof

/-- `U32` (R12): 32 bits; also the operand field `C[31:0]` of a command word (R80). -/
abbrev Word := BitVec 32

/-- A command word `C` (R80): opcode in bits 39:32, operand in bits 31:0. -/
abbrev CommandWord := BitVec 40

/-- A response word `P` (R83): status in bits 33:32, value in bits 31:0. -/
abbrev ResponseWord := BitVec 34

/-- The values of `F32`, IEEE 754 binary32 (R13). There is ONE NaN: "a model treats all NaNs as one value" (R13, U3).
`num neg mag` is every other value: `neg` is bit 31, `mag` the bits 30:0 (exponent 30:23, fraction 22:0) read as
one number, at most 0x7F800000, which is the pattern of infinity. Each value has exactly one term, so equality of
terms is identity of values, and `-0.0` and `+0.0` are two values. -/
inductive F32 where
  | nan
  | num (neg : Bool) (mag : Fin 0x7F800001)
  deriving DecidableEq, Repr, Inhabited

end Sys2Proof
end

