-- ==== Sys2Proof/Config.lean ====
section
/-! DEFINITION. What an implementation fixes (rule R10): the integer parameters as plain data (they stand in `State`,
never written, so that one `exec` speaks of every legal implementation: log entry 1), and the open functions as
constants without a body (rules R14, D7: log entries 3 and 4). -/

namespace Sys2Proof

/-- The integer parameters of R10. -/
structure Params where
  /-- `LOG2CAP`, legal range 1 to 24. -/
  log2cap   : Nat
  /-- `INIT_DELAY`, legal range 1 to CAP-1. -/
  initDelay : Nat
  /-- `FB_MAX`, legal range 0 to 255. -/
  fbMax     : Nat
  /-- `FS_RESET` in Hz, legal range 1 to 2^24 - 1. -/
  fsReset   : Nat
  deriving DecidableEq, Repr

namespace Config

/-- The "default" column of R10's table. -/
def defaults : Params := { log2cap := 3, initDelay := 1, fbMax := 4, fsReset := 48000 }

/-- `fcos` as the implementation gives it, before R14's bounds (Machine/Numeric.lean applies them). No body: OPEN (D7). -/
opaque rawCos : F32 → F32

/-- `fsin` as the implementation gives it, before R14's bounds. No body: OPEN (D7). -/
opaque rawSin : F32 → F32

/-- `fexp10` as the implementation gives it, before R14's bounds. No body: OPEN (D7). -/
opaque rawExp10 : F32 → F32

/-- The 32 bits an implementation puts on its response port for its n-th NaN result: R13 leaves sign and payload
open. No body; only `Response.word` (Machine/Flags.lean) reads it, no state depends on it. -/
opaque rawNaN : Nat → Word

end Config

end Sys2Proof
end

