-- ==== Sys2Proof/Syntax.lean ====
section
/-! DEFINITION. The command set PALDSP-CORE/1: the 28 commands of rule R84, one constructor per row of
spec/opcode_table.json, the three operand formats of rule R81, and the enumerations of rules R31, R33, R40. -/

namespace Sys2Proof

/-- A decoded command. A command of format F or U carries its operand field whole (R82: "used whole, never scaled,
shifted or extended"); its rule says how the 32 bits are read. -/
inductive Instr where
  /-- 0x10 `RB_PUSH s` (R102), format F. -/
  | rbPush (s : Word)
  /-- 0x11 `RB_PULL` (R103), format N. -/
  | rbPull
  /-- 0x12 `RB_TAP n` (R104), format U. -/
  | rbTap (n : Word)
  /-- 0x13 `RB_SETDELAY n` (R105), format U. -/
  | rbSetDelay (n : Word)
  /-- 0x14 `RB_SETMODRANGE r` (R106), format F. -/
  | rbSetModRange (r : Word)
  /-- 0x15 `RB_MAPMOD x` (R107), format F. -/
  | rbMapMod (x : Word)
  /-- 0x16 `RB_SETFBGAIN g` (R108), format F. -/
  | rbSetFbGain (g : Word)
  /-- 0x17 `RB_ADDFB k` (R109), format U. -/
  | rbAddFb (k : Word)
  /-- 0x18 `RB_GETLAT` (R110), format N. -/
  | rbGetLat
  /-- 0x19 `RB_GETMAXLAT` (R111), format N. -/
  | rbGetMaxLat
  /-- 0x20 `BQ_PROC x` (R131), format F. -/
  | bqProc (x : Word)
  /-- 0x21 `BQ_RESET` (R132), format N. -/
  | bqReset
  /-- 0x22 `BQ_SETKIND k` (R148), format U. -/
  | bqSetKind (k : Word)
  /-- 0x23 `BQ_SETFREQ f` (R149), format F. -/
  | bqSetFreq (f : Word)
  /-- 0x24 `BQ_SETQ q` (R150), format F. -/
  | bqSetQ (q : Word)
  /-- 0x25 `BQ_SETGAIN g` (R151), format F. -/
  | bqSetGain (g : Word)
  /-- 0x26 `BQ_SETFS n` (R153), format U read as I32. -/
  | bqSetFs (n : Word)
  /-- 0x27 `BQ_SETWET w` (R154), format F. -/
  | bqSetWet (w : Word)
  /-- 0x28 `BQ_SETDRY d` (R155), format F. -/
  | bqSetDry (d : Word)
  /-- 0x30 `OSC_NEXT` (R178), format N. -/
  | oscNext
  /-- 0x31 `OSC_VALUE` (R179), format N. -/
  | oscValue
  /-- 0x32 `OSC_VALUEP ph` (R180), format F. -/
  | oscValueP (ph : Word)
  /-- 0x33 `OSC_SETWAVE w` (R182), format U. -/
  | oscSetWave (w : Word)
  /-- 0x34 `OSC_SETFREQ f` (R183), format F. -/
  | oscSetFreq (f : Word)
  /-- 0x35 `OSC_SETFS n` (R184), format U read as I32. -/
  | oscSetFs (n : Word)
  /-- 0x36 `OSC_SETPHASE ph` (R185), format F. -/
  | oscSetPhase (ph : Word)
  /-- 0x37 `OSC_SETMIN m` (R186), format F. -/
  | oscSetMin (m : Word)
  /-- 0x38 `OSC_SETMAX M` (R187), format F. -/
  | oscSetMax (m : Word)
  deriving DecidableEq, Repr

/-- The three operand formats (R81). -/
inductive Format where
  /-- No operand: the field must be 0x00000000. -/
  | none
  /-- The field is the 32 bits of an F32; every pattern is legal. -/
  | float
  /-- The field is a U32 (the two sample-rate commands read it as I32). -/
  | int
  deriving DecidableEq, Repr

/-- The two fields of a command word before decoding (R80). -/
structure RawCommand where
  opcode  : BitVec 8
  operand : Word
  deriving DecidableEq, Repr

/-- Filter kinds, codes 0 to 6 in this order (R33, R89). -/
inductive Kind where
  | lowPass | highPass | bandPass | notch | lowShelf | highShelf | peaking
  deriving DecidableEq, Repr

/-- Waveforms, codes 0 to 4 in this order (R40, R89). -/
inductive Wave where
  | sine | triangle | square | saw | random
  deriving DecidableEq, Repr

/-- Stage selectors of the feedback chain: "The only legal selector is 1 (BIQUAD)" (R31). -/
inductive Stage where
  | biquad
  deriving DecidableEq, Repr

/-- The 8-bit code of a stage selector (R31). -/
def Stage.code : Stage → BitVec 8
  | .biquad => 1

end Sys2Proof
end

