-- ==== Sys2Proof/WellFormed.lean ====
section
/-! DEFINITION. What makes a command word legal (rules R84, R85, R86) and what makes a configuration legal (rule R10).
A term of `Instr` cannot be ill-formed: its operands are 32-bit fields by type, every pattern of a format F or U
operand is legal (R81), and domain checks "come after decoding and give InvalidParameter". -/

namespace Sys2Proof

/-- The format of an opcode, or `none` for the 228 opcode values that are not commands (R84, R86). -/
def opcodeFormat (op : BitVec 8) : Option Format :=
  match op.toNat with
  | 0x10 => some .float
  | 0x11 => some .none
  | 0x12 => some .int
  | 0x13 => some .int
  | 0x14 => some .float
  | 0x15 => some .float
  | 0x16 => some .float
  | 0x17 => some .int
  | 0x18 => some .none
  | 0x19 => some .none
  | 0x20 => some .float
  | 0x21 => some .none
  | 0x22 => some .int
  | 0x23 => some .float
  | 0x24 => some .float
  | 0x25 => some .float
  | 0x26 => some .int
  | 0x27 => some .float
  | 0x28 => some .float
  | 0x30 => some .none
  | 0x31 => some .none
  | 0x32 => some .float
  | 0x33 => some .int
  | 0x34 => some .float
  | 0x35 => some .int
  | 0x36 => some .float
  | 0x37 => some .float
  | 0x38 => some .float
  | _ => none

/-- A legal command word: the opcode is one of the 28, and the operand of a format N command is zero (R85). -/
def RawCommand.wf (c : RawCommand) : Bool :=
  match opcodeFormat c.opcode with
  | none => false
  | some .none => c.operand == 0
  | some .float => true
  | some .int => true

/-- The capacity `CAP = 2^LOG2CAP` (R10, R11). -/
abbrev Params.cap (p : Params) : Nat := 2 ^ p.log2cap

/-- The legal ranges of R10's table. -/
def Params.wf (p : Params) : Bool :=
  decide (1 ≤ p.log2cap) && decide (p.log2cap ≤ 24)
    && decide (1 ≤ p.initDelay) && decide (p.initDelay < p.cap)
    && decide (p.fbMax ≤ 255)
    && decide (1 ≤ p.fsReset) && decide (p.fsReset < 2 ^ 24)

end Sys2Proof
end

