-- ==== Sys2Proof/Decode.lean ====
section
/-! DEFINITION. The decoder of rule R85, total on every 40-bit word, and after it the encoder, written from the opcode
map of rule R84. -/

namespace Sys2Proof

/-- Why a word is illegal (R86). -/
inductive IllegalWord where
  /-- The opcode is not in R84's table. -/
  | opcodeNotDefined
  /-- The opcode is of format N and the operand is not zero. -/
  | operandNotZero
  deriving DecidableEq, Repr

/-- The two fields of a command word (R80). -/
def rawCommand (c : CommandWord) : RawCommand :=
  { opcode := c.extractLsb' 32 8, operand := c.extractLsb' 0 32 }

/-- Format N: the operand must be zero (R81, R85). -/
def noOperand (arg : Word) (i : Instr) : Except IllegalWord Instr :=
  if arg = 0 then .ok i else .error .operandNotZero

/-- R85 on the two fields, with R84's opcode numbers. -/
def decodeRaw (r : RawCommand) : Except IllegalWord Instr :=
  match r.opcode.toNat with
  | 0x10 => .ok (.rbPush r.operand)
  | 0x11 => noOperand r.operand .rbPull
  | 0x12 => .ok (.rbTap r.operand)
  | 0x13 => .ok (.rbSetDelay r.operand)
  | 0x14 => .ok (.rbSetModRange r.operand)
  | 0x15 => .ok (.rbMapMod r.operand)
  | 0x16 => .ok (.rbSetFbGain r.operand)
  | 0x17 => .ok (.rbAddFb r.operand)
  | 0x18 => noOperand r.operand .rbGetLat
  | 0x19 => noOperand r.operand .rbGetMaxLat
  | 0x20 => .ok (.bqProc r.operand)
  | 0x21 => noOperand r.operand .bqReset
  | 0x22 => .ok (.bqSetKind r.operand)
  | 0x23 => .ok (.bqSetFreq r.operand)
  | 0x24 => .ok (.bqSetQ r.operand)
  | 0x25 => .ok (.bqSetGain r.operand)
  | 0x26 => .ok (.bqSetFs r.operand)
  | 0x27 => .ok (.bqSetWet r.operand)
  | 0x28 => .ok (.bqSetDry r.operand)
  | 0x30 => noOperand r.operand .oscNext
  | 0x31 => noOperand r.operand .oscValue
  | 0x32 => .ok (.oscValueP r.operand)
  | 0x33 => .ok (.oscSetWave r.operand)
  | 0x34 => .ok (.oscSetFreq r.operand)
  | 0x35 => .ok (.oscSetFs r.operand)
  | 0x36 => .ok (.oscSetPhase r.operand)
  | 0x37 => .ok (.oscSetMin r.operand)
  | 0x38 => .ok (.oscSetMax r.operand)
  | _ => .error .opcodeNotDefined

/-- The decoder (R85). -/
def decode (c : CommandWord) : Except IllegalWord Instr := decodeRaw (rawCommand c)

/-- The instruction this decoder reads from a table row's word: the row's `nbits` bits, every bit above them 0. -/
def decodeTableWord (nbits w : Nat) : Option Instr :=
  if w % 2 ^ nbits < 2 ^ 40 then
    match decode (BitVec.ofNat 40 (w % 2 ^ nbits)) with
    | .ok i => some i
    | .error _ => none
  else none

/-- A command word from its opcode and operand (R80). -/
def commandWord (op : BitVec 8) (arg : Word) : CommandWord := op ++ arg

/-- The encoder: R84's opcode, and the operand field as it stands (zero for format N). -/
def encode : Instr → CommandWord
  | .rbPush s => commandWord 0x10 s
  | .rbPull => commandWord 0x11 0
  | .rbTap n => commandWord 0x12 n
  | .rbSetDelay n => commandWord 0x13 n
  | .rbSetModRange r => commandWord 0x14 r
  | .rbMapMod x => commandWord 0x15 x
  | .rbSetFbGain g => commandWord 0x16 g
  | .rbAddFb k => commandWord 0x17 k
  | .rbGetLat => commandWord 0x18 0
  | .rbGetMaxLat => commandWord 0x19 0
  | .bqProc x => commandWord 0x20 x
  | .bqReset => commandWord 0x21 0
  | .bqSetKind k => commandWord 0x22 k
  | .bqSetFreq f => commandWord 0x23 f
  | .bqSetQ q => commandWord 0x24 q
  | .bqSetGain g => commandWord 0x25 g
  | .bqSetFs n => commandWord 0x26 n
  | .bqSetWet w => commandWord 0x27 w
  | .bqSetDry d => commandWord 0x28 d
  | .oscNext => commandWord 0x30 0
  | .oscValue => commandWord 0x31 0
  | .oscValueP ph => commandWord 0x32 ph
  | .oscSetWave w => commandWord 0x33 w
  | .oscSetFreq f => commandWord 0x34 f
  | .oscSetFs n => commandWord 0x35 n
  | .oscSetPhase ph => commandWord 0x36 ph
  | .oscSetMin m => commandWord 0x37 m
  | .oscSetMax m => commandWord 0x38 m

/-- R84's `mask`: the whole word for format N, the opcode alone for formats F and U. -/
def tableMask : Format → CommandWord
  | .none => 0xFFFFFFFFFF
  | .float => 0xFF00000000
  | .int => 0xFF00000000

end Sys2Proof
end

