-- ==== Sys2Proof/Machine/Float.lean ====
section
/-! DEFINITION. The binary32 arithmetic of rule R13: every finite value is a whole number of units of 2^-149, an
operation computes its exact result in those units (an integer or a ratio of integers), and `roundMag` narrows it once,
to nearest, ties to even, subnormals exact, overflow to infinity. -/

namespace Sys2Proof

/-! ## Bit patterns -/

/-- Bits 30:0 of an infinity. -/
abbrev infMag : Nat := 0x7F800000

/-- The value a 32-bit pattern stands for: sign bit 31, exponent 30:23, fraction 22:0 (R13); every NaN pattern is
the one NaN. -/
def F32.ofBits (w : Word) : F32 :=
  if h : w.toNat % 2 ^ 31 < 0x7F800001 then .num (decide (2 ^ 31 ≤ w.toNat)) ⟨w.toNat % 2 ^ 31, h⟩ else .nan

/-- A 32-bit pattern of a value. R13 leaves a NaN's bits open: this is the pattern a HOST may put in an operand for the
literal `nan` (R90); a response never goes through it (Machine/Flags.lean). -/
def F32.toBits : F32 → Word
  | .nan => 0x7FC00000
  | .num neg mag => BitVec.ofNat 32 (mag.val + if neg then 2 ^ 31 else 0)

/-- `+0.0` -/
def F32.zero : F32 := .num false ⟨0, by decide⟩
/-- `0.5` -/
def F32.half : F32 := .num false ⟨0x3F000000, by decide⟩
/-- `1.0` -/
def F32.one : F32 := .num false ⟨0x3F800000, by decide⟩
/-- `-1.0` -/
def F32.negOne : F32 := .num true ⟨0x3F800000, by decide⟩
/-- `2.0` -/
def F32.two : F32 := .num false ⟨0x40000000, by decide⟩
/-- `-2.0` -/
def F32.negTwo : F32 := .num true ⟨0x40000000, by decide⟩
/-- `4.0` -/
def F32.four : F32 := .num false ⟨0x40800000, by decide⟩
/-- `8.0` -/
def F32.eight : F32 := .num false ⟨0x41000000, by decide⟩
/-- `16.0` -/
def F32.sixteen : F32 := .num false ⟨0x41800000, by decide⟩
/-- `40.0` -/
def F32.forty : F32 := .num false ⟨0x42200000, by decide⟩
/-- `16777216.0`, that is 2^24 (R176). -/
def F32.twoPow24 : F32 := .num false ⟨0x4B800000, by decide⟩
/-- `2147483648.0`, that is 2^31 (R181). -/
def F32.twoPow31 : F32 := .num false ⟨0x4F000000, by decide⟩
/-- `PI`, bits 0x40490FDB (R14). -/
def F32.pi : F32 := .num false ⟨0x40490FDB, by decide⟩

/-! ## Exact values and rounding -/

/-- The magnitude of a finite value in units of 2^-149, from its bits 30:0: the fraction alone for exponent 0, else the
fraction with its hidden bit, shifted by the exponent. (At `infMag` it is 2^277, the value rounding overflows to.) -/
def units (mag : Nat) : Nat :=
  if mag < 2 ^ 23 then mag else (2 ^ 23 + mag % 2 ^ 23) * 2 ^ (mag / 2 ^ 23 - 1)

/-- A signed magnitude. -/
def signed (neg : Bool) (n : Nat) : Int := if neg then -(n : Int) else n

/-- The exact value of a non-NaN value in units of 2^-149 (NaN: 0, no caller asks). -/
def F32.value : F32 → Int
  | .nan => 0
  | .num neg mag => signed neg (units mag.val)

/-- Bits 30:0 of the ratio `n / d` of units rounded to nearest, ties to even (R13). `k` is the number of bits the
24-bit significand drops; the carry of a round-up moves into the exponent by itself. -/
def roundMag (n d : Nat) : Nat :=
  let k := Nat.log2 (n / d) - 23
  let ulp := d * 2 ^ k
  let m := n / ulp
  let r := n % ulp
  min (k * 2 ^ 23 + if ulp < 2 * r ∨ (2 * r = ulp ∧ m % 2 = 1) then m + 1 else m) infMag

/-- The value with the given sign nearest to `n / d` units. -/
def roundF (neg : Bool) (n d : Nat) : F32 :=
  .num neg ⟨roundMag n d, Nat.lt_of_le_of_lt (Nat.min_le_right _ _) (by decide)⟩

/-! ## Classification and comparison -/

/-- `isnan` -/
def isnan : F32 → Bool
  | .nan => true
  | .num _ _ => false

/-- `isfinite`: "true for neither NaN nor infinity" -/
def isfinite : F32 → Bool
  | .nan => false
  | .num _ mag => decide (mag.val < infMag)

/-- `fneg`: flip the sign bit. -/
def fneg : F32 → F32
  | .nan => .nan
  | .num neg mag => .num (!neg) mag

/-- `fabs`: clear the sign bit. -/
def fabs : F32 → F32
  | .nan => .nan
  | .num _ mag => .num false mag

/-- The order key of a non-NaN value: magnitudes order as their bits 30:0, and the two zeros have one key. -/
def orderKey (neg : Bool) (mag : Fin 0x7F800001) : Int := signed neg mag.val

/-- `<` on F32: false with a NaN operand. -/
def flt : F32 → F32 → Bool
  | .num sa a, .num sb b => decide (orderKey sa a < orderKey sb b)
  | _, _ => false

/-- `<=` on F32: false with a NaN operand. -/
def fle : F32 → F32 → Bool
  | .num sa a, .num sb b => decide (orderKey sa a ≤ orderKey sb b)
  | _, _ => false

/-- `==` on F32: false with a NaN operand, `-0.0 == +0.0` true. -/
def feq : F32 → F32 → Bool
  | .num sa a, .num sb b => decide (orderKey sa a = orderKey sb b)
  | _, _ => false

/-! ## The five operations -/

/-- Addition of two non-NaN values. An exact zero sum is `+0.0`, except that two zeros of sign minus give `-0.0`. -/
def addNum (sa : Bool) (a : Fin 0x7F800001) (sb : Bool) (b : Fin 0x7F800001) : F32 :=
  if a.val = infMag then
    (if b.val = infMag ∧ sa ≠ sb then .nan else .num sa a)
  else if b.val = infMag then .num sb b
  else
    let v := signed sa (units a.val) + signed sb (units b.val)
    if v = 0 then .num (sa && sb) ⟨0, by decide⟩ else roundF (decide (v < 0)) v.natAbs 1

/-- `fadd` -/
def fadd : F32 → F32 → F32
  | .num sa a, .num sb b => addNum sa a sb b
  | _, _ => .nan

/-- `fsub`: IEEE subtraction is addition of the negated operand. -/
def fsub (x y : F32) : F32 := fadd x (fneg y)

/-- Multiplication of two non-NaN values; infinity times zero is NaN. -/
def mulNum (sa : Bool) (a : Fin 0x7F800001) (sb : Bool) (b : Fin 0x7F800001) : F32 :=
  if a.val = infMag ∨ b.val = infMag then
    (if a.val = 0 ∨ b.val = 0 then .nan else .num (sa ^^ sb) ⟨infMag, by decide⟩)
  else roundF (sa ^^ sb) (units a.val * units b.val) (2 ^ 149)

/-- `fmul` -/
def fmul : F32 → F32 → F32
  | .num sa a, .num sb b => mulNum sa a sb b
  | _, _ => .nan

/-- Division of two non-NaN values: infinity by infinity and zero by zero are NaN, a non-zero value by zero is an
infinity, a finite value by infinity a zero. -/
def divNum (sa : Bool) (a : Fin 0x7F800001) (sb : Bool) (b : Fin 0x7F800001) : F32 :=
  if a.val = infMag then
    (if b.val = infMag then .nan else .num (sa ^^ sb) ⟨infMag, by decide⟩)
  else if b.val = infMag then .num (sa ^^ sb) ⟨0, by decide⟩
  else if b.val = 0 then
    (if a.val = 0 then .nan else .num (sa ^^ sb) ⟨infMag, by decide⟩)
  else roundF (sa ^^ sb) (units a.val * 2 ^ 149) (units b.val)

/-- `fdiv` -/
def fdiv : F32 → F32 → F32
  | .num sa a, .num sb b => divNum sa a sb b
  | _, _ => .nan

/-- One bit of an integer square root at a time: `r` holds the bits found so far, `b` bits are left. -/
def isqrtBits (n : Nat) : Nat → Nat → Nat
  | 0, r => r
  | b + 1, r => if (r + 2 ^ b) * (r + 2 ^ b) ≤ n then isqrtBits n b (r + 2 ^ b) else isqrtBits n b r

/-- The greatest integer whose square is at most `n`. -/
def isqrt (n : Nat) : Nat := isqrtBits n (Nat.log2 n / 2 + 1) 0

/-- The square root of a magnitude in units: twice the integer root, and an odd half when the root is not exact (the
root of a non-zero magnitude has at least 74 bits, so a half decides every rounding of it to 24). -/
def sqrtMag (mag : Nat) : F32 :=
  let n := units mag * 2 ^ 149
  let r := isqrt n
  roundF false (2 * r + if r * r = n then 0 else 1) 2

/-- `fsqrt`: the root of a zero is that zero, of a negative value NaN. -/
def fsqrt : F32 → F32
  | .nan => .nan
  | .num neg mag =>
    if mag.val = 0 then .num neg mag
    else if neg then .nan
    else if mag.val = infMag then .num neg mag
    else sqrtMag mag.val

/-! ## Integers -/

/-- `u2f`: a non-negative integer to F32, round to nearest even. -/
def u2f (n : Nat) : F32 := roundF false (n * 2 ^ 149) 1

/-- `i2f`: a signed integer to F32, round to nearest even. -/
def i2f (z : Int) : F32 := roundF (decide (z < 0)) (z.natAbs * 2 ^ 149) 1

/-- `floor`: the greatest integer not above a finite value. (For a NaN or an infinity the spec gives none; no reachable
state asks, R113(b): log entry 8.) -/
def floorZ (v : F32) : Int := v.value / 2 ^ 149

/-- `ffloor`: the F32 whose value is `floor(s)` (R170). -/
def ffloor (s : F32) : F32 := i2f (floorZ s)

end Sys2Proof
end

