-- ==== Sys2Proof/Machine/Numeric.lean ====
section
/-! DEFINITION. The three functions of the numeric record `NUM` (rule R14): whatever function the implementation gives,
held inside the bounds R14 assumes of it and nothing more. A function that already keeps the bounds passes unchanged,
so every legal `NUM` is covered. -/

namespace Sys2Proof.Machine

/-- The non-algebraic fields of `NUM` (R14). -/
structure NumericRecord where
  fcos   : F32 → F32
  fsin   : F32 → F32
  fexp10 : F32 → F32

/-- "a finite value in [-1, 1]" (R14). -/
def withinUnit (v : F32) : Bool := fle .negOne v && fle v .one

/-- "a positive finite value, +infinity or +0.0" (R14). -/
def plusSign : F32 → Bool
  | .nan => false
  | .num neg _ => !neg

/-- A raw cosine or sine with R14's bound: on a finite argument a result outside [-1, 1] is replaced by 1.0. -/
def boundTrig (raw : F32 → F32) (v : F32) : F32 :=
  if isfinite v && !withinUnit (raw v) then .one else raw v

/-- A raw power of ten with R14's bound: 1.0 at both zeros, and on a finite argument a result with a minus sign, or a
NaN, is replaced by 1.0. -/
def boundExp (raw : F32 → F32) (v : F32) : F32 :=
  if feq v .zero then .one
  else if isfinite v && !plusSign (raw v) then .one else raw v

/-- Any three functions as a legal `NUM` (R14). -/
def legalNum (cosine sine power : F32 → F32) : NumericRecord :=
  { fcos := boundTrig cosine, fsin := boundTrig sine, fexp10 := boundExp power }

/-- The implementation's `NUM`: OPEN (D7). -/
def machineNum : NumericRecord := legalNum Config.rawCos Config.rawSin Config.rawExp10

end Sys2Proof.Machine
end

