-- ==== Sys2Proof/Machine/State.lean ====
section
/-! DEFINITION. The state of the block, `State = RB x BQ x OSC` (rule R20), beside it the model's own three fields (the
configuration of rule R10, what the host presents at the command port, the responses it got), the stops, and the state
after reset (rules R53, R240, R241). -/

namespace Sys2Proof.Machine

/-- The sample store (R60): the words that are not `+0.0`, by index, indices rising. An index that is not listed holds
`+0.0`, the reset content (R24). The canonical form is `Memory.wf` (Machine/Ops.lean). -/
abbrev Memory := List (Nat × F32)

/-- RB, the delay_line_interpolator (R24 to R31). -/
structure RB where
  /-- `RB.buf` (R24). -/
  buf       : Memory
  /-- `RB.wr`, IDX (R25). -/
  wr        : Nat
  /-- `RB.rd`, IDX (R26). -/
  rd        : Nat
  /-- `RB.delay`, U32 (R27). No command reads it. -/
  delay     : Word
  /-- `RB.modRange`, F32 (R28). -/
  modRange  : F32
  /-- `RB.modOffset`, F32 (R29). -/
  modOffset : F32
  /-- `RB.fbGain`, F32 (R30). -/
  fbGain    : F32
  /-- `RB.chain` (R31), first stage first. -/
  chain     : List Stage
  deriving DecidableEq, Repr

/-- The six raw coefficients, "Written only as a set" (R36). -/
structure Coefs where
  b0 : F32
  b1 : F32
  b2 : F32
  a0 : F32
  a1 : F32
  a2 : F32
  deriving DecidableEq, Repr

/-- The identity set of reset (R36, R258). -/
def Coefs.identity : Coefs := { b0 := .one, b1 := .zero, b2 := .zero, a0 := .one, a1 := .zero, a2 := .zero }

/-- BQ, the biquad_filter_core proper (R33 to R38). -/
structure BQ where
  /-- `BQ.kind` (R33). -/
  kind   : Kind
  /-- `BQ.f`, F32 in Hz (R34). -/
  f      : F32
  /-- `BQ.q`, F32 (R34). -/
  q      : F32
  /-- `BQ.gainDb`, F32 in dB (R34). -/
  gainDb : F32
  /-- `BQ.fs`, U32 in Hz (R35). -/
  fs     : Word
  /-- `BQ.b0 .. BQ.a2` (R36). -/
  coef   : Coefs
  /-- `BQ.x1`, `x[n-1]` (R37). -/
  x1     : F32
  /-- `BQ.x2`, `x[n-2]` (R37). -/
  x2     : F32
  /-- `BQ.y1`, `y[n-1]` (R37). -/
  y1     : F32
  /-- `BQ.y2`, `y[n-2]` (R37). -/
  y2     : F32
  /-- `BQ.wet`, F32 (R38). -/
  wet    : F32
  /-- `BQ.dry`, F32 (R38). -/
  dry    : F32
  deriving DecidableEq, Repr

/-- OSC, the lfo_modulation_source (R40 to R46). -/
structure OSC where
  /-- `OSC.wave` (R40). -/
  wave     : Wave
  /-- `OSC.f`, F32 in Hz (R41). -/
  f        : F32
  /-- `OSC.fs`, U32 in Hz (R41). -/
  fs       : Word
  /-- `OSC.spc`, U32 (R42). -/
  spc      : Word
  /-- `OSC.progress`, U32 (R43). -/
  progress : Word
  /-- `OSC.phase`, F32 (R44). -/
  phase    : F32
  /-- `OSC.min`, F32 (R45). -/
  min      : F32
  /-- `OSC.max`, F32 (R45). -/
  max      : F32
  /-- `OSC.rng`, U32 (R46). -/
  rng      : Word
  deriving DecidableEq, Repr

/-- What the host can do at the block's port: present a command word (R17, D2), or pulse the reset input, which "is not
a command and has no encoding" (R240). -/
inductive PortInput where
  | command (c : CommandWord)
  | reset
  deriving DecidableEq, Repr

/-- The status field (R210). Code 2 is reserved and never produced: "a model's status type needs no such constructor"
(R213). -/
inductive Status where
  | ok
  | invalidParameter
  | illegalCommand
  deriving DecidableEq, Repr

/-- The value field of a response (R83): 32 bits, or the bits of some NaN, whose sign and payload R13 leaves open. -/
inductive Value where
  | bits (w : Word)
  | someNaN
  deriving DecidableEq, Repr

/-- A response (R83). -/
structure Response where
  status : Status
  value  : Value
  deriving DecidableEq, Repr

/-- The state of a step. `rb`, `bq` and `osc` are the block (R20); the other fields are the model's own. -/
structure State where
  /-- The configuration (R10): no step writes it (log entry 1). -/
  cfg       : Params
  rb        : RB
  bq        : BQ
  osc       : OSC
  /-- What the host will present, first first (R22, R70: log entry 2). -/
  input     : List PortInput
  /-- The responses given so far, in command order (R259, R260: log entry 2). -/
  responses : List Response
  deriving DecidableEq, Repr

/-- Why a step can fault: never. "The step function is total" (R17), "No access can fault" (R64), and an error is the
status of a response (R217). Nobody raises one; safe. -/
inductive Fault where
  deriving DecidableEq, Repr

/-- Why a step can be refused. -/
inductive Refusal where
  /-- Raised only by an arm of `exec` whose instruction has no meaning; this model has no such arm. Safe. -/
  | notModelled (mnemonic : String)
  deriving DecidableEq, Repr

/-- RB after reset (R53). -/
def RB.reset (p : Params) : RB :=
  { buf := [], wr := 0, rd := p.cap - p.initDelay, delay := BitVec.ofNat 32 p.initDelay,
    modRange := .zero, modOffset := .zero, fbGain := .zero, chain := [] }

/-- BQ after reset (R53): the reset parameters of a low-pass filter, but the identity coefficients (R258). -/
def BQ.reset (p : Params) : BQ :=
  { kind := .lowPass, f := fdiv (u2f p.fsReset) .four, q := .one, gainDb := .zero, fs := BitVec.ofNat 32 p.fsReset,
    coef := Coefs.identity, x1 := .zero, x2 := .zero, y1 := .zero, y2 := .zero, wet := .one, dry := .zero }

/-- OSC after reset (R53). -/
def OSC.reset (p : Params) : OSC :=
  { wave := .sine, f := .one, fs := BitVec.ofNat 32 p.fsReset, spc := BitVec.ofNat 32 p.fsReset, progress := 0,
    phase := .zero, min := .zero, max := .one, rng := 0 }

/-- `reset : Config -> State` (R240): every field at R53's value, nothing presented, no response given. -/
def State.resetWith (p : Params) : State :=
  { cfg := p, rb := RB.reset p, bq := BQ.reset p, osc := OSC.reset p, input := [], responses := [] }

/-- The machine right after reset in the default configuration of R10. -/
def State.reset : State := State.resetWith Config.defaults

end Sys2Proof.Machine
end

