-- ==== Sys2Proof/Machine/Operands.lean ====
section
/-! DEFINITION. How a command reads its 32-bit operand (rules R81, R82, R89), and the domain checks several commands
share (rule R211). -/

namespace Sys2Proof.Machine

/-- A format F operand. -/
def operandFloat (w : Word) : F32 := F32.ofBits w

/-- The two sample-rate commands read the operand as I32 and accept it iff it is at least 1 (R82). -/
def positiveI32 (w : Word) : Bool := decide (1 ≤ w.toInt)

/-- The kind codes of `BQ_SETKIND`; all 32 bits take part in the comparison (R82, R89). -/
def kindOfCode (w : Word) : Option Kind :=
  match w.toNat with
  | 0 => some .lowPass
  | 1 => some .highPass
  | 2 => some .bandPass
  | 3 => some .notch
  | 4 => some .lowShelf
  | 5 => some .highShelf
  | 6 => some .peaking
  | _ => none

/-- The waveform codes of `OSC_SETWAVE` (R89). -/
def waveOfCode (w : Word) : Option Wave :=
  match w.toNat with
  | 0 => some .sine
  | 1 => some .triangle
  | 2 => some .square
  | 3 => some .saw
  | 4 => some .random
  | _ => none

/-- The stage selector of `RB_ADDFB`: 1 is BIQUAD, no other exists (R89). -/
def stageOfSelector (w : Word) : Option Stage :=
  match w.toNat with
  | 1 => some .biquad
  | _ => none

/-- `(0.0 <= v) and (v <= 1.0)`, the domain of gains, mix and phase (R108, R154, R155, R185). -/
def inUnitInterval (v : F32) : Bool := fle .zero v && fle v .one

end Sys2Proof.Machine
end

