-- ==== Sys2Proof/Machine/Flags.lean ====
section
/-! DEFINITION. "There are no status flags, condition codes or predicates" (rule R23). What stands in their place is the
status and value of a response (rules R83, R210); this file gives their bits. -/

namespace Sys2Proof.Machine

/-- The 2-bit status code (R210). -/
def statusCode : Status → BitVec 2
  | .ok => 0
  | .invalidParameter => 1
  | .illegalCommand => 3

/-- An F32 result as the value of a response: its 32 bits, and for a NaN no bits in particular (R13, R83). -/
def floatValue : F32 → Value
  | .nan => .someNaN
  | .num neg mag => .bits (F32.toBits (.num neg mag))

/-- The value of a response read as F32 (`val(C)` of R200). -/
def valueFloat : Value → F32
  | .bits w => F32.ofBits w
  | .someNaN => .nan

/-- The bits of the n-th response's NaN: the implementation's own, held to be some NaN pattern. -/
def nanBits (n : Nat) : Word :=
  if F32.ofBits (Config.rawNaN n) = .nan then Config.rawNaN n else 0x7FC00000

/-- The 34-bit response word `P` of the n-th response (R83). -/
def responseWord (n : Nat) (r : Response) : ResponseWord :=
  match r.value with
  | .bits w => statusCode r.status ++ w
  | .someNaN => statusCode r.status ++ nanBits n

end Sys2Proof.Machine
end

