-- ==== Sys2Proof/Machine/Ops.lean ====
section
/-! DEFINITION. The shared operations: index wrapping, the sample store, giving a response, and the block's whole error
mechanism, `raise` (rules R12, R16, R60 to R67, R210 to R219). -/

namespace Sys2Proof.Machine

/-! ## Indices (R12, R64) -/

/-- `wrap(i) = i mod CAP` for any integer, the result in 0 to CAP-1. -/
def wrap (p : Params) (i : Int) : Nat := (i % (p.cap : Int)).toNat

/-- `Lat() = wrap(RB.wr - RB.rd)` (R100). -/
def lat (p : Params) (rb : RB) : Nat := wrap p ((rb.wr : Int) - (rb.rd : Int))

/-! ## The sample store (R60, R62, R67, R74) -/

/-- `MemRead(i, 1)`: an index that is not listed reads as the reset content, +0.0. -/
def memRead : Memory → Nat → F32
  | [], _ => .zero
  | (j, v) :: rest, i => if i = j then v else memRead rest i

/-- A cell put before the cells after it; a `+0.0` is not listed. -/
def memCons (i : Nat) (v : F32) (rest : Memory) : Memory :=
  if v = .zero then rest else (i, v) :: rest

/-- `MemWrite(i, 1, v)` on the canonical form. -/
def memWrite : Memory → Nat → F32 → Memory
  | [], i, v => memCons i v []
  | (j, u) :: rest, i, v =>
    if i < j then memCons i v ((j, u) :: rest)
    else if i = j then memCons i v rest
    else (j, u) :: memWrite rest i v

/-- Indices rise strictly from `lo`, stay below `hi`, and no word is `+0.0`. -/
def memWfFrom (hi : Nat) : Nat → Memory → Bool
  | _, [] => true
  | lo, (j, v) :: rest => decide (lo ≤ j) && decide (j < hi) && decide (v ≠ .zero) && memWfFrom hi (j + 1) rest

/-- The canonical form of a store of `cap` words. -/
def Memory.wf (cap : Nat) (m : Memory) : Bool := memWfFrom cap 0 m

/-! ## Responses (R16, R83) -/

/-- `respond(status, value)`: the command ends and gives its one response. -/
def respond (st : Status) (v : Value) (s : State) : State :=
  { s with responses := s.responses ++ [{ status := st, value := v }] }

/-- `respond(0, 0x00000000)` -/
def respondOk (s : State) : State := respond .ok (.bits 0) s

/-- `respond(0, v)` for an F32 result. -/
def respondFloat (v : F32) (s : State) : State := respond .ok (floatValue v) s

/-- `respond(0, n)` for a U32 result. -/
def respondWord (n : Word) (s : State) : State := respond .ok (.bits n) s

/-! ## Errors (R16, R210, R217, R218): the block's only exception is a response; there is no trap entry, nothing is
saved, and nothing is returned from -/

/-- An error response: a status that is not OK, value 0. -/
def raiseError (st : Status) (s : State) : State := respond st (.bits 0) s

/-- `raise InvalidParameter` (R16, R211): no further state change. -/
def raiseInvalid (s : State) : State := raiseError .invalidParameter s

/-- `raise IllegalCommand` (R16, R212): no state change. -/
def raiseIllegal (s : State) : State := raiseError .illegalCommand s

/-! ## The reset input (R240) -/

/-- Every piece of the block's state takes its reset value. -/
def resetBlock (s : State) : State :=
  { s with rb := RB.reset s.cfg, bq := BQ.reset s.cfg, osc := OSC.reset s.cfg }

end Sys2Proof.Machine
end

