-- ==== Sys2Proof/Machine/Biquad.lean ====
section
/-! DEFINITION. BQ, the biquad_filter_core (spec/41_biquad.md): the processing step, the seven coefficient generators,
the commit procedure, and the nine BQ commands. -/

namespace Sys2Proof.Machine

/-! ## The processing step (R130) -/

/-- `y` of R130: five quotients, five products, the terms combined left to right, from the registers before the shift. -/
def bqOutput (b : BQ) (x : F32) : F32 :=
  let t0 := fmul (fdiv b.coef.b0 b.coef.a0) x
  let t1 := fmul (fdiv b.coef.b1 b.coef.a0) b.x1
  let t2 := fmul (fdiv b.coef.b2 b.coef.a0) b.x2
  let t3 := fmul (fdiv b.coef.a1 b.coef.a0) b.y1
  let t4 := fmul (fdiv b.coef.a2 b.coef.a0) b.y2
  fsub (fsub (fadd (fadd t0 t1) t2) t3) t4

/-- The shift of R130's four delay registers: the stored output is the unmixed `y`. -/
def bqShift (b : BQ) (x y : F32) : BQ := { b with x2 := b.x1, x1 := x, y2 := b.y1, y1 := y }

/-- `wet*y + dry*x` (R130). -/
def bqMix (b : BQ) (x y : F32) : F32 := fadd (fmul b.wet y) (fmul b.dry x)

/-- `BqCore(x)` (R130): the mixed output, and BQ with its registers shifted. -/
def bqCore (b : BQ) (x : F32) : F32 × BQ :=
  let y := bqOutput b x
  (bqMix b x y, bqShift b x y)

/-- The four delay registers at +0.0 (R132, R148). -/
def bqClear (b : BQ) : BQ := { b with x1 := .zero, x2 := .zero, y1 := .zero, y2 := .zero }

/-! ## Coefficient generators (R133, R140 to R146), from `c = fcos(w0)`, `alpha`, and where used `A` -/

/-- `w0` (R133). -/
def omega (f : F32) (fs : Word) : F32 := fdiv (fmul (fmul .two .pi) f) (u2f fs.toNat)

/-- R140 -/
def lowPassCoefs (c alpha : F32) : Coefs :=
  let b1 := fsub .one c
  let b0 := fdiv b1 .two
  { b0 := b0, b1 := b1, b2 := b0, a0 := fadd .one alpha, a1 := fmul .negTwo c, a2 := fsub .one alpha }

/-- R141 -/
def highPassCoefs (c alpha : F32) : Coefs :=
  let t := fadd .one c
  let b0 := fdiv t .two
  { b0 := b0, b1 := fneg t, b2 := b0, a0 := fadd .one alpha, a1 := fmul .negTwo c, a2 := fsub .one alpha }

/-- R142 -/
def bandPassCoefs (c alpha : F32) : Coefs :=
  { b0 := alpha, b1 := .zero, b2 := fneg alpha, a0 := fadd .one alpha, a1 := fmul .negTwo c, a2 := fsub .one alpha }

/-- R143 -/
def notchCoefs (c alpha : F32) : Coefs :=
  { b0 := .one, b1 := fmul .negTwo c, b2 := .one, a0 := fadd .one alpha, a1 := fmul .negTwo c, a2 := fsub .one alpha }

/-- R144, with R133's `sq`, `beta`, `Ap`, `Am`, `Amc`, `Apc` -/
def lowShelfCoefs (A c alpha : F32) : Coefs :=
  let beta := fmul (fmul .two (fsqrt A)) alpha
  let Ap := fadd A .one
  let Am := fsub A .one
  let Amc := fmul Am c
  let Apc := fmul Ap c
  { b0 := fmul A (fadd (fsub Ap Amc) beta)
    b1 := fmul (fmul .two A) (fsub Am Apc)
    b2 := fmul A (fsub (fsub Ap Amc) beta)
    a0 := fadd (fadd Ap Amc) beta
    a1 := fmul .negTwo (fadd Am Apc)
    a2 := fsub (fadd Ap Amc) beta }

/-- R145, with R133's `sq`, `beta`, `Ap`, `Am`, `Amc`, `Apc` -/
def highShelfCoefs (A c alpha : F32) : Coefs :=
  let beta := fmul (fmul .two (fsqrt A)) alpha
  let Ap := fadd A .one
  let Am := fsub A .one
  let Amc := fmul Am c
  let Apc := fmul Ap c
  { b0 := fmul A (fadd (fadd Ap Amc) beta)
    b1 := fmul (fmul .negTwo A) (fadd Am Apc)
    b2 := fmul A (fsub (fadd Ap Amc) beta)
    a0 := fadd (fsub Ap Amc) beta
    a1 := fmul .two (fsub Am Apc)
    a2 := fsub (fsub Ap Amc) beta }

/-- R146 -/
def peakingCoefs (A c alpha : F32) : Coefs :=
  let aA := fmul alpha A
  let adA := fdiv alpha A
  { b0 := fadd .one aA, b1 := fmul .negTwo c, b2 := fsub .one aA,
    a0 := fadd .one adA, a1 := fmul .negTwo c, a2 := fsub .one adA }

/-- `Coef(kind, f, q, g, fs)` (R134): "a pure function of its five arguments and the configuration `NUM`". The first
four kinds never evaluate `fexp10` (R133). -/
def coefOf (num : NumericRecord) (kind : Kind) (f q g : F32) (fs : Word) : Coefs :=
  let c := num.fcos (omega f fs)
  let alpha := fdiv (num.fsin (omega f fs)) (fmul .two q)
  match kind with
  | .lowPass => lowPassCoefs c alpha
  | .highPass => highPassCoefs c alpha
  | .bandPass => bandPassCoefs c alpha
  | .notch => notchCoefs c alpha
  | .lowShelf => lowShelfCoefs (num.fexp10 (fdiv g .forty)) c alpha
  | .highShelf => highShelfCoefs (num.fexp10 (fdiv g .forty)) c alpha
  | .peaking => peakingCoefs (num.fexp10 (fdiv g .forty)) c alpha

/-! ## Committing a parameter change (R147) -/

/-- R147's four parameter checks. -/
def paramsUsable (f q g : F32) (fs : Word) : Bool :=
  flt .zero f && flt f (fdiv (u2f fs.toNat) .two) && flt .zero q && isfinite g

/-- R147's checks of the result: all six finite and `a0 != 0`. -/
def coefsUsable (k : Coefs) : Bool :=
  isfinite k.b0 && isfinite k.b1 && isfinite k.b2 && isfinite k.a0 && isfinite k.a1 && isfinite k.a2
    && !feq k.a0 .zero

/-- `BqCommit` (R147) on the candidate tuple: BQ with the tuple and its coefficients, or none where it raises. -/
def bqCommit (num : NumericRecord) (b : BQ) (kind : Kind) (f q g : F32) (fs : Word) : Option BQ :=
  if paramsUsable f q g fs && coefsUsable (coefOf num kind f q g fs) then
    some { b with kind := kind, f := f, q := q, gainDb := g, fs := fs, coef := coefOf num kind f q g fs }
  else none

/-- How a committing setter ends: the new BQ and OK, or InvalidParameter and nothing changed. -/
def bqFinish (s : State) : Option BQ → State
  | some b => respondOk { s with bq := b }
  | none => raiseInvalid s

/-! ## Commands -/

/-- `BQ_PROC x` (R131). -/
def execBqProc (w : Word) (s : State) : Host.Outcome State Fault Refusal :=
  let r := bqCore s.bq (operandFloat w)
  .next (respondFloat r.1 { s with bq := r.2 })

/-- `BQ_RESET` (R132). -/
def execBqReset (s : State) : Host.Outcome State Fault Refusal :=
  .next (respondOk { s with bq := bqClear s.bq })

/-- `BQ_SETKIND k` (R148): re-construction in place, the delay registers zeroed. -/
def execBqSetKind (w : Word) (s : State) : Host.Outcome State Fault Refusal :=
  .next (match kindOfCode w with
    | none => raiseInvalid s
    | some k => bqFinish s ((bqCommit machineNum s.bq k s.bq.f s.bq.q s.bq.gainDb s.bq.fs).map bqClear))

/-- `BQ_SETFREQ f` (R149). -/
def execBqSetFreq (w : Word) (s : State) : Host.Outcome State Fault Refusal :=
  .next (bqFinish s (bqCommit machineNum s.bq s.bq.kind (operandFloat w) s.bq.q s.bq.gainDb s.bq.fs))

/-- `BQ_SETQ q` (R150). -/
def execBqSetQ (w : Word) (s : State) : Host.Outcome State Fault Refusal :=
  .next (bqFinish s (bqCommit machineNum s.bq s.bq.kind s.bq.f (operandFloat w) s.bq.gainDb s.bq.fs))

/-- `BQ_SETGAIN g` (R151). -/
def execBqSetGain (w : Word) (s : State) : Host.Outcome State Fault Refusal :=
  .next (bqFinish s (bqCommit machineNum s.bq s.bq.kind s.bq.f s.bq.q (operandFloat w) s.bq.fs))

/-- `BQ_SETFS n` (R153). -/
def execBqSetFs (w : Word) (s : State) : Host.Outcome State Fault Refusal :=
  .next (if positiveI32 w then
      bqFinish s (bqCommit machineNum s.bq s.bq.kind s.bq.f s.bq.q s.bq.gainDb w)
    else raiseInvalid s)

/-- `BQ_SETWET w` (R154). -/
def execBqSetWet (w : Word) (s : State) : Host.Outcome State Fault Refusal :=
  .next (if inUnitInterval (operandFloat w) then
      respondOk { s with bq := { s.bq with wet := operandFloat w } }
    else raiseInvalid s)

/-- `BQ_SETDRY d` (R155). -/
def execBqSetDry (w : Word) (s : State) : Host.Outcome State Fault Refusal :=
  .next (if inUnitInterval (operandFloat w) then
      respondOk { s with bq := { s.bq with dry := operandFloat w } }
    else raiseInvalid s)

end Sys2Proof.Machine
end

