-- ==== Sys2Proof/Machine/Oscillator.lean ====
section
/-! DEFINITION. OSC, the lfo_modulation_source (spec/42_oscillator.md): the phase position, the five shapes, the range
map, the cycle length, and the nine OSC commands. -/

namespace Sys2Proof.Machine

/-! ## Phase position and shapes (R170 to R177) -/

/-- `PhasePos(ph)` (R170): the fractional part of `progress/spc + ph`. -/
def phasePos (o : OSC) (ph : F32) : F32 :=
  let s := fadd (fdiv (u2f o.progress.toNat) (u2f o.spc.toNat)) ph
  fsub s (ffloor s)

/-- One half of the sine shape: `d*(8 - 16|d|)` (R172). -/
def parabola (d : F32) : F32 := fmul d (fsub .eight (fmul .sixteen (fabs d)))

/-- sine (R172), "kept literally". -/
def sineShape (p : F32) : F32 := if flt .half p then parabola (fsub p .one) else parabola p

/-- triangle (R173) -/
def triangleShape (p : F32) : F32 := if fle p .half then fmul .two p else fmul .two (fsub .one p)

/-- square (R174) -/
def squareShape (p : F32) : F32 := if fle p .half then .one else .zero

/-- random (R176): the top 24 bits of `rng` over 2^24; the position is ignored. -/
def randomShape (rng : Word) : F32 := fdiv (u2f (rng >>> 8).toNat) .twoPow24

/-- `Shape(w, p)` (R171); saw is `p` itself (R175). -/
def shape (w : Wave) (rng : Word) (p : F32) : F32 :=
  match w with
  | .sine => sineShape p
  | .triangle => triangleShape p
  | .square => squareShape p
  | .saw => p
  | .random => randomShape rng

/-- The shape value at phase `ph` (`Shape(OSC.wave, PhasePos(ph))`). -/
def shapeAt (o : OSC) (ph : F32) : F32 := shape o.wave o.rng (phasePos o ph)

/-- `RangeMap(v)` (R177). -/
def rangeMap (o : OSC) (v : F32) : F32 := fadd o.min (fmul v (fsub o.max o.min))

/-! ## Per-sample commands -/

/-- The generator step of R176, modulo 2^32. -/
def rngStep (r : Word) : Word := r * 1664525 + 1013904223

/-- The advance of R178: `progress` by one modulo `spc`, and `rng` when that wraps to 0, whatever the waveform. -/
def oscAdvance (o : OSC) : OSC :=
  let n := (o.progress.toNat + 1) % o.spc.toNat
  { o with progress := BitVec.ofNat 32 n, rng := if n = 0 then rngStep o.rng else o.rng }

/-- `OSC_NEXT` (R178): advance first, then the value at the new `progress`. -/
def execOscNext (s : State) : Host.Outcome State Fault Refusal :=
  let o := oscAdvance s.osc
  .next (respondFloat (rangeMap o (shapeAt o o.phase)) { s with osc := o })

/-- `OSC_VALUE` (R179). -/
def execOscValue (s : State) : Host.Outcome State Fault Refusal :=
  .next (respondFloat (shapeAt s.osc s.osc.phase) s)

/-- `OSC_VALUEP ph` (R180): the operand in the place of `OSC.phase` for this one evaluation. -/
def execOscValueP (w : Word) (s : State) : Host.Outcome State Fault Refusal :=
  .next (if isfinite (operandFloat w) then respondFloat (shapeAt s.osc (operandFloat w)) s else raiseInvalid s)

/-! ## Cycle length (R181) -/

/-- `floor(q + 1/2)` in exact arithmetic on the F32 value `q`. -/
def roundHalfUp (q : F32) : Int := (2 * q.value + 2 ^ 149) / 2 ^ 150

/-- `SpcOf(f, fs)` (R181); `none` is "invalid". -/
def spcOf (f : F32) (fs : Word) : Option Nat :=
  let q := fdiv (u2f fs.toNat) f
  if fle .half q && flt q .twoPow31 then some (roundHalfUp q).toNat else none

/-! ## Setters -/

/-- `OSC_SETWAVE w` (R182). -/
def execOscSetWave (w : Word) (s : State) : Host.Outcome State Fault Refusal :=
  .next (match waveOfCode w with
    | none => raiseInvalid s
    | some v => respondOk { s with osc := { s.osc with wave := v } })

/-- OSC with a frequency, a sample rate and the cycle length `n`, `progress` re-wrapped (R183, R184). -/
def oscRetune (o : OSC) (f : F32) (fs : Word) (n : Nat) : OSC :=
  { o with f := f, fs := fs, spc := BitVec.ofNat 32 n, progress := BitVec.ofNat 32 (o.progress.toNat % n) }

/-- How the two tuning setters end: the new cycle length, or InvalidParameter and nothing changed. -/
def oscCommit (f : F32) (fs : Word) (s : State) : State :=
  match spcOf f fs with
  | some n => respondOk { s with osc := oscRetune s.osc f fs n }
  | none => raiseInvalid s

/-- `OSC_SETFREQ f` (R183). -/
def execOscSetFreq (w : Word) (s : State) : Host.Outcome State Fault Refusal :=
  .next (if flt .zero (operandFloat w) then oscCommit (operandFloat w) s.osc.fs s else raiseInvalid s)

/-- `OSC_SETFS n` (R184). -/
def execOscSetFs (w : Word) (s : State) : Host.Outcome State Fault Refusal :=
  .next (if positiveI32 w then oscCommit s.osc.f w s else raiseInvalid s)

/-- `OSC_SETPHASE ph` (R185). -/
def execOscSetPhase (w : Word) (s : State) : Host.Outcome State Fault Refusal :=
  .next (if inUnitInterval (operandFloat w) then
      respondOk { s with osc := { s.osc with phase := operandFloat w } }
    else raiseInvalid s)

/-- `OSC_SETMIN m` (R186). -/
def execOscSetMin (w : Word) (s : State) : Host.Outcome State Fault Refusal :=
  .next (if isfinite (operandFloat w) then
      respondOk { s with osc := { s.osc with min := operandFloat w } }
    else raiseInvalid s)

/-- `OSC_SETMAX M` (R187). -/
def execOscSetMax (w : Word) (s : State) : Host.Outcome State Fault Refusal :=
  .next (if isfinite (operandFloat w) then
      respondOk { s with osc := { s.osc with max := operandFloat w } }
    else raiseInvalid s)

end Sys2Proof.Machine
end

