-- ==== Sys2Proof/Machine/RingBuffer.lean ====
section
/-! DEFINITION. RB, the delay_line_interpolator (spec/40_ringbuffer.md): feedback, interpolation, and the ten RB
commands. -/

namespace Sys2Proof.Machine

/-! ## Feedback (R101) -/

/-- `Stage(k, t)`: BIQUAD is `BqCore(t)`, "and updates `BQ.x1, BQ.x2, BQ.y1, BQ.y2` exactly as `BQ_PROC t` would". -/
def runStage : Stage → BQ → F32 → F32 × BQ
  | .biquad, b, t => bqCore b t

/-- The stages of the chain in order, each on the output of the one before. -/
def runChain : List Stage → BQ → F32 → F32 × BQ
  | [], b, t => (t, b)
  | st :: rest, b, t => runChain rest (runStage st b t).2 (runStage st b t).1

/-- `Feedback(i)` (R101): the raw word, through the chain, times the gain; the stages run even when the gain is zero. -/
def feedback (rb : RB) (b : BQ) (i : Nat) : F32 × BQ :=
  let r := runChain rb.chain b (memRead rb.buf i)
  (fmul r.1 rb.fbGain, r.2)

/-! ## Per-sample commands -/

/-- RB after `RB_PUSH` of `s` with feedback `fb` (R102). -/
def rbPush (p : Params) (rb : RB) (s fb : F32) : RB :=
  { rb with buf := memWrite rb.buf rb.wr (fadd s fb), wr := wrap p ((rb.wr : Int) + 1) }

/-- `RB_PUSH s` (R102): the feedback reads `buf[RB.rd]` before the write of `buf[RB.wr]` (R66). -/
def execRbPush (w : Word) (s : State) : Host.Outcome State Fault Refusal :=
  let fb := feedback s.rb s.bq s.rb.rd
  .next (respondOk { s with rb := rbPush s.cfg s.rb (operandFloat w) fb.1, bq := fb.2 })

/-- `s0 + frac*(s1 - s0)` at the effective read position (R103): "Interpolation is always linear". -/
def interpolate (p : Params) (rb : RB) : F32 :=
  let i0 := floorZ rb.modOffset
  let frac := fsub rb.modOffset (i2f i0)
  let s0 := memRead rb.buf (wrap p ((rb.rd : Int) + i0))
  let s1 := memRead rb.buf (wrap p ((rb.rd : Int) + i0 + 1))
  fadd s0 (fmul frac (fsub s1 s0))

/-- `RB_PULL` (R103). -/
def execRbPull (s : State) : Host.Outcome State Fault Refusal :=
  .next (respondFloat (interpolate s.cfg s.rb) { s with rb := { s.rb with rd := wrap s.cfg ((s.rb.rd : Int) + 1) } })

/-- `RB_TAP n` (R104). -/
def execRbTap (w : Word) (s : State) : Host.Outcome State Fault Refusal :=
  .next (if lat s.cfg s.rb ≤ w.toNat then raiseInvalid s
    else respondFloat (memRead s.rb.buf (wrap s.cfg ((s.rb.wr : Int) - (w.toNat : Int)))) s)

/-- R107's operand: NaN taken as +0.0, then clamped to [-1, 1]. -/
def modInput (x : F32) : F32 :=
  let x := if isnan x then .zero else x
  let x := if flt .one x then .one else x
  if flt x .negOne then .negOne else x

/-- `RB_MAPMOD x` (R107). -/
def execRbMapMod (w : Word) (s : State) : Host.Outcome State Fault Refusal :=
  .next (respondOk
    { s with rb := { s.rb with modOffset := fmul s.rb.modRange (modInput (operandFloat w)) } })

/-! ## Setters -/

/-- R105's three checks. -/
def delayAccepted (p : Params) (rb : RB) (n : Word) : Bool :=
  decide (1 ≤ n.toNat) && decide (n.toNat < p.cap) && fle rb.modRange (u2f n.toNat)

/-- `RB_SETDELAY n` (R105). -/
def execRbSetDelay (w : Word) (s : State) : Host.Outcome State Fault Refusal :=
  .next (if delayAccepted s.cfg s.rb w then
      respondOk { s with rb := { s.rb with rd := wrap s.cfg ((s.rb.wr : Int) - (w.toNat : Int)), delay := w } }
    else raiseInvalid s)

/-- R106's clamp of `modOffset` into `[-r, +r]`. -/
def clampOffset (v r : F32) : F32 :=
  let v := if flt r v then r else v
  if flt v (fneg r) then fneg r else v

/-- R106's check: `(0.0 <= r) and (r <= u2f(Lat()))`. -/
def modRangeAccepted (p : Params) (rb : RB) (r : F32) : Bool := fle .zero r && fle r (u2f (lat p rb))

/-- RB with a new `modRange` and `modOffset` clamped to it (R106). -/
def rbSetRange (rb : RB) (r : F32) : RB := { rb with modRange := r, modOffset := clampOffset rb.modOffset r }

/-- `RB_SETMODRANGE r` (R106): the one command whose rejection changes state. -/
def execRbSetModRange (w : Word) (s : State) : Host.Outcome State Fault Refusal :=
  .next (if modRangeAccepted s.cfg s.rb (operandFloat w) then
      respondOk { s with rb := rbSetRange s.rb (operandFloat w) }
    else raiseInvalid { s with rb := rbSetRange s.rb .zero })

/-- `RB_SETFBGAIN g` (R108). -/
def execRbSetFbGain (w : Word) (s : State) : Host.Outcome State Fault Refusal :=
  .next (if inUnitInterval (operandFloat w) then
      respondOk { s with rb := { s.rb with fbGain := operandFloat w } }
    else raiseInvalid s)

/-- `RB_ADDFB k` (R109). -/
def execRbAddFb (w : Word) (s : State) : Host.Outcome State Fault Refusal :=
  .next (match stageOfSelector w with
    | none => raiseInvalid s
    | some st =>
      if s.cfg.fbMax ≤ s.rb.chain.length then raiseInvalid s
      else respondOk { s with rb := { s.rb with chain := s.rb.chain ++ [st] } })

/-! ## Getters -/

/-- `RB_GETLAT` (R110). -/
def execRbGetLat (s : State) : Host.Outcome State Fault Refusal :=
  .next (respondWord (BitVec.ofNat 32 (lat s.cfg s.rb)) s)

/-- `RB_GETMAXLAT` (R111). -/
def execRbGetMaxLat (s : State) : Host.Outcome State Fault Refusal :=
  .next (respondFloat (fadd (u2f (lat s.cfg s.rb)) s.rb.modRange) s)

end Sys2Proof.Machine
end

