-- ==== Sys2Proof/Machine/Dispatch.lean ====
section
/-! DEFINITION. Which meaning each command has: one arm per constructor of `Instr`. -/

namespace Sys2Proof.Machine

def exec (i : Instr) (s : State) : Host.Outcome State Fault Refusal :=
  match i with
  -- RB
  | .rbPush w => Sys2Proof.Machine.execRbPush w s
  | .rbPull => Sys2Proof.Machine.execRbPull s
  | .rbTap w => Sys2Proof.Machine.execRbTap w s
  | .rbSetDelay w => Sys2Proof.Machine.execRbSetDelay w s
  | .rbSetModRange w => Sys2Proof.Machine.execRbSetModRange w s
  | .rbMapMod w => Sys2Proof.Machine.execRbMapMod w s
  | .rbSetFbGain w => Sys2Proof.Machine.execRbSetFbGain w s
  | .rbAddFb w => Sys2Proof.Machine.execRbAddFb w s
  | .rbGetLat => Sys2Proof.Machine.execRbGetLat s
  | .rbGetMaxLat => Sys2Proof.Machine.execRbGetMaxLat s
  -- BQ
  | .bqProc w => Sys2Proof.Machine.execBqProc w s
  | .bqReset => Sys2Proof.Machine.execBqReset s
  | .bqSetKind w => Sys2Proof.Machine.execBqSetKind w s
  | .bqSetFreq w => Sys2Proof.Machine.execBqSetFreq w s
  | .bqSetQ w => Sys2Proof.Machine.execBqSetQ w s
  | .bqSetGain w => Sys2Proof.Machine.execBqSetGain w s
  | .bqSetFs w => Sys2Proof.Machine.execBqSetFs w s
  | .bqSetWet w => Sys2Proof.Machine.execBqSetWet w s
  | .bqSetDry w => Sys2Proof.Machine.execBqSetDry w s
  -- OSC
  | .oscNext => Sys2Proof.Machine.execOscNext s
  | .oscValue => Sys2Proof.Machine.execOscValue s
  | .oscValueP w => Sys2Proof.Machine.execOscValueP w s
  | .oscSetWave w => Sys2Proof.Machine.execOscSetWave w s
  | .oscSetFreq w => Sys2Proof.Machine.execOscSetFreq w s
  | .oscSetFs w => Sys2Proof.Machine.execOscSetFs w s
  | .oscSetPhase w => Sys2Proof.Machine.execOscSetPhase w s
  | .oscSetMin w => Sys2Proof.Machine.execOscSetMin w s
  | .oscSetMax w => Sys2Proof.Machine.execOscSetMax w s

end Sys2Proof.Machine
end

