-- ==== Sys2Proof/Machine/Step.lean ====
section
/-! DEFINITION. One step (rules R17, R70, R85, R212, R215, R240): what the host presents next, decoded and executed. -/

namespace Sys2Proof.Machine

/-- One step. A legal command runs, an illegal word is answered IllegalCommand, the reset input resets the block, and
while the host presents nothing the block waits: "State changes only as the effect of a command or of reset" (R215). -/
def step (s : State) : Host.Outcome State Fault Refusal :=
  match s.input with
  | [] => .next s
  | .reset :: rest => .next (resetBlock { s with input := rest })
  | .command c :: rest =>
    match decode c with
    | .ok i => exec i { s with input := rest }
    | .error _ => .next (raiseIllegal { s with input := rest })

/-- `s` with one command word presented first, so that the next step runs it. -/
def State.withFetchWord (s : State) (nbits w : Nat) : State :=
  { s with input := .command (BitVec.ofNat 40 (w % 2 ^ nbits)) :: s.input }

end Sys2Proof.Machine
end

