-- ==== Sys2Proof/Machine/Assembler.lean ====
section
/-! DEFINITION. The assembler notation of rule R90, from tokens to command words: what a mnemonic and its operand literal
mean. (Splitting a line of text into its tokens, and dropping a `;` comment, is not part of it.) -/

namespace Sys2Proof.Machine

/-- An operand token (R90). -/
inductive AsmOperand where
  /-- A decimal literal `digits / 10^places` with a sign. -/
  | decimal (neg : Bool) (digits places : Nat)
  /-- `f:0x…`, the bits of an F32. -/
  | pattern (w : Word)
  /-- `nan` -/
  | nan
  /-- `inf` or `-inf` -/
  | inf (neg : Bool)
  /-- A decimal or `0x` integer. -/
  | integer (n : Nat)
  /-- A symbolic name. -/
  | name (s : String)
  deriving DecidableEq, Repr

/-- The mnemonics of R84. -/
def mnemonicOpcode (m : String) : Option (BitVec 8) :=
  match m with
  | "RB_PUSH" => some 0x10
  | "RB_PULL" => some 0x11
  | "RB_TAP" => some 0x12
  | "RB_SETDELAY" => some 0x13
  | "RB_SETMODRANGE" => some 0x14
  | "RB_MAPMOD" => some 0x15
  | "RB_SETFBGAIN" => some 0x16
  | "RB_ADDFB" => some 0x17
  | "RB_GETLAT" => some 0x18
  | "RB_GETMAXLAT" => some 0x19
  | "BQ_PROC" => some 0x20
  | "BQ_RESET" => some 0x21
  | "BQ_SETKIND" => some 0x22
  | "BQ_SETFREQ" => some 0x23
  | "BQ_SETQ" => some 0x24
  | "BQ_SETGAIN" => some 0x25
  | "BQ_SETFS" => some 0x26
  | "BQ_SETWET" => some 0x27
  | "BQ_SETDRY" => some 0x28
  | "OSC_NEXT" => some 0x30
  | "OSC_VALUE" => some 0x31
  | "OSC_VALUEP" => some 0x32
  | "OSC_SETWAVE" => some 0x33
  | "OSC_SETFREQ" => some 0x34
  | "OSC_SETFS" => some 0x35
  | "OSC_SETPHASE" => some 0x36
  | "OSC_SETMIN" => some 0x37
  | "OSC_SETMAX" => some 0x38
  | _ => none

/-- The symbolic names, each for its own command (R89, R90). -/
def symbolCode (m s : String) : Option Word :=
  match m, s with
  | "BQ_SETKIND", "LowPass" => some 0
  | "BQ_SETKIND", "HighPass" => some 1
  | "BQ_SETKIND", "BandPass" => some 2
  | "BQ_SETKIND", "Notch" => some 3
  | "BQ_SETKIND", "LowShelf" => some 4
  | "BQ_SETKIND", "HighShelf" => some 5
  | "BQ_SETKIND", "Peaking" => some 6
  | "OSC_SETWAVE", "sine" => some 0
  | "OSC_SETWAVE", "triangle" => some 1
  | "OSC_SETWAVE", "square" => some 2
  | "OSC_SETWAVE", "saw" => some 3
  | "OSC_SETWAVE", "random" => some 4
  | "RB_ADDFB", "BIQUAD" => some 1
  | _, _ => none

/-- A format F operand: a decimal literal is "the binary32 nearest to it, ties to even". -/
def floatLiteral : AsmOperand → Option Word
  | .decimal neg digits places => some (F32.toBits (roundF neg (digits * 2 ^ 149) (10 ^ places)))
  | .integer n => some (F32.toBits (roundF false (n * 2 ^ 149) 1))
  | .pattern w => some w
  | .nan => some (F32.toBits .nan)
  | .inf neg => some (F32.toBits (.num neg ⟨infMag, by decide⟩))
  | .name _ => none

/-- A format U operand: an integer that fits in 32 bits, or a symbolic name. -/
def intLiteral (m : String) : AsmOperand → Option Word
  | .integer n => if n < 2 ^ 32 then some (BitVec.ofNat 32 n) else none
  | .name s => symbolCode m s
  | .decimal _ _ _ => none
  | .pattern _ => none
  | .nan => none
  | .inf _ => none

/-- One command of a line: the mnemonic, and "for formats F and U one operand". -/
def assemble (m : String) (o : Option AsmOperand) : Option CommandWord :=
  match mnemonicOpcode m with
  | none => none
  | some op =>
    match opcodeFormat op, o with
    | some .none, none => some (commandWord op 0)
    | some .float, some a => (floatLiteral a).map (commandWord op)
    | some .int, some a => (intLiteral m a).map (commandWord op)
    | _, _ => none

/-- How a status is written (R90). -/
def statusName : Status → String
  | .ok => "OK"
  | .invalidParameter => "InvalidParameter"
  | .illegalCommand => "IllegalCommand"

end Sys2Proof.Machine
end

