-- ==== Sys2Proof/Machine/Composite.lean ====
section
/-! DEFINITION. The four composite effects as HOST command sequences (spec/43_composite_sequences.md, rule R7), and the
command sequences of rules R113, R188 and R206: commands of the block, and binary32 arithmetic the host does itself. The
scalar gains and `filtered_prev` are host variables, "not registers of the block" (R200), so they are arguments and
results here and no part of State. -/

namespace Sys2Proof.Machine

/-- The state after the host issues one command. -/
def issue (i : Instr) (s : State) : State :=
  match exec i s with
  | .next t => t
  | .fault _ => s
  | .refused _ => s

/-- `val(C)` of R200: the value of the last response, read as F32. -/
def lastValue (s : State) : F32 :=
  match s.responses.getLast? with
  | some r => valueFloat r.value
  | none => .nan

/-- `RB_PUSH v` for an F32 the host computed. -/
def issuePush (v : F32) (s : State) : State := issue (.rbPush (F32.toBits v)) s

/-- `ALLPASS x` (R201): the output, and the state after. -/
def allpass (gFb gFf x : F32) (s : State) : F32 × State :=
  let s1 := issue .rbPull s
  let delayed := lastValue s1
  (fadd delayed (fmul gFf x), issuePush (fadd x (fmul gFb delayed)) s1)

/-- `FBCOMB x` (R202). -/
def fbComb (gFb x : F32) (s : State) : F32 × State :=
  let s1 := issue .rbPull s
  let out := fadd x (fmul gFb (lastValue s1))
  (out, issuePush out s1)

/-- `LPFBCOMB x` (R203): the output (the raw pulled sample), the new `filtered_prev`, and the state after. -/
def lpFbComb (damp1 damp2 gF filteredPrev x : F32) (s : State) : F32 × F32 × State :=
  let s1 := issue .rbPull s
  let d := lastValue s1
  let filtered := fadd (fmul damp2 d) (fmul damp1 filteredPrev)
  (d, filtered, issuePush (fadd x (fmul gF filtered)) s1)

/-- The host's `filtered_prev` before the first sample: "initially +0.0" (R203). -/
def filteredPrevInit : F32 := .zero

/-- `LPFBCOMB` on a list of inputs from a given `filtered_prev`, each sample's new one handed to the next (R203): the
outputs, the last `filtered_prev`, and the state after. -/
def lpFbCombFrom (damp1 damp2 gF : F32) : F32 → List F32 → State → List F32 × F32 × State
  | prev, [], s => ([], prev, s)
  | prev, x :: xs, s =>
    let r := lpFbComb damp1 damp2 gF prev x s
    let rest := lpFbCombFrom damp1 damp2 gF r.2.1 xs r.2.2
    (r.1 :: rest.1, rest.2)

/-- A run of `LPFBCOMB` from the host's initial `filtered_prev` (R203). -/
def lpFbCombRun (damp1 damp2 gF : F32) (xs : List F32) (s : State) : List F32 × F32 × State :=
  lpFbCombFrom damp1 damp2 gF filteredPrevInit xs s

/-- `MODALLPASS x` (R204): the response of `OSC_NEXT` goes to `RB_MAPMOD`, then `ALLPASS x`. -/
def modAllpass (gFb gFf x : F32) (s : State) : F32 × State :=
  let s1 := issue .oscNext s
  allpass gFb gFf x (issue (.rbMapMod (F32.toBits (lastValue s1))) s1)

/-- `FBCOMB` on a list of inputs: the outputs, and the state after (R206). -/
def fbCombRun (gFb : F32) : List F32 → State → List F32 × State
  | [], s => ([], s)
  | x :: xs, s =>
    let r := fbComb gFb x s
    let rest := fbCombRun gFb xs r.2
    (r.1 :: rest.1, rest.2)

/-- Rounds of `RB_PUSH x_k ; RB_PULL`: the pulled values, and the state after (R113(c)). -/
def pushPullRun : List F32 → State → List F32 × State
  | [], s => ([], s)
  | x :: xs, s =>
    let s1 := issue .rbPull (issuePush x s)
    let rest := pushPullRun xs s1
    (lastValue s1 :: rest.1, rest.2)

/-- Rounds of `RB_PULL ; RB_PUSH x_k`, "the two commands of each round swapped" (R113(c)). -/
def pullPushRun : List F32 → State → List F32 × State
  | [], s => ([], s)
  | x :: xs, s =>
    let s1 := issue .rbPull s
    let rest := pullPushRun xs (issuePush x s1)
    (lastValue s1 :: rest.1, rest.2)

/-- The state after pushing a list of samples (R113(d)). -/
def pushRun : List F32 → State → State
  | [], s => s
  | x :: xs, s => pushRun xs (issuePush x s)

/-- The state after `n` commands `OSC_NEXT` (R188). -/
def oscNextRun : Nat → State → State
  | 0, s => s
  | n + 1, s => oscNextRun n (issue .oscNext s)

end Sys2Proof.Machine
end

