-- ==== Sys2Proof/Safety.lean ====
section
/-! DEFINITION. The invariants the spec states of every reachable state (rules R10, R27, R32, R34 to R36, R38, R39, R41 to
R45, R47, R113), the condition under which a pull reads current history only (rule R253), what "round to nearest, ties to
even" means (rule R13), which command writes which field (rule R52), and which operand lies outside its command's domain (rules R147, R211). -/

namespace Sys2Proof.Machine

/-- The invariants of RB: R32(a), R32(b), R27's range, R113(a)'s bound of `modRange`, and the canonical form of the
store. -/
structure RB.Inv (p : Params) (rb : RB) : Prop where
  buf_wf           : Memory.wf p.cap rb.buf = true
  wr_lt            : rb.wr < p.cap
  rd_lt            : rb.rd < p.cap
  delay_pos        : 1 ≤ rb.delay.toNat
  delay_lt         : rb.delay.toNat < p.cap
  modRange_nonneg  : fle .zero rb.modRange = true
  modRange_le      : fle rb.modRange (u2f (p.cap - 1)) = true
  modOffset_lower  : fle (fneg rb.modRange) rb.modOffset = true
  modOffset_upper  : fle rb.modOffset rb.modRange = true
  fbGain_unit      : inUnitInterval rb.fbGain = true
  chain_length     : rb.chain.length ≤ p.fbMax

/-- The coefficients are the reset identity set or `Coef` of the stored parameters (R39). -/
def coefsMatch (b : BQ) : Prop :=
  b.coef = Coefs.identity ∨ b.coef = coefOf machineNum b.kind b.f b.q b.gainDb b.fs

/-- The invariants of BQ: R34, R35, R36, R38, R39. -/
structure BQ.Inv (b : BQ) : Prop where
  params_usable : paramsUsable b.f b.q b.gainDb b.fs = true
  fs_pos        : 1 ≤ b.fs.toNat
  fs_lt         : b.fs.toNat < 2 ^ 31
  coefs_usable  : coefsUsable b.coef = true
  coefs_match   : coefsMatch b
  wet_unit      : inUnitInterval b.wet = true
  dry_unit      : inUnitInterval b.dry = true

/-- The invariants of OSC: R41 to R45, R47(a). -/
structure OSC.Inv (o : OSC) : Prop where
  f_pos       : flt .zero o.f = true
  fs_pos      : 1 ≤ o.fs.toNat
  fs_lt       : o.fs.toNat < 2 ^ 31
  spc_pos     : 1 ≤ o.spc.toNat
  spc_le      : o.spc.toNat ≤ 2 ^ 31
  spc_derived : spcOf o.f o.fs = some o.spc.toNat
  progress_lt : o.progress.toNat < o.spc.toNat
  phase_unit  : inUnitInterval o.phase = true
  min_finite  : isfinite o.min = true
  max_finite  : isfinite o.max = true

/-- Every invariant, over a legal configuration. -/
structure State.Inv (s : State) : Prop where
  cfg_wf : s.cfg.wf = true
  rb     : RB.Inv s.cfg s.rb
  bq     : BQ.Inv s.bq
  osc    : OSC.Inv s.osc

/-- Both slots `RB_PULL` reads are among the last `Lat()` pushed samples: `wrap(RB.rd + j)` with `j` from 0 to
`Lat() - 1` (R253). -/
def pullReadsHistory (p : Params) (rb : RB) : Prop :=
  0 ≤ floorZ rb.modOffset ∧ floorZ rb.modOffset + 1 ≤ (lat p rb : Int) - 1

/-! ## The rounding of an exact result (R13) -/

/-- `b` is bits 30:0 of the binary32 magnitude nearest to `n / d` units of 2^-149, "round to nearest, ties to even": any
other magnitude is farther from the ratio, or as far where `b` is even (bit 0 of the pattern is bit 0 of the significand).
The infinity stands at 2^128, so that it is the nearest from half an ulp above the largest finite value on. -/
def IsNearestEven (n d b : Nat) : Prop :=
  b ≤ infMag ∧ ∀ c, c ≤ infMag → c ≠ b →
    |(n : Int) - units b * d| < |(n : Int) - units c * d| ∨
    (|(n : Int) - units b * d| = |(n : Int) - units c * d| ∧ b % 2 = 0)

/-! ## Which command writes which field (R52) -/

/-- `t.bq` is `s.bq` but for the four delay registers. -/
def bqWritesDelays (s t : State) : Prop :=
  t.bq = { s.bq with x1 := t.bq.x1, x2 := t.bq.x2, y1 := t.bq.y1, y2 := t.bq.y2 }

/-- The row of R52's table for a command: between `s` and `t` no field outside the row's "writes" changed. Of `RB.buf` only
the word at `RB.wr` may change, and only in `RB_PUSH`; the BQ delay registers change there only with a stage in the chain. -/
def writesOnly (i : Instr) (s t : State) : Prop :=
  match i with
  | .rbPush _ =>
    (∀ a, a ≠ s.rb.wr → memRead t.rb.buf a = memRead s.rb.buf a) ∧
      t.rb = { s.rb with buf := t.rb.buf, wr := t.rb.wr } ∧
      bqWritesDelays s t ∧ (s.rb.chain = [] → t.bq = s.bq) ∧ t.osc = s.osc
  | .rbPull => t.rb = { s.rb with rd := t.rb.rd } ∧ t.bq = s.bq ∧ t.osc = s.osc
  | .rbTap _ => t.rb = s.rb ∧ t.bq = s.bq ∧ t.osc = s.osc
  | .rbSetDelay _ => t.rb = { s.rb with rd := t.rb.rd, delay := t.rb.delay } ∧ t.bq = s.bq ∧ t.osc = s.osc
  | .rbSetModRange _ =>
    t.rb = { s.rb with modRange := t.rb.modRange, modOffset := t.rb.modOffset } ∧ t.bq = s.bq ∧ t.osc = s.osc
  | .rbMapMod _ => t.rb = { s.rb with modOffset := t.rb.modOffset } ∧ t.bq = s.bq ∧ t.osc = s.osc
  | .rbSetFbGain _ => t.rb = { s.rb with fbGain := t.rb.fbGain } ∧ t.bq = s.bq ∧ t.osc = s.osc
  | .rbAddFb _ => t.rb = { s.rb with chain := t.rb.chain } ∧ t.bq = s.bq ∧ t.osc = s.osc
  | .rbGetLat => t.rb = s.rb ∧ t.bq = s.bq ∧ t.osc = s.osc
  | .rbGetMaxLat => t.rb = s.rb ∧ t.bq = s.bq ∧ t.osc = s.osc
  | .bqProc _ => t.rb = s.rb ∧ bqWritesDelays s t ∧ t.osc = s.osc
  | .bqReset => t.rb = s.rb ∧ bqWritesDelays s t ∧ t.osc = s.osc
  | .bqSetKind _ =>
    t.rb = s.rb ∧ t.osc = s.osc ∧
      t.bq = { s.bq with kind := t.bq.kind, coef := t.bq.coef,
                         x1 := t.bq.x1, x2 := t.bq.x2, y1 := t.bq.y1, y2 := t.bq.y2 }
  | .bqSetFreq _ => t.rb = s.rb ∧ t.bq = { s.bq with f := t.bq.f, coef := t.bq.coef } ∧ t.osc = s.osc
  | .bqSetQ _ => t.rb = s.rb ∧ t.bq = { s.bq with q := t.bq.q, coef := t.bq.coef } ∧ t.osc = s.osc
  | .bqSetGain _ => t.rb = s.rb ∧ t.bq = { s.bq with gainDb := t.bq.gainDb, coef := t.bq.coef } ∧ t.osc = s.osc
  | .bqSetFs _ => t.rb = s.rb ∧ t.bq = { s.bq with fs := t.bq.fs, coef := t.bq.coef } ∧ t.osc = s.osc
  | .bqSetWet _ => t.rb = s.rb ∧ t.bq = { s.bq with wet := t.bq.wet } ∧ t.osc = s.osc
  | .bqSetDry _ => t.rb = s.rb ∧ t.bq = { s.bq with dry := t.bq.dry } ∧ t.osc = s.osc
  | .oscNext =>
    t.rb = s.rb ∧ t.bq = s.bq ∧ t.osc = { s.osc with progress := t.osc.progress, rng := t.osc.rng } ∧
      (t.osc.progress ≠ 0 → t.osc.rng = s.osc.rng)
  | .oscValue => t.rb = s.rb ∧ t.bq = s.bq ∧ t.osc = s.osc
  | .oscValueP _ => t.rb = s.rb ∧ t.bq = s.bq ∧ t.osc = s.osc
  | .oscSetWave _ => t.rb = s.rb ∧ t.bq = s.bq ∧ t.osc = { s.osc with wave := t.osc.wave }
  | .oscSetFreq _ =>
    t.rb = s.rb ∧ t.bq = s.bq ∧ t.osc = { s.osc with f := t.osc.f, spc := t.osc.spc, progress := t.osc.progress }
  | .oscSetFs _ =>
    t.rb = s.rb ∧ t.bq = s.bq ∧ t.osc = { s.osc with fs := t.osc.fs, spc := t.osc.spc, progress := t.osc.progress }
  | .oscSetPhase _ => t.rb = s.rb ∧ t.bq = s.bq ∧ t.osc = { s.osc with phase := t.osc.phase }
  | .oscSetMin _ => t.rb = s.rb ∧ t.bq = s.bq ∧ t.osc = { s.osc with min := t.osc.min }
  | .oscSetMax _ => t.rb = s.rb ∧ t.bq = s.bq ∧ t.osc = { s.osc with max := t.osc.max }

/-! ## Operands outside their domain (R147, R211) -/

/-- R147: a candidate tuple that `BqCommit` accepts, check by check. -/
structure Committable (kind : Kind) (f q g : F32) (fs : Word) : Prop where
  f_pos     : flt .zero f = true
  f_nyquist : flt f (fdiv (u2f fs.toNat) .two) = true
  q_pos     : flt .zero q = true
  g_finite  : isfinite g = true
  b0_finite : isfinite (coefOf machineNum kind f q g fs).b0 = true
  b1_finite : isfinite (coefOf machineNum kind f q g fs).b1 = true
  b2_finite : isfinite (coefOf machineNum kind f q g fs).b2 = true
  a0_finite : isfinite (coefOf machineNum kind f q g fs).a0 = true
  a1_finite : isfinite (coefOf machineNum kind f q g fs).a1 = true
  a2_finite : isfinite (coefOf machineNum kind f q g fs).a2 = true
  a0_ne     : feq (coefOf machineNum kind f q g fs).a0 .zero = false

/-- A gain, a mix level or a phase outside [0, 1]: "NaN, `< 0` or `> 1`" (R211). -/
def outsideUnit (v : F32) : Prop := v = .nan ∨ flt v .zero = true ∨ flt .one v = true

/-- R211's table: the condition under which a command responds InvalidParameter. -/
def outsideDomain (i : Instr) (s : State) : Prop :=
  match i with
  | .rbPush _ => False
  | .rbPull => False
  | .rbTap n => lat s.cfg s.rb ≤ n.toNat
  | .rbSetDelay n => n.toNat < 1 ∨ s.cfg.cap ≤ n.toNat ∨ ¬ fle s.rb.modRange (u2f n.toNat) = true
  | .rbSetModRange r =>
    F32.ofBits r = .nan ∨ flt (F32.ofBits r) .zero = true ∨ flt (u2f (lat s.cfg s.rb)) (F32.ofBits r) = true
  | .rbMapMod _ => False
  | .rbSetFbGain g => outsideUnit (F32.ofBits g)
  | .rbAddFb k => k ≠ 1 ∨ s.cfg.fbMax ≤ s.rb.chain.length
  | .rbGetLat => False
  | .rbGetMaxLat => False
  | .bqProc _ => False
  | .bqReset => False
  | .bqSetKind k =>
    6 < k.toNat ∨ ∀ kind, kindOfCode k = some kind → ¬ Committable kind s.bq.f s.bq.q s.bq.gainDb s.bq.fs
  | .bqSetFreq f => ¬ Committable s.bq.kind (F32.ofBits f) s.bq.q s.bq.gainDb s.bq.fs
  | .bqSetQ q => ¬ Committable s.bq.kind s.bq.f (F32.ofBits q) s.bq.gainDb s.bq.fs
  | .bqSetGain g => ¬ Committable s.bq.kind s.bq.f s.bq.q (F32.ofBits g) s.bq.fs
  | .bqSetFs n => n.toInt < 1 ∨ ¬ Committable s.bq.kind s.bq.f s.bq.q s.bq.gainDb n
  | .bqSetWet w => outsideUnit (F32.ofBits w)
  | .bqSetDry d => outsideUnit (F32.ofBits d)
  | .oscNext => False
  | .oscValue => False
  | .oscValueP ph => isfinite (F32.ofBits ph) = false
  | .oscSetWave w => 4 < w.toNat
  | .oscSetFreq f => ¬ flt .zero (F32.ofBits f) = true ∨ spcOf (F32.ofBits f) s.osc.fs = none
  | .oscSetFs n => n.toInt < 1 ∨ spcOf s.osc.f n = none
  | .oscSetPhase ph => outsideUnit (F32.ofBits ph)
  | .oscSetMin m => isfinite (F32.ofBits m) = false
  | .oscSetMax m => isfinite (F32.ofBits m) = false

end Sys2Proof.Machine
end

