-- ==== Sys2Proof/Certificates/Slice0/Obligations.lean ====
section
/-! DEFINITION. The statements for the provers. A command's result is stated as one equation `exec i s = .next t`, with `t`
written as `s` changed in the fields the rule names, so that the equation is the result, the completion and the frame of
the command at once: whatever is not named, every word of the sample store included, is as before. -/

section

open Sys2Proof Sys2Proof.Machine

/-! ## Encoding -/

/-- The decoder reads back every command the encoder writes, with every operand. -/
def Obligations.DecodeOfEncodeIsIdentity : Prop :=
  ∀ i : Instr, decode (encode i) = .ok i

/-- R85: "injective on legal words": a legal word is the encoding of the one command it decodes to, so no bit of it is
dropped and no two legal words are one command. -/
def Obligations.LegalWordsHaveOneMeaning : Prop :=
  (∀ c i, decode c = .ok i → encode i = c) ∧
    ∀ c c' i, decode c = .ok i → decode c' = .ok i → c = c'

/-- R84's table, row by row: a word is a command of format F or U iff its bits under the mask 0xFF00000000 are the row's
match, and then the operand is bits 31:0; it is a command of format N iff it is the row's match (mask 0xFFFFFFFFFF). -/
def Obligations.OpcodeTableDecodesEachCommand : Prop :=
  ∀ (c : CommandWord) (w : Word),
    (decode c = .ok (.rbPush w) ↔ c &&& 0xFF00000000 = 0x1000000000 ∧ c.extractLsb' 0 32 = w) ∧
    (decode c = .ok .rbPull ↔ c &&& 0xFFFFFFFFFF = 0x1100000000) ∧
    (decode c = .ok (.rbTap w) ↔ c &&& 0xFF00000000 = 0x1200000000 ∧ c.extractLsb' 0 32 = w) ∧
    (decode c = .ok (.rbSetDelay w) ↔ c &&& 0xFF00000000 = 0x1300000000 ∧ c.extractLsb' 0 32 = w) ∧
    (decode c = .ok (.rbSetModRange w) ↔ c &&& 0xFF00000000 = 0x1400000000 ∧ c.extractLsb' 0 32 = w) ∧
    (decode c = .ok (.rbMapMod w) ↔ c &&& 0xFF00000000 = 0x1500000000 ∧ c.extractLsb' 0 32 = w) ∧
    (decode c = .ok (.rbSetFbGain w) ↔ c &&& 0xFF00000000 = 0x1600000000 ∧ c.extractLsb' 0 32 = w) ∧
    (decode c = .ok (.rbAddFb w) ↔ c &&& 0xFF00000000 = 0x1700000000 ∧ c.extractLsb' 0 32 = w) ∧
    (decode c = .ok .rbGetLat ↔ c &&& 0xFFFFFFFFFF = 0x1800000000) ∧
    (decode c = .ok .rbGetMaxLat ↔ c &&& 0xFFFFFFFFFF = 0x1900000000) ∧
    (decode c = .ok (.bqProc w) ↔ c &&& 0xFF00000000 = 0x2000000000 ∧ c.extractLsb' 0 32 = w) ∧
    (decode c = .ok .bqReset ↔ c &&& 0xFFFFFFFFFF = 0x2100000000) ∧
    (decode c = .ok (.bqSetKind w) ↔ c &&& 0xFF00000000 = 0x2200000000 ∧ c.extractLsb' 0 32 = w) ∧
    (decode c = .ok (.bqSetFreq w) ↔ c &&& 0xFF00000000 = 0x2300000000 ∧ c.extractLsb' 0 32 = w) ∧
    (decode c = .ok (.bqSetQ w) ↔ c &&& 0xFF00000000 = 0x2400000000 ∧ c.extractLsb' 0 32 = w) ∧
    (decode c = .ok (.bqSetGain w) ↔ c &&& 0xFF00000000 = 0x2500000000 ∧ c.extractLsb' 0 32 = w) ∧
    (decode c = .ok (.bqSetFs w) ↔ c &&& 0xFF00000000 = 0x2600000000 ∧ c.extractLsb' 0 32 = w) ∧
    (decode c = .ok (.bqSetWet w) ↔ c &&& 0xFF00000000 = 0x2700000000 ∧ c.extractLsb' 0 32 = w) ∧
    (decode c = .ok (.bqSetDry w) ↔ c &&& 0xFF00000000 = 0x2800000000 ∧ c.extractLsb' 0 32 = w) ∧
    (decode c = .ok .oscNext ↔ c &&& 0xFFFFFFFFFF = 0x3000000000) ∧
    (decode c = .ok .oscValue ↔ c &&& 0xFFFFFFFFFF = 0x3100000000) ∧
    (decode c = .ok (.oscValueP w) ↔ c &&& 0xFF00000000 = 0x3200000000 ∧ c.extractLsb' 0 32 = w) ∧
    (decode c = .ok (.oscSetWave w) ↔ c &&& 0xFF00000000 = 0x3300000000 ∧ c.extractLsb' 0 32 = w) ∧
    (decode c = .ok (.oscSetFreq w) ↔ c &&& 0xFF00000000 = 0x3400000000 ∧ c.extractLsb' 0 32 = w) ∧
    (decode c = .ok (.oscSetFs w) ↔ c &&& 0xFF00000000 = 0x3500000000 ∧ c.extractLsb' 0 32 = w) ∧
    (decode c = .ok (.oscSetPhase w) ↔ c &&& 0xFF00000000 = 0x3600000000 ∧ c.extractLsb' 0 32 = w) ∧
    (decode c = .ok (.oscSetMin w) ↔ c &&& 0xFF00000000 = 0x3700000000 ∧ c.extractLsb' 0 32 = w) ∧
    (decode c = .ok (.oscSetMax w) ↔ c &&& 0xFF00000000 = 0x3800000000 ∧ c.extractLsb' 0 32 = w)

/-- R86: the illegal words are those whose opcode lies in 0x00 to 0x0F, 0x1A to 0x1F, 0x29 to 0x2F or 0x39 to 0xFF, and
those of the six format N opcodes with a non-zero operand; the next step answers each with IllegalCommand, value 0, and
changes nothing else of the block. -/
def Obligations.IllegalWordsAreRejectedUnchanged : Prop :=
  (∀ c : CommandWord,
    let op := (c.extractLsb' 32 8).toNat
    let arg := c.extractLsb' 0 32
    (decode c = .error .opcodeNotDefined ↔
      op ≤ 0x0F ∨ (0x1A ≤ op ∧ op ≤ 0x1F) ∨ (0x29 ≤ op ∧ op ≤ 0x2F) ∨ 0x39 ≤ op) ∧
    (decode c = .error .operandNotZero ↔ op ∈ [0x11, 0x18, 0x19, 0x21, 0x30, 0x31] ∧ arg ≠ 0)) ∧
  ∀ (s : State) (c : CommandWord) (rest : List PortInput) (e : IllegalWord),
    s.input = .command c :: rest → decode c = .error e →
      step s = .next (respond .illegalCommand (.bits 0) { s with input := rest })

/-- Words written out bit by bit from R80 and R84 (and R90's own example) decode to the commands they stand for. -/
def Obligations.SpecWordsDecodeAsWritten : Prop :=
  decode 0b0001000000111111100000000000000000000000#40 = .ok (.rbPush 0x3F800000) ∧
  decode 0b0001000100000000000000000000000000000000#40 = .ok .rbPull ∧
  decode 0b0001001000000000000000000000000000000011#40 = .ok (.rbTap 3) ∧
  decode 0b0010000000111111000000000000000000000000#40 = .ok (.bqProc 0x3F000000) ∧
  decode 0b0010001000000000000000000000000000000001#40 = .ok (.bqSetKind 1) ∧
  decode 0b0011001000111111010000000000000000000000#40 = .ok (.oscValueP 0x3F400000) ∧
  decode 0b0011010100000000000000000000000000001000#40 = .ok (.oscSetFs 8)

/-- R90, with the opcodes of R84 and the codes of R89: the word the assembler notation gives, mnemonic by mnemonic and operand
token by operand token. Format N takes no operand. A format F operand is a bit pattern, a decimal literal (of a sign and
`digits / 10^places`, or an integer) as the binary32 nearest to it with ties to even, `inf`, `-inf`, or `nan`, whose pattern
0x7FC00000 is the model's choice (log entry 11). A format U operand is an integer below 2^32, or one of the thirteen names with
its own command; that an integer of 2^32 or more, a name with another command, a missing operand or one of the other
format has no word is the model's reading (log entry 12). No other mnemonic has a word, and every word is a legal one. -/
def Obligations.AssembledWordsAreLegal : Prop :=
  let formatN : List (String × BitVec 8) := [("RB_PULL", 0x11), ("RB_GETLAT", 0x18), ("RB_GETMAXLAT", 0x19),
    ("BQ_RESET", 0x21), ("OSC_NEXT", 0x30), ("OSC_VALUE", 0x31)]
  let formatF : List (String × BitVec 8) := [("RB_PUSH", 0x10), ("RB_SETMODRANGE", 0x14), ("RB_MAPMOD", 0x15),
    ("RB_SETFBGAIN", 0x16), ("BQ_PROC", 0x20), ("BQ_SETFREQ", 0x23), ("BQ_SETQ", 0x24), ("BQ_SETGAIN", 0x25),
    ("BQ_SETWET", 0x27), ("BQ_SETDRY", 0x28), ("OSC_VALUEP", 0x32), ("OSC_SETFREQ", 0x34), ("OSC_SETPHASE", 0x36),
    ("OSC_SETMIN", 0x37), ("OSC_SETMAX", 0x38)]
  let formatU : List (String × BitVec 8) := [("RB_TAP", 0x12), ("RB_SETDELAY", 0x13), ("RB_ADDFB", 0x17),
    ("BQ_SETKIND", 0x22), ("BQ_SETFS", 0x26), ("OSC_SETWAVE", 0x33), ("OSC_SETFS", 0x35)]
  let names : List (String × String × CommandWord) := [("BQ_SETKIND", "LowPass", 0x2200000000),
    ("BQ_SETKIND", "HighPass", 0x2200000001), ("BQ_SETKIND", "BandPass", 0x2200000002),
    ("BQ_SETKIND", "Notch", 0x2200000003), ("BQ_SETKIND", "LowShelf", 0x2200000004),
    ("BQ_SETKIND", "HighShelf", 0x2200000005), ("BQ_SETKIND", "Peaking", 0x2200000006),
    ("OSC_SETWAVE", "sine", 0x3300000000), ("OSC_SETWAVE", "triangle", 0x3300000001),
    ("OSC_SETWAVE", "square", 0x3300000002), ("OSC_SETWAVE", "saw", 0x3300000003),
    ("OSC_SETWAVE", "random", 0x3300000004), ("RB_ADDFB", "BIQUAD", 0x1700000001)]
  (∀ m op, (m, op) ∈ formatN →
    assemble m none = some (commandWord op 0) ∧ ∀ o, assemble m (some o) = none) ∧
  (∀ m op, (m, op) ∈ formatF →
    assemble m none = none ∧
    (∀ w, assemble m (some (.pattern w)) = some (commandWord op w)) ∧
    (∀ neg digits places, ∃ (b : Nat) (w : Word), assemble m (some (.decimal neg digits places)) = some (commandWord op w) ∧
      w.toNat = b + (if neg then 2 ^ 31 else 0) ∧ IsNearestEven (digits * 2 ^ 149) (10 ^ places) b) ∧
    (∀ n, ∃ w : Word, assemble m (some (.integer n)) = some (commandWord op w) ∧ IsNearestEven (n * 2 ^ 149) 1 w.toNat) ∧
    assemble m (some .nan) = some (commandWord op 0x7FC00000) ∧
    assemble m (some (.inf false)) = some (commandWord op 0x7F800000) ∧
    assemble m (some (.inf true)) = some (commandWord op 0xFF800000)) ∧
  (∀ m op, (m, op) ∈ formatU →
    assemble m none = none ∧
    (∀ n : Nat, n < 2 ^ 32 → assemble m (some (.integer n)) = some (commandWord op (BitVec.ofNat 32 n))) ∧
    (∀ n : Nat, 2 ^ 32 ≤ n → assemble m (some (.integer n)) = none) ∧
    (∀ neg digits places, assemble m (some (.decimal neg digits places)) = none) ∧
    (∀ w, assemble m (some (.pattern w)) = none) ∧ assemble m (some .nan) = none ∧
    ∀ neg, assemble m (some (.inf neg)) = none) ∧
  (∀ m s c, assemble m (some (.name s)) = some c ↔ (m, s, c) ∈ names) ∧
  ∀ m o c, assemble m o = some c → (∃ op, (m, op) ∈ formatN ++ formatF ++ formatU) ∧ ∃ i, decode c = .ok i

/-! ## The step, the responses, reset -/

/-- The next step runs the command the presented word decodes to, once the word is taken from the port. -/
def Obligations.StepRunsTheDecodedCommand : Prop :=
  ∀ (s : State) (c : CommandWord) (rest : List PortInput) (i : Instr),
    s.input = .command c :: rest → decode c = .ok i → step s = exec i { s with input := rest }

/-- With nothing presented the block waits (the model's choice, log entry 2, after R215 and R242); the reset input gives every
field of the block its reset value and is answered by nothing (R240, R241). -/
def Obligations.EmptyPortWaitsAndResetInputResets : Prop :=
  ∀ s : State,
    (s.input = [] → step s = .next s) ∧
    ∀ rest, s.input = .reset :: rest →
      step s = .next { State.resetWith s.cfg with input := rest, responses := s.responses }

/-- R17: the step function is total, and it answers a next state on every state, whatever is presented. -/
def Obligations.StepIsTotal : Prop :=
  ∀ s : State, ∃ t, step s = .next t ∧ t.cfg = s.cfg ∧ t.input = s.input.tail

/-- R210: every command ends with exactly one response, after the responses given before; its status code is 0, 1 or 3, and 3
only from decoding; a status that is not OK has the value 0. -/
def Obligations.EveryCommandGivesOneResponse : Prop :=
  (∀ (i : Instr) (s : State), ∃ t r, exec i s = .next t ∧ t.responses = s.responses ++ [r] ∧
      t.cfg = s.cfg ∧ t.input = s.input ∧
      (statusCode r.status = 0 ∨ statusCode r.status = 1) ∧ (r.status ≠ .ok → r.value = .bits 0)) ∧
    ∀ (s : State) (c : CommandWord) (rest : List PortInput), s.input = .command c :: rest →
      ∃ t r, step s = .next t ∧ t.responses = s.responses ++ [r] ∧
        (statusCode r.status = 0 ∨ statusCode r.status = 1 ∨ statusCode r.status = 3) ∧
        (r.status ≠ .ok → r.value = .bits 0)

/-- R83: the response word has the status code in bits 33:32 and the value in bits 31:0; for a NaN result the value is the bits
of some NaN (R13: sign and payload open). -/
def Obligations.ResponseWordHoldsStatusAndValue : Prop :=
  ∀ (n : Nat) (st : Status) (v : F32) (w : Word),
    (responseWord n { status := st, value := .bits w }).extractLsb' 32 2 = statusCode st ∧
    (responseWord n { status := st, value := .bits w }).extractLsb' 0 32 = w ∧
    (responseWord n { status := st, value := floatValue v }).extractLsb' 32 2 = statusCode st ∧
    F32.ofBits ((responseWord n { status := st, value := floatValue v }).extractLsb' 0 32) = v

/-- R53, R241: the reset value of every field, in any configuration. Two clauses are the model's choice: that `State.reset` is the
reset state of the default column of R10 (log entry 6), and that at reset nothing is presented and no response was given
(log entry 2). -/
def Obligations.ResetGivesEveryFieldItsValue : Prop :=
  State.reset = State.resetWith { log2cap := 3, initDelay := 1, fbMax := 4, fsReset := 48000 } ∧
  ∀ p : Params,
    let s := State.resetWith p
    s.cfg = p ∧ s.input = [] ∧ s.responses = [] ∧
    (∀ a, memRead s.rb.buf a = .num false ⟨0, by decide⟩) ∧
    s.rb = { buf := s.rb.buf, wr := 0, rd := 2 ^ p.log2cap - p.initDelay, delay := BitVec.ofNat 32 p.initDelay,
             modRange := .num false ⟨0, by decide⟩, modOffset := .num false ⟨0, by decide⟩,
             fbGain := .num false ⟨0, by decide⟩, chain := [] } ∧
    s.bq = { kind := .lowPass, f := fdiv (u2f p.fsReset) .four, q := .num false ⟨0x3F800000, by decide⟩,
             gainDb := .num false ⟨0, by decide⟩, fs := BitVec.ofNat 32 p.fsReset,
             coef := { b0 := .num false ⟨0x3F800000, by decide⟩, b1 := .num false ⟨0, by decide⟩,
                       b2 := .num false ⟨0, by decide⟩, a0 := .num false ⟨0x3F800000, by decide⟩,
                       a1 := .num false ⟨0, by decide⟩, a2 := .num false ⟨0, by decide⟩ },
             x1 := .num false ⟨0, by decide⟩, x2 := .num false ⟨0, by decide⟩,
             y1 := .num false ⟨0, by decide⟩, y2 := .num false ⟨0, by decide⟩,
             wet := .num false ⟨0x3F800000, by decide⟩, dry := .num false ⟨0, by decide⟩ } ∧
    s.osc = { wave := .sine, f := .num false ⟨0x3F800000, by decide⟩, fs := BitVec.ofNat 32 p.fsReset,
              spc := BitVec.ofNat 32 p.fsReset, progress := 0, phase := .num false ⟨0, by decide⟩,
              min := .num false ⟨0, by decide⟩, max := .num false ⟨0x3F800000, by decide⟩, rng := 0 }

/-- Every invariant holds after reset, in every legal configuration (R241: "the least state satisfying every invariant"). -/
def Obligations.ResetMeetsTheInvariants : Prop :=
  State.Inv State.reset ∧ ∀ p : Params, p.wf = true → State.Inv (State.resetWith p)

/-- From every state that meets the invariants of R27, R32(a)(b), R34 to R36, R38, R39, R41 to R45 and R47(a), every step, of
any command, any illegal word, the reset input or none, leads to a state that meets them. -/
def Obligations.StepKeepsTheInvariants : Prop :=
  ∀ s t : State, State.Inv s → step s = .next t → State.Inv t

/-! ## RB -/

/-- R102: the word at the write head becomes the operand plus the feedback, read before the write (R66); every other word is as
before; the write head advances by one modulo CAP; BQ is as the feedback's stages left it. -/
def Obligations.PushStoresOperandPlusFeedback : Prop :=
  ∀ (w : Word) (s : State), Memory.wf s.cfg.cap s.rb.buf = true →
    encode (.rbPush w) = commandWord 0x10 w ∧
    ∃ t, exec (.rbPush w) s = .next t ∧
      memRead t.rb.buf s.rb.wr = fadd (F32.ofBits w) (feedback s.rb s.bq s.rb.rd).1 ∧
      (∀ a, a ≠ s.rb.wr → memRead t.rb.buf a = memRead s.rb.buf a) ∧
      t = respond .ok (.bits 0)
        { s with rb := { s.rb with buf := t.rb.buf, wr := (s.rb.wr + 1) % 2 ^ s.cfg.log2cap },
                 bq := (feedback s.rb s.bq s.rb.rd).2 }

/-- R101: the feedback is the raw word sent through the stages in order, each doing to its sample and to BQ exactly what
`BQ_PROC` does, and then multiplied by the gain; the stages run whatever the gain is. -/
def Obligations.FeedbackRunsTheBiquadOncePerStage : Prop :=
  ∀ (s : State) (i : Nat), ∃ (x : Nat → F32) (b : Nat → BQ),
    x 0 = memRead s.rb.buf i ∧ b 0 = s.bq ∧
    (∀ k, k < s.rb.chain.length →
      exec (.bqProc (F32.toBits (x k))) { s with bq := b k } =
        .next (respond .ok (floatValue (x (k + 1))) { s with bq := b (k + 1) })) ∧
    feedback s.rb s.bq i = (fmul (x s.rb.chain.length) s.rb.fbGain, b s.rb.chain.length)

/-- R103: with `i0` the floor of the offset, the response is `s0 + frac*(s1 - s0)` of the two words at `rd + i0` and
`rd + i0 + 1` modulo CAP, and the read head advances by one. (The offset is finite in every reachable state, R113(a).) -/
def Obligations.PullInterpolatesLinearly : Prop :=
  ∀ (s : State) (i0 : Int), isfinite s.rb.modOffset = true →
    i0 * 2 ^ 149 ≤ s.rb.modOffset.value → s.rb.modOffset.value < (i0 + 1) * 2 ^ 149 →
    encode .rbPull = commandWord 0x11 0 ∧
    (let cap : Int := 2 ^ s.cfg.log2cap
     let frac := fsub s.rb.modOffset (i2f i0)
     let s0 := memRead s.rb.buf ((s.rb.rd + i0) % cap).toNat
     let s1 := memRead s.rb.buf ((s.rb.rd + i0 + 1) % cap).toNat
     exec .rbPull s = .next (respond .ok (floatValue (fadd s0 (fmul frac (fsub s1 s0))))
       { s with rb := { s.rb with rd := (s.rb.rd + 1) % 2 ^ s.cfg.log2cap } }))

/-- R103(f), R113(b): in every reachable state the floor of the offset lies within `-CAP .. CAP`, its conversion is exact, and
the weight lies in [0, 1]; for an offset that is not negative the weight is exact and below 1. (For a negative offset
smaller than the rounding of 1.0 the subtraction rounds up to 1.0: log entry 9.) -/
def Obligations.PullWeightIsTheFraction : Prop :=
  ∀ s : State, State.Inv s →
    let m := s.rb.modOffset
    let i0 := m.value / 2 ^ 149
    let frac := fsub m (i2f i0)
    (-(2 ^ s.cfg.log2cap) ≤ i0 ∧ i0 ≤ 2 ^ s.cfg.log2cap) ∧
    (i2f i0).value = i0 * 2 ^ 149 ∧
    fle .zero frac = true ∧ fle frac .one = true ∧
    (fle .zero m = true → frac.value = m.value - i0 * 2 ^ 149 ∧ flt frac .one = true)

/-- R104: an offset below the latency reads the word that many slots behind the write head; any other is rejected; nothing
changes either way. -/
def Obligations.TapReadsBehindTheWriteHead : Prop :=
  ∀ (n : Word) (s : State),
    let cap : Int := 2 ^ s.cfg.log2cap
    let latency : Int := ((s.rb.wr : Int) - s.rb.rd) % cap
    encode (.rbTap n) = commandWord 0x12 n ∧
    exec (.rbTap n) s = .next
      (if latency ≤ n.toNat then respond .invalidParameter (.bits 0) s
       else respond .ok (floatValue (memRead s.rb.buf (((s.rb.wr : Int) - n.toNat) % cap).toNat)) s)

/-- R105: a delay from 1 to CAP-1 that is not below the modulation range moves the read head and is stored; any other is
rejected and nothing changes. -/
def Obligations.SetDelayMovesTheReadHead : Prop :=
  ∀ (n : Word) (s : State),
    encode (.rbSetDelay n) = commandWord 0x13 n ∧
    exec (.rbSetDelay n) s = .next
      (if n.toNat < 1 ∨ 2 ^ s.cfg.log2cap ≤ n.toNat ∨ ¬ fle s.rb.modRange (u2f n.toNat) = true then
         respond .invalidParameter (.bits 0) s
       else respond .ok (.bits 0)
         { s with rb := { s.rb with rd := (((s.rb.wr : Int) - n.toNat) % 2 ^ s.cfg.log2cap).toNat, delay := n } })

/-- R106: a range from 0.0 to the latency is stored; any other stores +0.0 and is rejected; either way the offset is clamped to
the stored range. -/
def Obligations.SetModRangeStoresAndClamps : Prop :=
  ∀ (w : Word) (s : State),
    let r := F32.ofBits w
    let latency := (((s.rb.wr : Int) - s.rb.rd) % 2 ^ s.cfg.log2cap).toNat
    let ok := fle .zero r = true ∧ fle r (u2f latency) = true
    let range := if ok then r else .num false ⟨0, by decide⟩
    let upper := if flt range s.rb.modOffset then range else s.rb.modOffset
    let offset := if flt upper (fneg range) then fneg range else upper
    encode (.rbSetModRange w) = commandWord 0x14 w ∧
    exec (.rbSetModRange w) s = .next
      (respond (if ok then .ok else .invalidParameter) (.bits 0)
        { s with rb := { s.rb with modRange := range, modOffset := offset } })

/-- R107: the operand, NaN taken as +0.0 and clamped to [-1, 1], scales the range into the offset; never rejected. -/
def Obligations.MapModScalesTheClampedOperand : Prop :=
  ∀ (w : Word) (s : State),
    let x0 := F32.ofBits w
    let x1 : F32 := if x0 = .nan then .num false ⟨0, by decide⟩ else x0
    let x2 : F32 := if flt .one x1 then .num false ⟨0x3F800000, by decide⟩ else x1
    let x3 : F32 := if flt x2 .negOne then .num true ⟨0x3F800000, by decide⟩ else x2
    encode (.rbMapMod w) = commandWord 0x15 w ∧
    exec (.rbMapMod w) s = .next (respond .ok (.bits 0)
      { s with rb := { s.rb with modOffset := fmul s.rb.modRange x3 } })

/-- R108 and R109: the feedback gain takes an operand in [0, 1], the chain takes the stage BIQUAD (selector 1) at its end while
it holds fewer than FB_MAX; anything else is rejected and nothing changes. -/
def Obligations.FeedbackSettersStoreGainAndStage : Prop :=
  ∀ (w : Word) (s : State),
    encode (.rbSetFbGain w) = commandWord 0x16 w ∧ encode (.rbAddFb w) = commandWord 0x17 w ∧
    exec (.rbSetFbGain w) s = .next
      (if fle .zero (F32.ofBits w) = true ∧ fle (F32.ofBits w) .one = true then
         respond .ok (.bits 0) { s with rb := { s.rb with fbGain := F32.ofBits w } }
       else respond .invalidParameter (.bits 0) s) ∧
    exec (.rbAddFb w) s = .next
      (if w.toNat = 1 ∧ s.rb.chain.length < s.cfg.fbMax then
         respond .ok (.bits 0) { s with rb := { s.rb with chain := s.rb.chain ++ [.biquad] } }
       else respond .invalidParameter (.bits 0) s)

/-- R110 and R111: the latency as U32, and the latency plus the modulation range as F32; nothing changes. -/
def Obligations.GettersReadTheLatency : Prop :=
  ∀ s : State,
    let latency := (((s.rb.wr : Int) - s.rb.rd) % 2 ^ s.cfg.log2cap).toNat
    encode .rbGetLat = commandWord 0x18 0 ∧ encode .rbGetMaxLat = commandWord 0x19 0 ∧
    exec .rbGetLat s = .next (respond .ok (.bits (BitVec.ofNat 32 latency)) s) ∧
    exec .rbGetMaxLat s = .next (respond .ok (floatValue (fadd (u2f latency) s.rb.modRange)) s)

/-- R252: a push raises the latency by one and a pull lowers it by one, modulo CAP; an accepted `RB_SETDELAY n` makes it `n`
(R105(b)). R32(c): after that, and after every `RB_SETMODRANGE`, the modulation range is not above the latency. -/
def Obligations.LatencyFollowsPushAndPull : Prop :=
  ∀ (s t : State) (w : Word),
    (exec (.rbPush w) s = .next t → lat t.cfg t.rb = (lat s.cfg s.rb + 1) % 2 ^ s.cfg.log2cap) ∧
    (exec .rbPull s = .next t →
      (lat t.cfg t.rb : Int) = ((lat s.cfg s.rb : Int) - 1) % 2 ^ s.cfg.log2cap) ∧
    (exec (.rbSetDelay w) s = .next t → ¬ outsideDomain (.rbSetDelay w) s →
      lat t.cfg t.rb = w.toNat ∧ fle t.rb.modRange (u2f (lat t.cfg t.rb)) = true) ∧
    (exec (.rbSetModRange w) s = .next t → fle t.rb.modRange (u2f (lat t.cfg t.rb)) = true)

/-- R113(c), for an empty chain (log entry 10): from an all-zero store, zero gain and offset and latency `N` from 1 to CAP-1,
rounds of push and pull return the impulse at round `N` and +0.0 in every other round below `N + CAP`; "The same holds with the
two commands of each round swapped". -/
def Obligations.ImpulseComesBackAfterTheDelay : Prop :=
  ∀ (s : State) (N K : Nat), s.cfg.wf = true → s.rb.wr < s.cfg.cap → s.rb.rd < s.cfg.cap →
    s.rb.buf = [] → s.rb.fbGain = .zero → s.rb.modOffset = .zero → s.rb.chain = [] →
    lat s.cfg s.rb = N → 1 ≤ N → K ≤ N + s.cfg.cap →
    let impulse : List F32 := (List.range K).map fun k => if k = 0 then .one else .zero
    let delayed : List F32 := (List.range K).map fun k => if k = N then .one else .zero
    (pushPullRun impulse s).1 = delayed ∧ (pullPushRun impulse s).1 = delayed

/-- R113(d) and S3: pushes advance the write head modulo CAP, one each, and leave the read head where it is. -/
def Obligations.PushesWrapTheWriteHead : Prop :=
  ∀ (xs : List F32) (s : State), s.rb.wr < s.cfg.cap →
    (pushRun xs s).rb.wr = (s.rb.wr + xs.length) % 2 ^ s.cfg.log2cap ∧
    (pushRun xs s).rb.rd = s.rb.rd ∧ (pushRun xs s).rb.wr < 2 ^ s.cfg.log2cap

/-- R102(b) and R104: with zero gain, an empty chain and finite words in the store, `RB_TAP n` after some pushes of finite
samples, none of them -0.0, returns the sample pushed `n` pushes ago, whatever it was and however the heads have wrapped. -/
def Obligations.TapReturnsTheSamplePushedBefore : Prop :=
  ∀ (xs : List F32) (s : State) (n : Word) (x : F32),
    Memory.wf s.cfg.cap s.rb.buf = true → s.rb.wr < s.cfg.cap → s.rb.fbGain = .zero → s.rb.chain = [] →
    (∀ a, isfinite (memRead s.rb.buf a) = true) →
    (∀ y ∈ xs, isfinite y = true ∧ y ≠ fneg .zero) →
    1 ≤ n.toNat → n.toNat ≤ xs.length → n.toNat < lat s.cfg (pushRun xs s).rb →
    xs[xs.length - n.toNat]? = some x →
    exec (.rbTap n) (pushRun xs s) = .next (respond .ok (floatValue x) (pushRun xs s))

/-- R253: for an offset that is not negative, both slots of a pull lie among the last `L` pushed samples, at `wrap(RB.rd + j)` with
`j` from 0 to `L - 1`, iff the offset is below `L - 1`, with `L` the latency. Below it, the response is a function of those
words: any state with the same configuration, read head and offset and the same words there gives the same response. From
`L - 1` on it is not: some slot `wrap(RB.rd + j)` with `j` from `L` to CAP-1 is read, for a NaN in that slot alone is a NaN in
the response. -/
def Obligations.PullReadsHistoryBelowLatencyMinusOne : Prop :=
  ∀ s : State, State.Inv s → fle .zero s.rb.modOffset = true →
    let L := lat s.cfg s.rb
    let slot := fun j : Nat => (s.rb.rd + j) % 2 ^ s.cfg.log2cap
    (pullReadsHistory s.cfg s.rb ↔ s.rb.modOffset.value < ((L : Int) - 1) * 2 ^ 149) ∧
    (s.rb.modOffset.value < ((L : Int) - 1) * 2 ^ 149 →
      ∀ u : State, u.cfg = s.cfg → u.rb.rd = s.rb.rd → u.rb.modOffset = s.rb.modOffset →
        (∀ j, j < L → memRead u.rb.buf (slot j) = memRead s.rb.buf (slot j)) →
        ∃ (t t' : State) (r : Response), exec .rbPull s = .next t ∧ exec .rbPull u = .next t' ∧
          t.responses = s.responses ++ [r] ∧ t'.responses = u.responses ++ [r]) ∧
    (((L : Int) - 1) * 2 ^ 149 ≤ s.rb.modOffset.value →
      ∃ (j : Nat) (t : State), L ≤ j ∧ j < 2 ^ s.cfg.log2cap ∧
        exec .rbPull { s with rb := { s.rb with buf := memWrite s.rb.buf (slot j) .nan } } = .next t ∧
        t.responses = s.responses ++ [{ status := .ok, value := .someNaN }])

/-! ## BQ -/

/-- R130 and R131: the quotients, products and left-to-right sum from the registers before the shift, the shift with the unmixed
`y`, and the mixed output as the response. -/
def Obligations.ProcRunsTheDifferenceEquation : Prop :=
  ∀ (w : Word) (s : State),
    let b := s.bq
    let x := F32.ofBits w
    let y := fsub (fsub (fadd (fadd (fmul (fdiv b.coef.b0 b.coef.a0) x) (fmul (fdiv b.coef.b1 b.coef.a0) b.x1))
      (fmul (fdiv b.coef.b2 b.coef.a0) b.x2)) (fmul (fdiv b.coef.a1 b.coef.a0) b.y1))
      (fmul (fdiv b.coef.a2 b.coef.a0) b.y2)
    encode (.bqProc w) = commandWord 0x20 w ∧
    exec (.bqProc w) s = .next (respond .ok (floatValue (fadd (fmul b.wet y) (fmul b.dry x)))
      { s with bq := { b with x2 := b.x1, x1 := x, y2 := b.y1, y1 := y } })

/-- R131(b), R258: with the identity coefficients, `wet = 1.0`, `dry = +0.0` and finite delay registers, `BQ_PROC` returns every
finite operand but -0.0 unchanged, and NaN for an infinity or a NaN; with zero registers -0.0 returns +0.0. -/
def Obligations.IdentityFilterReturnsItsInput : Prop :=
  ∀ (x : F32) (s t : State), s.bq.coef = Coefs.identity → s.bq.wet = .one → s.bq.dry = .zero →
    isfinite s.bq.x1 = true → isfinite s.bq.x2 = true → isfinite s.bq.y1 = true → isfinite s.bq.y2 = true →
    exec (.bqProc (F32.toBits x)) s = .next t →
    (isfinite x = true → x ≠ fneg .zero → t.responses = s.responses ++ [{ status := .ok, value := floatValue x }]) ∧
    (isfinite x = false → t.responses = s.responses ++ [{ status := .ok, value := .someNaN }]) ∧
    (x = fneg .zero → s.bq.x1 = .zero → s.bq.x2 = .zero → s.bq.y1 = .zero → s.bq.y2 = .zero →
      t.responses = s.responses ++ [{ status := .ok, value := .bits 0 }])

/-- R132: the four delay registers become +0.0 and nothing else changes. -/
def Obligations.BiquadResetZeroesTheDelayRegisters : Prop :=
  ∀ s : State,
    encode .bqReset = commandWord 0x21 0 ∧
    exec .bqReset s = .next (respond .ok (.bits 0)
      { s with bq := { s.bq with x1 := .num false ⟨0, by decide⟩, x2 := .num false ⟨0, by decide⟩,
                                 y1 := .num false ⟨0, by decide⟩, y2 := .num false ⟨0, by decide⟩ } })

/-- R147, R148: a kind code from 0 to 6 whose candidate tuple passes R147's checks installs the kind and its six coefficients
and zeroes the delay registers; anything else is rejected and nothing changes, the delay registers included. -/
def Obligations.SetKindReconstructsInPlace : Prop :=
  ∀ (w : Word) (s : State),
    encode (.bqSetKind w) = commandWord 0x22 w ∧
    (6 < w.toNat → exec (.bqSetKind w) s = .next (respond .invalidParameter (.bits 0) s)) ∧
    ∀ (n : Fin 7) (k : Kind), w.toNat = n.val →
      [Kind.lowPass, .highPass, .bandPass, .notch, .lowShelf, .highShelf, .peaking][n.val]? = some k →
      (Committable k s.bq.f s.bq.q s.bq.gainDb s.bq.fs →
        exec (.bqSetKind w) s = .next (respond .ok (.bits 0)
          { s with bq := { s.bq with kind := k, coef := coefOf machineNum k s.bq.f s.bq.q s.bq.gainDb s.bq.fs,
                                     x1 := .zero, x2 := .zero, y1 := .zero, y2 := .zero } })) ∧
      (¬ Committable k s.bq.f s.bq.q s.bq.gainDb s.bq.fs →
        exec (.bqSetKind w) s = .next (respond .invalidParameter (.bits 0) s))

/-- R147, R149 to R151: the frequency, Q and gain setters write their parameter and the whole recomputed coefficient set when the
candidate tuple passes R147's checks, and change nothing when it does not; the delay registers are never touched. -/
def Obligations.ParameterSettersCommitAllOrNothing : Prop :=
  ∀ (w : Word) (s : State),
    let b := s.bq
    let v := F32.ofBits w
    encode (.bqSetFreq w) = commandWord 0x23 w ∧ encode (.bqSetQ w) = commandWord 0x24 w ∧
    encode (.bqSetGain w) = commandWord 0x25 w ∧
    (Committable b.kind v b.q b.gainDb b.fs → exec (.bqSetFreq w) s = .next (respond .ok (.bits 0)
      { s with bq := { b with f := v, coef := coefOf machineNum b.kind v b.q b.gainDb b.fs } })) ∧
    (¬ Committable b.kind v b.q b.gainDb b.fs →
      exec (.bqSetFreq w) s = .next (respond .invalidParameter (.bits 0) s)) ∧
    (Committable b.kind b.f v b.gainDb b.fs → exec (.bqSetQ w) s = .next (respond .ok (.bits 0)
      { s with bq := { b with q := v, coef := coefOf machineNum b.kind b.f v b.gainDb b.fs } })) ∧
    (¬ Committable b.kind b.f v b.gainDb b.fs →
      exec (.bqSetQ w) s = .next (respond .invalidParameter (.bits 0) s)) ∧
    (Committable b.kind b.f b.q v b.fs → exec (.bqSetGain w) s = .next (respond .ok (.bits 0)
      { s with bq := { b with gainDb := v, coef := coefOf machineNum b.kind b.f b.q v b.fs } })) ∧
    (¬ Committable b.kind b.f b.q v b.fs →
      exec (.bqSetGain w) s = .next (respond .invalidParameter (.bits 0) s))

/-- R147, R153: the sample-rate setter, its operand read as I32. -/
def Obligations.BiquadSetFsCommitsAllOrNothing : Prop :=
  ∀ (w : Word) (s : State),
    let b := s.bq
    encode (.bqSetFs w) = commandWord 0x26 w ∧
    (1 ≤ w.toInt → Committable b.kind b.f b.q b.gainDb w → exec (.bqSetFs w) s = .next (respond .ok (.bits 0)
      { s with bq := { b with fs := w, coef := coefOf machineNum b.kind b.f b.q b.gainDb w } })) ∧
    (w.toInt < 1 ∨ ¬ Committable b.kind b.f b.q b.gainDb w →
      exec (.bqSetFs w) s = .next (respond .invalidParameter (.bits 0) s))

/-- R154 and R155: the two mix levels, each in [0, 1], each independent of the other. -/
def Obligations.MixSettersStoreWetAndDry : Prop :=
  ∀ (w : Word) (s : State),
    encode (.bqSetWet w) = commandWord 0x27 w ∧ encode (.bqSetDry w) = commandWord 0x28 w ∧
    exec (.bqSetWet w) s = .next
      (if fle .zero (F32.ofBits w) = true ∧ fle (F32.ofBits w) .one = true then
         respond .ok (.bits 0) { s with bq := { s.bq with wet := F32.ofBits w } }
       else respond .invalidParameter (.bits 0) s) ∧
    exec (.bqSetDry w) s = .next
      (if fle .zero (F32.ofBits w) = true ∧ fle (F32.ofBits w) .one = true then
         respond .ok (.bits 0) { s with bq := { s.bq with dry := F32.ofBits w } }
       else respond .invalidParameter (.bits 0) s)

/-- R133 and R140 to R146: the coefficient table, every entry in the order the rule evaluates it, for any `NUM`. -/
def Obligations.CoefficientTableAsWritten : Prop :=
  ∀ (num : NumericRecord) (f q g : F32) (fs : Word),
    let w0 := fdiv (fmul (fmul .two .pi) f) (u2f fs.toNat)
    let c := num.fcos w0
    let alpha := fdiv (num.fsin w0) (fmul .two q)
    let A := num.fexp10 (fdiv g .forty)
    let beta := fmul (fmul .two (fsqrt A)) alpha
    let Ap := fadd A .one
    let Am := fsub A .one
    coefOf num .lowPass f q g fs =
      { b0 := fdiv (fsub .one c) .two, b1 := fsub .one c, b2 := fdiv (fsub .one c) .two,
        a0 := fadd .one alpha, a1 := fmul .negTwo c, a2 := fsub .one alpha } ∧
    coefOf num .highPass f q g fs =
      { b0 := fdiv (fadd .one c) .two, b1 := fneg (fadd .one c), b2 := fdiv (fadd .one c) .two,
        a0 := fadd .one alpha, a1 := fmul .negTwo c, a2 := fsub .one alpha } ∧
    coefOf num .bandPass f q g fs =
      { b0 := alpha, b1 := .zero, b2 := fneg alpha,
        a0 := fadd .one alpha, a1 := fmul .negTwo c, a2 := fsub .one alpha } ∧
    coefOf num .notch f q g fs =
      { b0 := .one, b1 := fmul .negTwo c, b2 := .one,
        a0 := fadd .one alpha, a1 := fmul .negTwo c, a2 := fsub .one alpha } ∧
    coefOf num .lowShelf f q g fs =
      { b0 := fmul A (fadd (fsub Ap (fmul Am c)) beta)
        b1 := fmul (fmul .two A) (fsub Am (fmul Ap c))
        b2 := fmul A (fsub (fsub Ap (fmul Am c)) beta)
        a0 := fadd (fadd Ap (fmul Am c)) beta
        a1 := fmul .negTwo (fadd Am (fmul Ap c))
        a2 := fsub (fadd Ap (fmul Am c)) beta } ∧
    coefOf num .highShelf f q g fs =
      { b0 := fmul A (fadd (fadd Ap (fmul Am c)) beta)
        b1 := fmul (fmul .negTwo A) (fadd Am (fmul Ap c))
        b2 := fmul A (fsub (fadd Ap (fmul Am c)) beta)
        a0 := fadd (fsub Ap (fmul Am c)) beta
        a1 := fmul .two (fsub Am (fmul Ap c))
        a2 := fsub (fsub Ap (fmul Am c)) beta } ∧
    coefOf num .peaking f q g fs =
      { b0 := fadd .one (fmul alpha A), b1 := fmul .negTwo c, b2 := fsub .one (fmul alpha A),
        a0 := fadd .one (fdiv alpha A), a1 := fmul .negTwo c, a2 := fsub .one (fdiv alpha A) }

/-- R14: what the spec assumes of `NUM`, and all the model knows of it; and every `NUM` that keeps these bounds is admitted. -/
def Obligations.NumericRecordKeepsItsBounds : Prop :=
  (∀ v, isfinite v = true →
    (machineNum.fcos v ≠ .nan ∧ |(machineNum.fcos v).value| ≤ 2 ^ 149) ∧
    (machineNum.fsin v ≠ .nan ∧ |(machineNum.fsin v).value| ≤ 2 ^ 149) ∧
    ∃ m, machineNum.fexp10 v = .num false m) ∧
  machineNum.fexp10 .zero = .one ∧ machineNum.fexp10 (fneg .zero) = .one ∧
  ∀ cosine sine power : F32 → F32,
    (∀ v, isfinite v = true → cosine v ≠ .nan ∧ |(cosine v).value| ≤ 2 ^ 149) →
    (∀ v, isfinite v = true → sine v ≠ .nan ∧ |(sine v).value| ≤ 2 ^ 149) →
    (∀ v, isfinite v = true → ∃ m, power v = .num false m) → power .zero = .one → power (fneg .zero) = .one →
    (legalNum cosine sine power).fcos = cosine ∧ (legalNum cosine sine power).fsin = sine ∧
      (legalNum cosine sine power).fexp10 = power

/-- R146: with a gain of zero the Peaking filter is the identity, `b0 = a0`, `b1 = a1`, `b2 = a2`, bit for bit, whatever
`fcos` and `fsin` give. -/
def Obligations.PeakingWithoutGainIsIdentity : Prop :=
  ∀ (f q : F32) (fs : Word) (neg : Bool),
    let k := coefOf machineNum .peaking f q (.num neg ⟨0, by decide⟩) fs
    k.b0 = k.a0 ∧ k.b1 = k.a1 ∧ k.b2 = k.a2

/-- R151: for the four kinds that do not use the gain, any finite gain is accepted and stored, and the recomputed coefficients
come out unchanged, once the stored set is that of the stored parameters (R39) and usable. -/
def Obligations.GainDoesNotEnterTheFirstFourKinds : Prop :=
  ∀ (w : Word) (s : State), s.bq.kind ∈ [Kind.lowPass, .highPass, .bandPass, .notch] →
    Committable s.bq.kind s.bq.f s.bq.q s.bq.gainDb s.bq.fs →
    s.bq.coef = coefOf machineNum s.bq.kind s.bq.f s.bq.q s.bq.gainDb s.bq.fs →
    isfinite (F32.ofBits w) = true →
    exec (.bqSetGain w) s =
      .next (respond .ok (.bits 0) { s with bq := { s.bq with gainDb := F32.ofBits w } })

/-- R157(c): once `BQ.y1` is NaN, every command but `BQ_RESET` and `BQ_SETKIND` leaves it NaN, and `BQ_PROC` answers NaN. -/
def Obligations.NaNStaysUntilResetOrSetKind : Prop :=
  ∀ (i : Instr) (s t : State), s.bq.y1 = .nan → i ≠ .bqReset → (∀ k, i ≠ .bqSetKind k) → exec i s = .next t →
    t.bq.y1 = .nan ∧
    ∀ x, i = .bqProc x → t.responses = s.responses ++ [{ status := .ok, value := .someNaN }]

/-! ## OSC -/

/-- R178: `progress` advances by one modulo `spc`, `rng` steps when that wraps to 0, and the response is the range-mapped shape
value at the new `progress`. -/
def Obligations.NextAdvancesThenEvaluates : Prop :=
  ∀ s : State,
    let n := (s.osc.progress.toNat + 1) % s.osc.spc.toNat
    let o := { s.osc with
      progress := BitVec.ofNat 32 n
      rng := if n = 0 then BitVec.ofNat 32 ((s.osc.rng.toNat * 1664525 + 1013904223) % 2 ^ 32) else s.osc.rng }
    let v := shape o.wave o.rng (phasePos o o.phase)
    encode .oscNext = commandWord 0x30 0 ∧
    exec .oscNext s = .next
      (respond .ok (floatValue (fadd o.min (fmul v (fsub o.max o.min)))) { s with osc := o })

/-- R179 and R180: the raw shape value at the stored phase, or at a finite operand in its place; a non-finite operand is
rejected; nothing changes. -/
def Obligations.ValueReadsTheShape : Prop :=
  ∀ (w : Word) (s : State),
    encode .oscValue = commandWord 0x31 0 ∧ encode (.oscValueP w) = commandWord 0x32 w ∧
    exec .oscValue s = .next
      (respond .ok (floatValue (shape s.osc.wave s.osc.rng (phasePos s.osc s.osc.phase))) s) ∧
    exec (.oscValueP w) s = .next
      (if isfinite (F32.ofBits w) = true then
         respond .ok (floatValue (shape s.osc.wave s.osc.rng (phasePos s.osc (F32.ofBits w)))) s
       else respond .invalidParameter (.bits 0) s)

/-- R172 to R176: the five shapes as written. -/
def Obligations.ShapesAsWritten : Prop :=
  ∀ (rng : Word) (p : F32),
    shape .sine rng p =
      (if flt .half p then fmul (fsub p .one) (fsub .eight (fmul .sixteen (fabs (fsub p .one))))
       else fmul p (fsub .eight (fmul .sixteen (fabs p)))) ∧
    shape .triangle rng p = (if fle p .half then fmul .two p else fmul .two (fsub .one p)) ∧
    shape .square rng p = (if fle p .half then .one else .zero) ∧
    shape .saw rng p = p ∧
    shape .random rng p = fdiv (u2f (rng.toNat / 2 ^ 8)) (.num false ⟨0x4B800000, by decide⟩)

/-- R170: for a finite phase the position is the rounded fractional part, always within [0, 1]; where the shifted position is not
negative the subtraction is exact and the position is below 1. -/
def Obligations.PhasePositionIsTheFraction : Prop :=
  ∀ (o : OSC) (ph : F32), OSC.Inv o → isfinite ph = true →
    let sum := fadd (fdiv (u2f o.progress.toNat) (u2f o.spc.toNat)) ph
    let whole := i2f (sum.value / 2 ^ 149)
    phasePos o ph = fsub sum whole ∧
    whole.value = sum.value / 2 ^ 149 * 2 ^ 149 ∧
    fle .zero (phasePos o ph) = true ∧ fle (phasePos o ph) .one = true ∧
    (0 ≤ sum.value → (phasePos o ph).value = sum.value % 2 ^ 149 ∧ flt (phasePos o ph) .one = true)

/-- R189: the ranges of the shape values on [0, 1]: sine [-1, 1], triangle and saw [0, 1], square {+0.0, 1.0}, random
[0, 1). -/
def Obligations.ShapeValuesStayInRange : Prop :=
  ∀ (rng : Word) (p : F32), fle .zero p = true → fle p .one = true →
    (fle .negOne (shape .sine rng p) = true ∧ fle (shape .sine rng p) .one = true) ∧
    (fle .zero (shape .triangle rng p) = true ∧ fle (shape .triangle rng p) .one = true) ∧
    (shape .square rng p = .zero ∨ shape .square rng p = .one) ∧
    (fle .zero (shape .saw rng p) = true ∧ fle (shape .saw rng p) .one = true) ∧
    (fle .zero (shape .random rng p) = true ∧ flt (shape .random rng p) .one = true)

/-- R181: the cycle length exists iff the quotient lies in [0.5, 2^31), and is then the integer nearest to it, a tie rounding
up; it lies in 1 to 2^31. -/
def Obligations.CycleLengthIsTheRoundedQuotient : Prop :=
  ∀ (f : F32) (fs : Word) (n : Nat),
    let q := fdiv (u2f fs.toNat) f
    (spcOf f fs = some n ↔ q ≠ .nan ∧ 2 ^ 148 ≤ q.value ∧ q.value < 2 ^ 31 * 2 ^ 149 ∧
      (2 * (n : Int) - 1) * 2 ^ 148 ≤ q.value ∧ q.value < (2 * (n : Int) + 1) * 2 ^ 148) ∧
    (spcOf f fs = some n → 1 ≤ n ∧ n ≤ 2 ^ 31)

/-- R183 and R184: the frequency and sample-rate setters store their operand and the new cycle length and re-wrap `progress`, or
are rejected and change nothing. -/
def Obligations.TuningSettersRewrapProgress : Prop :=
  ∀ (w : Word) (s : State),
    let retuned := fun (f : F32) (fs : Word) (n : Nat) =>
      respond .ok (.bits 0) { s with osc := { s.osc with
        f := f, fs := fs, spc := BitVec.ofNat 32 n, progress := BitVec.ofNat 32 (s.osc.progress.toNat % n) } }
    let rejected := respond .invalidParameter (.bits 0) s
    encode (.oscSetFreq w) = commandWord 0x34 w ∧ encode (.oscSetFs w) = commandWord 0x35 w ∧
    (∀ n, flt .zero (F32.ofBits w) = true → spcOf (F32.ofBits w) s.osc.fs = some n →
      exec (.oscSetFreq w) s = .next (retuned (F32.ofBits w) s.osc.fs n)) ∧
    (¬ flt .zero (F32.ofBits w) = true ∨ spcOf (F32.ofBits w) s.osc.fs = none →
      exec (.oscSetFreq w) s = .next rejected) ∧
    (∀ n, 1 ≤ w.toInt → spcOf s.osc.f w = some n → exec (.oscSetFs w) s = .next (retuned s.osc.f w n)) ∧
    (w.toInt < 1 ∨ spcOf s.osc.f w = none → exec (.oscSetFs w) s = .next rejected)

/-- R182 and R185 to R187: the waveform (codes 0 to 4), the phase in [0, 1] and the two finite range ends are stored; anything
else is rejected and nothing changes. -/
def Obligations.OscillatorSettersStoreTheirRegister : Prop :=
  ∀ (w : Word) (s : State),
    let v := F32.ofBits w
    let rejected := respond .invalidParameter (.bits 0) s
    encode (.oscSetWave w) = commandWord 0x33 w ∧ encode (.oscSetPhase w) = commandWord 0x36 w ∧
    encode (.oscSetMin w) = commandWord 0x37 w ∧ encode (.oscSetMax w) = commandWord 0x38 w ∧
    exec (.oscSetWave w) s = .next
      (match [Wave.sine, .triangle, .square, .saw, .random][w.toNat]? with
       | some k => respond .ok (.bits 0) { s with osc := { s.osc with wave := k } }
       | none => rejected) ∧
    exec (.oscSetPhase w) s = .next
      (if fle .zero v = true ∧ fle v .one = true then
         respond .ok (.bits 0) { s with osc := { s.osc with phase := v } } else rejected) ∧
    exec (.oscSetMin w) s = .next
      (if isfinite v = true then respond .ok (.bits 0) { s with osc := { s.osc with min := v } } else rejected) ∧
    exec (.oscSetMax w) s = .next
      (if isfinite v = true then respond .ok (.bits 0) { s with osc := { s.osc with max := v } } else rejected)

/-- R188: `spc` commands `OSC_NEXT` bring `progress` back and step `rng` exactly once, nothing else of OSC changing; for a
waveform that is not random the response of the next call is then the same as before; and from `progress = 0` the last
of them returns the range-mapped value `OSC_VALUE` gave before the first. -/
def Obligations.OscillatorIsPeriodic : Prop :=
  ∀ s : State, OSC.Inv s.osc →
    let n := s.osc.spc.toNat
    let t := oscNextRun n s
    t.osc = { s.osc with rng := BitVec.ofNat 32 ((s.osc.rng.toNat * 1664525 + 1013904223) % 2 ^ 32) } ∧
    t.rb = s.rb ∧ t.bq = s.bq ∧
    (s.osc.wave ≠ .random → lastValue (oscNextRun (n + 1) s) = lastValue (oscNextRun 1 s)) ∧
    (s.osc.wave ≠ .random → s.osc.progress = 0 →
      lastValue t = rangeMap s.osc (shapeAt s.osc s.osc.phase))

/-! ## The block as a whole -/

/-- R52: no command writes a field outside its row of the access table, on any path, accepted or rejected. -/
def Obligations.CommandsWriteOnlyTheirFields : Prop :=
  ∀ (i : Instr) (s t : State), exec i s = .next t →
    writesOnly i s t

/-- R219: a rejected command leaves everything as it was but for its response, `RB_SETMODRANGE` alone excepted, which leaves the
range at +0.0 and the offset at a zero and nothing else changed. -/
def Obligations.RejectionChangesNothing : Prop :=
  ∀ (i : Instr) (s t : State), State.Inv s → exec i s = .next t →
    t.responses = s.responses ++ [{ status := .invalidParameter, value := .bits 0 }] →
    ((∀ r, i ≠ .rbSetModRange r) → t = respond .invalidParameter (.bits 0) s) ∧
    (∀ r, i = .rbSetModRange r → feq t.rb.modOffset .zero = true ∧
      t = respond .invalidParameter (.bits 0)
        { s with rb := { s.rb with modRange := .zero, modOffset := t.rb.modOffset } })

/-- R211: a command responds InvalidParameter exactly under the condition of its row of the table, and OK otherwise; so the nine
commands without a row, the six of R214 among them, always respond OK. -/
def Obligations.InvalidParameterExactlyOutsideTheDomain : Prop :=
  ∀ (i : Instr) (s t : State), exec i s = .next t →
    ∃ r, t.responses = s.responses ++ [r] ∧
      (r.status = .invalidParameter ↔ outsideDomain i s) ∧ (r.status = .ok ↔ ¬ outsideDomain i s)

/-- R27, R223: no command reads `RB.delay` and no state remembers an earlier response: two states that differ in these alone give
the same response and next states that differ in these alone. -/
def Obligations.DelayAndOldResponsesAreNeverRead : Prop :=
  ∀ (i : Instr) (s t : State) (d : Word) (old : List Response), exec i s = .next t →
    ∃ (r : Response) (d' : Word), t.responses = s.responses ++ [r] ∧
      exec i { s with rb := { s.rb with delay := d }, responses := old } =
        .next { t with rb := { t.rb with delay := d' }, responses := old ++ [r] }

/-! ## Arithmetic (R13) -/

/-- R13: rounding is to nearest, ties to even, over all magnitudes, with the infinity standing at 2^128: no magnitude is nearer to
the exact ratio than the rounded one, and one as near forces the rounded one to be even. -/
def Obligations.RoundingIsToNearestEven : Prop :=
  ∀ n d : Nat, 0 < d → ∀ b : Nat, b ≤ infMag → b ≠ roundMag n d →
    |(n : Int) - units (roundMag n d) * d| < |(n : Int) - units b * d| ∨
    (|(n : Int) - units (roundMag n d) * d| = |(n : Int) - units b * d| ∧ roundMag n d % 2 = 0)

/-- R13: sum, difference, product and quotient on every pair of values. On finite operands each is the exact result rounded to
nearest, ties to even, with its sign (values are in units of 2^-149, an overflow is the infinity); an exact zero sum is +0.0
unless both terms are zeros of sign minus, and a zero product or quotient has the sign of the two operands together. NaN in is
NaN out, and infinities and a zero divisor follow IEEE 754: the sum of infinities of opposite sign, zero times infinity,
infinity by infinity and zero by zero are NaN, a finite value that is not zero by zero is an infinity, and a finite value by
infinity is a zero. -/
def Obligations.ArithmeticRoundsTheExactResult : Prop :=
  (∀ x : F32, fadd .nan x = .nan ∧ fadd x .nan = .nan ∧ fsub .nan x = .nan ∧ fsub x .nan = .nan ∧
    fmul .nan x = .nan ∧ fmul x .nan = .nan ∧ fdiv .nan x = .nan ∧ fdiv x .nan = .nan) ∧
  ∀ (sx sy : Bool) (a b : Fin 0x7F800001),
    let x : F32 := .num sx a
    let y : F32 := .num sy b
    let inf := fun sign : Bool => F32.num sign ⟨0x7F800000, by decide⟩
    let zero := fun sign : Bool => F32.num sign ⟨0, by decide⟩
    (a.val < infMag → b.val < infMag →
      (∀ e, e = x.value + y.value → (e = 0 → fadd x y = zero (sx && sy)) ∧
        (e ≠ 0 → ∃ r, fadd x y = .num (decide (e < 0)) r ∧ IsNearestEven e.natAbs 1 r.val)) ∧
      (∀ e, e = x.value - y.value → (e = 0 → fsub x y = zero (sx && !sy)) ∧
        (e ≠ 0 → ∃ r, fsub x y = .num (decide (e < 0)) r ∧ IsNearestEven e.natAbs 1 r.val)) ∧
      (∃ r, fmul x y = .num (sx ^^ sy) r ∧ IsNearestEven (x.value.natAbs * y.value.natAbs) (2 ^ 149) r.val) ∧
      (b.val ≠ 0 → ∃ r, fdiv x y = .num (sx ^^ sy) r ∧
        IsNearestEven (x.value.natAbs * 2 ^ 149) y.value.natAbs r.val) ∧
      (b.val = 0 → fdiv x y = if a.val = 0 then .nan else inf (sx ^^ sy)) ∧
      (fadd (inf sx) y = inf sx ∧ fadd y (inf sx) = inf sx ∧ fsub (inf sx) y = inf sx ∧ fsub y (inf sx) = inf (!sx)) ∧
      fdiv (inf sx) y = inf (sx ^^ sy) ∧ fdiv y (inf sx) = zero (sy ^^ sx)) ∧
    (fmul (inf sx) y = if b.val = 0 then .nan else inf (sx ^^ sy)) ∧
    (fmul y (inf sx) = if b.val = 0 then .nan else inf (sy ^^ sx)) ∧
    (fadd (inf sx) (inf sy) = if sx = sy then inf sx else .nan) ∧
    (fsub (inf sx) (inf sy) = if sx = sy then .nan else inf sx) ∧
    fdiv (inf sx) (inf sy) = .nan

/-- R13: the square root of every value. Of a finite value that is not negative it is correctly rounded: it is on the root's side
of the midpoint between it and any other value (values in units of 2^-149). A zero is its own root, sign included; the root of
+infinity is +infinity; of a NaN, of a negative value and of -infinity, NaN. -/
def Obligations.SquareRootIsCorrectlyRounded : Prop :=
  (∀ x z : F32, isfinite x = true → 0 ≤ x.value → z ≠ .nan → 0 ≤ z.value →
    fsqrt x ≠ .nan ∧ 0 ≤ (fsqrt x).value ∧
    (z.value < (fsqrt x).value → ((fsqrt x).value + z.value) ^ 2 ≤ 4 * (x.value * 2 ^ 149)) ∧
    ((fsqrt x).value < z.value → 4 * (x.value * 2 ^ 149) ≤ ((fsqrt x).value + z.value) ^ 2)) ∧
  (∀ x : F32, x.value < 0 → fsqrt x = .nan) ∧ fsqrt .nan = .nan ∧
  (∀ sign : Bool, fsqrt (.num sign ⟨0, by decide⟩) = .num sign ⟨0, by decide⟩) ∧
  fsqrt (.num false ⟨0x7F800000, by decide⟩) = .num false ⟨0x7F800000, by decide⟩

/-! ## Composite effects as host sequences -/

/-- R201 to R204: each pseudo-operation issues the listed commands in the listed order, with the listed host arithmetic; and a run
of LPFBCOMB starts from `filtered_prev` at +0.0 and hands each sample's new `filtered_prev` to the next. -/
def Obligations.CompositesIssueTheirCommands : Prop :=
  (∀ (a b c prev x : F32) (s s1 s2 s3 : State),
    exec .rbPull s = .next s1 →
    (exec (.rbPush (F32.toBits (fadd x (fmul a (lastValue s1))))) s1 = .next s2 →
      allpass a b x s = (fadd (lastValue s1) (fmul b x), s2) ∧ fbComb a x s = (fadd x (fmul a (lastValue s1)), s2)) ∧
    (exec (.rbPush (F32.toBits (fadd x (fmul c (fadd (fmul b (lastValue s1)) (fmul a prev)))))) s1 = .next s3 →
      lpFbComb a b c prev x s = (lastValue s1, fadd (fmul b (lastValue s1)) (fmul a prev), s3)) ∧
    ∀ t1 t2, exec .oscNext s = .next t1 → exec (.rbMapMod (F32.toBits (lastValue t1))) t1 = .next t2 →
      modAllpass a b x s = allpass a b x t2) ∧
  ∀ (a b c : F32) (xs : List F32) (s : State),
    let r := lpFbCombRun a b c xs s
    r.1.length = xs.length ∧
    ∃ (prev : Nat → F32) (t : Nat → State), prev 0 = .num false ⟨0, by decide⟩ ∧ t 0 = s ∧
      (∀ k x, xs[k]? = some x → ∃ d, r.1[k]? = some d ∧
        lpFbComb a b c (prev k) x (t k) = (d, prev (k + 1), t (k + 1))) ∧
      r.2 = (prev xs.length, t xs.length)

/-- R205, R207(c): every pseudo-operation advances both heads by one and keeps the latency; `MODALLPASS` also advances
`progress` by one. -/
def Obligations.CompositesKeepTheLatency : Prop :=
  ∀ (a b c prev x : F32) (s t : State),
    t ∈ [(allpass a b x s).2, (fbComb a x s).2, (lpFbComb a b c prev x s).2.2, (modAllpass a b x s).2] →
    t.rb.wr = (s.rb.wr + 1) % 2 ^ s.cfg.log2cap ∧ t.rb.rd = (s.rb.rd + 1) % 2 ^ s.cfg.log2cap ∧
    lat t.cfg t.rb = lat s.cfg s.rb ∧
    (modAllpass a b x s).2.osc.progress = BitVec.ofNat 32 ((s.osc.progress.toNat + 1) % s.osc.spc.toNat)

/-- R206: with the gain 0.5 or -0.5 and inputs of magnitude at most 1, every output of the comb has magnitude at most 2.0, bit for
bit, from any store whose words have magnitude at most 2.0 (the zero buffer among them). -/
def Obligations.HalfGainCombStaysBelowTwo : Prop :=
  ∀ (neg : Bool) (xs : List F32) (s : State), State.Inv s → s.rb.fbGain = .zero → s.rb.chain = [] →
    s.rb.modOffset = .zero →
    (∀ a, fle (fabs (memRead s.rb.buf a)) .two = true) → (∀ x ∈ xs, fle (fabs x) .one = true) →
    ∀ out ∈ (fbCombRun (.num neg ⟨0x3F000000, by decide⟩) xs s).1, fle (fabs out) .two = true

end
end

