-- ==== Sys2Proof/Laws/Float.lean ====
section
/-! SUPPORT. What the binary32 operations can do: magnitudes order as their bit patterns, rounding never crosses a
representable value, comparisons compare exact values. -/

namespace Sys2Proof

/-! ## Magnitudes in units of 2^-149 -/

theorem units_of_lt {m : Nat} (h : m < 2 ^ 23) : units m = m := if_pos h

theorem units_of_ge {m : Nat} (h : 2 ^ 23 ≤ m) :
    units m = (2 ^ 23 + m % 2 ^ 23) * 2 ^ (m / 2 ^ 23 - 1) := if_neg (Nat.not_lt.mpr h)
/-- The value of the pattern `k * 2^23 + m` for a significand `m` of 24 bits (the carry 2^24 included). -/
theorem units_pack (k m : Nat) (hm : m ≤ 2 ^ 24) (hk : k = 0 ∨ 2 ^ 23 ≤ m) :
    units (k * 2 ^ 23 + m) = m * 2 ^ k := by
  rcases Nat.lt_or_ge m (2 ^ 23) with h | h
  · have hk0 : k = 0 := by omega
    rw [hk0, Nat.zero_mul, Nat.zero_add, units_of_lt h, Nat.pow_zero, Nat.mul_one]
  · rw [units_of_ge (by omega)]
    rcases Nat.lt_or_ge m (2 ^ 24) with h2 | h2
    · have h3 : 2 ^ 23 + (k * 2 ^ 23 + m) % 2 ^ 23 = m := by omega
      have h4 : (k * 2 ^ 23 + m) / 2 ^ 23 - 1 = k := by omega
      rw [h3, h4]
    · have h3 : 2 ^ 23 + (k * 2 ^ 23 + m) % 2 ^ 23 = 2 ^ 23 := by omega
      have h4 : (k * 2 ^ 23 + m) / 2 ^ 23 - 1 = k + 1 := by omega
      have h5 : m = 2 ^ 23 * 2 := by omega
      rw [h3, h4, h5, Nat.pow_succ 2 k]
      generalize 2 ^ 23 = c
      ring
/-- Every magnitude is a packed one. -/
theorem mag_pack (a : Nat) : ∃ k m, a = k * 2 ^ 23 + m ∧ m < 2 ^ 24 ∧ (k = 0 ∨ 2 ^ 23 ≤ m) := by
  rcases Nat.lt_or_ge a (2 ^ 23) with h | h
  · exact ⟨0, a, by omega, by omega, .inl rfl⟩
  · exact ⟨a / 2 ^ 23 - 1, a % 2 ^ 23 + 2 ^ 23, by omega, by omega, by omega⟩

theorem units_lt_succ (a : Nat) : units a < units (a + 1) := by
  obtain ⟨k, m, rfl, hm, hk⟩ := mag_pack a
  rw [Nat.add_assoc, units_pack k m (by omega) hk, units_pack k (m + 1) (by omega) (by omega)]
  exact Nat.mul_lt_mul_of_pos_right (by omega) (by positivity)
theorem units_strictMono : StrictMono units := strictMono_nat_of_lt_succ units_lt_succ

theorem units_le_units {a b : Nat} : units a ≤ units b ↔ a ≤ b := units_strictMono.le_iff_le
theorem units_lt_units {a b : Nat} : units a < units b ↔ a < b := units_strictMono.lt_iff_lt
theorem units_inj {a b : Nat} : units a = units b ↔ a = b := units_strictMono.injective.eq_iff
@[simp] theorem units_zero : units 0 = 0 := rfl

theorem units_pos {a : Nat} (h : 0 < a) : 0 < units a := units_lt_units.mpr h

theorem units_infMag : units infMag = 2 ^ 277 := by decide

/-! ## Rounding -/

/-- The significand and exponent `roundMag` works with. -/
theorem roundMag_parts (n d : Nat) (hd : 0 < d) :
    ∃ k m r, n = m * (d * 2 ^ k) + r ∧ r < d * 2 ^ k ∧ m < 2 ^ 24 ∧ (k = 0 ∨ 2 ^ 23 ≤ m) ∧
      roundMag n d = min (k * 2 ^ 23 + if d * 2 ^ k < 2 * r ∨ (2 * r = d * 2 ^ k ∧ m % 2 = 1) then m + 1 else m)
        infMag := by
  refine ⟨Nat.log2 (n / d) - 23, n / (d * 2 ^ (Nat.log2 (n / d) - 23)), n % (d * 2 ^ (Nat.log2 (n / d) - 23)),
    ?_, Nat.mod_lt _ (by positivity), ?_, ?_, rfl⟩
  · rw [Nat.mul_comm]; exact (Nat.div_add_mod _ _).symm
  · rw [← Nat.div_div_eq_div_mul, Nat.div_lt_iff_lt_mul (by positivity), ← Nat.pow_add]
    rcases Nat.eq_zero_or_pos (n / d) with h | h
    · rw [h]; positivity
    · exact (Nat.lt_log2_self).trans_le (Nat.pow_le_pow_right (by decide) (by omega))
  · rcases Nat.lt_or_ge (Nat.log2 (n / d)) 24 with h | h
    · left; omega
    · right
      rw [← Nat.div_div_eq_div_mul, Nat.le_div_iff_mul_le (by positivity), ← Nat.pow_add]
      have hne : n / d ≠ 0 := by rintro h0; simp [h0] at h
      exact (Nat.pow_le_pow_right (by decide) (by omega)).trans (Nat.log2_self_le hne)

theorem roundMag_le_infMag (n d : Nat) : roundMag n d ≤ infMag := Nat.min_le_right _ _

/-- Rounding stays at or below a magnitude that is at or above the exact value. -/
theorem roundMag_le {n d b : Nat} (hd : 0 < d) (h : n ≤ units b * d) : roundMag n d ≤ b := by
  obtain ⟨k, m, r, hn, hr, hm, hk, hround⟩ := roundMag_parts n d hd
  rw [hround]
  refine (Nat.min_le_left _ _).trans ?_
  by_contra hlt
  split at hlt
  · rename_i hup
    have hb : units b ≤ m * 2 ^ k := by
      rw [← units_pack k m (by omega) hk]; exact units_le_units.mpr (by omega)
    have : n ≤ m * 2 ^ k * d := h.trans (Nat.mul_le_mul_right _ hb)
    have hr0 : r = 0 := by
      have e : m * 2 ^ k * d = m * (d * 2 ^ k) := by ring
      omega
    subst hr0
    have : 0 < d * 2 ^ k := by positivity
    omega
  · have hb : units b < m * 2 ^ k := by
      rw [← units_pack k m (by omega) hk]; exact units_lt_units.mpr (by omega)
    have : units b * d < m * 2 ^ k * d := Nat.mul_lt_mul_of_pos_right hb hd
    have e : m * 2 ^ k * d = m * (d * 2 ^ k) := by ring
    omega

/-- Rounding stays at or above a magnitude that is at or below the exact value. -/
theorem le_roundMag {n d b : Nat} (hd : 0 < d) (hb : b ≤ infMag) (h : units b * d ≤ n) : b ≤ roundMag n d := by
  obtain ⟨k, m, r, hn, hr, hm, hk, hround⟩ := roundMag_parts n d hd
  rw [hround]
  clear hround
  refine Nat.le_min.mpr ⟨?_, hb⟩
  by_contra hlt
  have hnlt : n < (m + 1) * 2 ^ k * d := by
    have e : (m + 1) * 2 ^ k * d = m * (d * 2 ^ k) + d * 2 ^ k := by ring
    omega
  have hx : k * 2 ^ 23 + (m + 1) ≤ b := by
    split at hlt <;> omega
  clear hlt
  have hle : (m + 1) * 2 ^ k ≤ units b :=
    (units_pack k (m + 1) (by omega) (by omega)).symm.le.trans (units_le_units.mpr hx)
  exact absurd (h.trans_lt hnlt) (Nat.not_lt.mpr (Nat.mul_le_mul_right _ hle))

/-- A representable value rounds to itself. -/
theorem roundMag_exact {d b : Nat} (hd : 0 < d) (hb : b ≤ infMag) : roundMag (units b * d) d = b :=
  Nat.le_antisymm (roundMag_le hd le_rfl) (le_roundMag hd hb le_rfl)

theorem roundMag_of_eq {n d b : Nat} (hd : 0 < d) (hb : b ≤ infMag) (h : n = units b * d) : roundMag n d = b :=
  h ▸ roundMag_exact hd hb


/-- A whole number of at most 24 bits, shifted, is representable. -/
theorem representable {a j : Nat} (ha : a < 2 ^ 24) : ∃ b, units b = a * 2 ^ j := by
  induction j generalizing a with
  | zero => exact ⟨a, by simpa using units_pack 0 a (by omega) (.inl rfl)⟩
  | succ j ih =>
    rcases Nat.lt_or_ge a (2 ^ 23) with h | h
    · obtain ⟨b, hb⟩ := ih (a := 2 * a) (by omega)
      exact ⟨b, by rw [hb, Nat.pow_succ]; ring⟩
    · exact ⟨(j + 1) * 2 ^ 23 + a, units_pack (j + 1) a (by omega) (.inr h)⟩

/-! ## Values and comparisons -/

@[simp] theorem value_nan : F32.nan.value = 0 := rfl
@[simp] theorem value_pos (m : Fin 0x7F800001) : (F32.num false m).value = (units m.val : Int) := rfl
@[simp] theorem value_neg (m : Fin 0x7F800001) : (F32.num true m).value = -(units m.val : Int) := rfl

theorem num_ne_nan {s : Bool} {m : Fin 0x7F800001} : F32.num s m ≠ .nan := by simp

theorem signed_le_signed (sa sb : Bool) (a b : Nat) :
    signed sa (units a) ≤ signed sb (units b) ↔ signed sa a ≤ signed sb b := by
  have h1 := @units_le_units a b
  have h2 := @units_le_units b a
  have h3 := @units_le_units a 0
  have h4 := @units_le_units b 0
  rw [units_zero] at h3 h4
  cases sa <;> cases sb <;> simp only [signed, if_true, if_false, Bool.false_eq_true] <;> omega

/-- `<=` compares exact values, and is false at a NaN. -/
theorem fle_iff {x y : F32} : fle x y = true ↔ x ≠ .nan ∧ y ≠ .nan ∧ x.value ≤ y.value := by
  rcases x with _ | ⟨sa, a⟩ <;> rcases y with _ | ⟨sb, b⟩
  · simp [fle]
  · simp [fle]
  · simp [fle]
  · simp only [F32.value, ne_eq, num_ne_nan, not_false_eq_true, true_and, signed_le_signed]
    exact decide_eq_true_iff

/-- `<` compares exact values, and is false at a NaN. -/
theorem flt_iff {x y : F32} : flt x y = true ↔ x ≠ .nan ∧ y ≠ .nan ∧ x.value < y.value := by
  rcases x with _ | ⟨sa, a⟩ <;> rcases y with _ | ⟨sb, b⟩
  · simp [flt]
  · simp [flt]
  · simp [flt]
  · have h := not_congr (signed_le_signed sb sa b.val a.val)
    rw [not_le, not_le] at h
    simp only [F32.value, ne_eq, num_ne_nan, not_false_eq_true, true_and, h]
    exact decide_eq_true_iff

/-- `==` compares exact values, and is false at a NaN. -/
theorem feq_iff {x y : F32} : feq x y = true ↔ x ≠ .nan ∧ y ≠ .nan ∧ x.value = y.value := by
  rcases x with _ | ⟨sa, a⟩ <;> rcases y with _ | ⟨sb, b⟩
  · simp [feq]
  · simp [feq]
  · simp [feq]
  · have h1 := signed_le_signed sa sb a.val b.val
    have h2 := signed_le_signed sb sa b.val a.val
    simp only [F32.value, ne_eq, num_ne_nan, not_false_eq_true, true_and]
    exact decide_eq_true_iff.trans (by simp only [orderKey]; omega)

theorem isnan_iff {x : F32} : isnan x = true ↔ x = .nan := by cases x <;> simp [isnan]

theorem isfinite_iff {x : F32} : isfinite x = true ↔ x ≠ .nan ∧ |x.value| < 2 ^ 277 := by
  cases x with
  | nan => simp [isfinite]
  | num s m =>
    have h := @units_lt_units m.val infMag
    rw [units_infMag] at h
    cases s <;> simp only [isfinite, decide_eq_true_eq, value_pos, value_neg, abs_neg, ← h, num_ne_nan, ne_eq,
      not_false_eq_true, true_and] <;> norm_cast

theorem value_fneg (x : F32) : (fneg x).value = -x.value := by
  rcases x with _ | ⟨_ | _, m⟩ <;> simp [fneg]

theorem fneg_eq_nan {x : F32} : fneg x = .nan ↔ x = .nan := by cases x <;> simp [fneg]

theorem value_roundF (s : Bool) (n d : Nat) : (roundF s n d).value = signed s (units (roundMag n d)) := rfl

theorem roundF_ne_nan (s : Bool) (n d : Nat) : roundF s n d ≠ .nan := num_ne_nan

/-- A rounded value is no larger in magnitude than a representable bound of the exact value. -/
theorem abs_roundF_le {s : Bool} {n d b : Nat} (hd : 0 < d) (h : n ≤ units b * d) :
    |(roundF s n d).value| ≤ (units b : Int) := by
  have := units_le_units.mpr (roundMag_le hd h)
  cases s <;> simp only [value_roundF, signed, if_true, if_false, Bool.false_eq_true, abs_neg, Nat.abs_cast] <;>
    exact_mod_cast this

/-- A representable magnitude rounds to itself. -/
theorem roundF_exact {s : Bool} {n d : Nat} {b : Fin 0x7F800001} (hd : 0 < d) (h : n = units b.val * d) :
    roundF s n d = .num s b := by
  simp only [roundF, F32.num.injEq, true_and]
  exact Fin.ext (roundMag_of_eq hd (Nat.lt_succ_iff.mp b.isLt) h)

/-! ## The five operations on finite values -/

/-- The exact value `z / d` (in units) after rounding. -/
def roundInt (z : Int) (d : Nat) : Int := signed (decide (z < 0)) (units (roundMag z.natAbs d))

theorem roundMag_zero (d : Nat) : roundMag 0 d = 0 := by
  rcases Nat.eq_zero_or_pos d with rfl | h
  · simp [roundMag]
  · exact Nat.le_zero.mp (roundMag_le (b := 0) h (by simp))

theorem roundInt_of_nonneg {z : Int} {d : Nat} (h : 0 ≤ z) : roundInt z d = units (roundMag z.natAbs d) := by
  simp [roundInt, Int.not_lt.mpr h, signed]
theorem roundInt_of_neg {z : Int} {d : Nat} (h : z < 0) : roundInt z d = -(units (roundMag z.natAbs d) : Int) := by
  simp [roundInt, h, signed]

theorem roundInt_neg (z : Int) (d : Nat) : roundInt (-z) d = -roundInt z d := by
  rcases Int.lt_trichotomy z 0 with h | rfl | h
  · rw [roundInt_of_neg h, roundInt_of_nonneg (by omega), Int.natAbs_neg, Int.neg_neg]
  · simp [roundInt_of_nonneg, roundMag_zero]
  · rw [roundInt_of_neg (by omega), roundInt_of_nonneg (by omega), Int.natAbs_neg]

/-- The magnitude of a non-NaN value. -/
theorem natAbs_value {s : Bool} {m : Fin 0x7F800001} : (F32.num s m).value.natAbs = units m.val := by
  cases s <;> simp

theorem exists_mag {c : F32} (h : c ≠ .nan) : ∃ b, b ≤ infMag ∧ c.value.natAbs = units b := by
  cases c with
  | nan => exact absurd rfl h
  | num s m => exact ⟨m.val, Nat.lt_succ_iff.mp m.isLt, natAbs_value⟩

/-- Rounding does not pass a value that bounds the exact result from above. -/
theorem roundInt_le {z : Int} {d : Nat} {c : F32} (hd : 0 < d) (hc : c ≠ .nan) (h : z ≤ c.value * d) :
    roundInt z d ≤ c.value := by
  obtain ⟨b, hb, hv⟩ := exists_mag hc
  rcases lt_or_ge z 0 with hz | hz
  · rw [roundInt_of_neg hz]
    rcases lt_or_ge c.value 0 with hneg | hneg
    · have hcv : c.value = -(units b : Int) := by omega
      have h2 : units b * d ≤ z.natAbs := by
        have h3 : ((units b * d : Nat) : Int) ≤ z.natAbs := by
          rw [hcv, Int.neg_mul] at h; rw [Nat.cast_mul]; omega
        exact_mod_cast h3
      have := units_le_units.mpr (le_roundMag hd hb h2)
      omega
    · have : (0 : Int) ≤ units (roundMag z.natAbs d) := Int.natCast_nonneg _
      omega
  · rw [roundInt_of_nonneg hz]
    have hpos : 0 ≤ c.value := by
      have hd' : (0 : Int) < d := by omega
      exact Int.nonneg_of_mul_nonneg_left (hz.trans h) hd'
    have hcv : c.value = (units b : Int) := by omega
    have h2 : z.natAbs ≤ units b * d := by
      have h3 : (z.natAbs : Int) ≤ ((units b * d : Nat) : Int) := by
        rw [hcv] at h; rw [Nat.cast_mul]; omega
      exact_mod_cast h3
    have := units_le_units.mpr (roundMag_le hd h2)
    omega

/-- Rounding does not pass a value that bounds the exact result from below. -/
theorem le_roundInt {z : Int} {d : Nat} {c : F32} (hd : 0 < d) (hc : c ≠ .nan) (h : c.value * d ≤ z) :
    c.value ≤ roundInt z d := by
  have := roundInt_le (z := -z) (c := fneg c) hd (by rwa [ne_eq, fneg_eq_nan]) (by rw [value_fneg, Int.neg_mul]; omega)
  rw [roundInt_neg, value_fneg] at this
  omega

/-- A representable exact result is not changed. -/
theorem roundInt_exact {z : Int} {d : Nat} {c : F32} (hd : 0 < d) (hc : c ≠ .nan) (h : z = c.value * d) :
    roundInt z d = c.value :=
  Int.le_antisymm (roundInt_le hd hc h.le) (le_roundInt hd hc h.ge)

theorem roundInt_zero (d : Nat) : roundInt 0 d = 0 := by simp [roundInt, roundMag_zero, signed]

theorem isfinite_num {s : Bool} {m : Fin 0x7F800001} : isfinite (.num s m) = true ↔ m.val ≠ infMag := by
  have := m.isLt
  simp only [isfinite, decide_eq_true_eq, infMag]
  omega

theorem value_roundF_int {s : Bool} {z : Int} {n d : Nat} (hn : z.natAbs = n) (hs : z ≠ 0 → s = decide (z < 0)) :
    (roundF s n d).value = roundInt z d := by
  subst hn
  by_cases h : z = 0
  · subst h; rw [roundInt_zero, value_roundF, Int.natAbs_zero, roundMag_zero]; cases s <;> rfl
  · rw [hs h]; rfl

theorem fadd_finite {x y : F32} (hx : isfinite x = true) (hy : isfinite y = true) :
    fadd x y ≠ .nan ∧ (fadd x y).value = roundInt (x.value + y.value) 1 := by
  rcases x with _ | ⟨sa, a⟩
  · simp [isfinite] at hx
  rcases y with _ | ⟨sb, b⟩
  · simp [isfinite] at hy
  rw [isfinite_num] at hx hy
  simp only [fadd, addNum, hx, hy, if_false]
  have e : signed sa (units a.val) + signed sb (units b.val) = (F32.num sa a).value + (F32.num sb b).value := rfl
  rw [e]
  generalize (F32.num sa a).value + (F32.num sb b).value = z
  by_cases hz : z = 0
  · subst hz; simp [roundInt_zero]; cases sa <;> cases sb <;> simp
  · rw [if_neg hz]
    exact ⟨roundF_ne_nan _ _ _, value_roundF_int rfl fun _ => rfl⟩

theorem isfinite_fneg (x : F32) : isfinite (fneg x) = isfinite x := by cases x <;> rfl

theorem fsub_finite {x y : F32} (hx : isfinite x = true) (hy : isfinite y = true) :
    fsub x y ≠ .nan ∧ (fsub x y).value = roundInt (x.value - y.value) 1 := by
  have := fadd_finite (y := fneg y) hx (by rwa [isfinite_fneg])
  rwa [value_fneg, ← Int.sub_eq_add_neg] at this

theorem fmul_finite {x y : F32} (hx : isfinite x = true) (hy : isfinite y = true) :
    fmul x y ≠ .nan ∧ (fmul x y).value = roundInt (x.value * y.value) (2 ^ 149) := by
  rcases x with _ | ⟨sa, a⟩
  · simp [isfinite] at hx
  rcases y with _ | ⟨sb, b⟩
  · simp [isfinite] at hy
  rw [isfinite_num] at hx hy
  simp only [fmul, mulNum, hx, hy, or_self, if_false]
  refine ⟨roundF_ne_nan _ _ _, value_roundF_int ?_ ?_⟩
  · rw [Int.natAbs_mul, natAbs_value, natAbs_value]
  · intro hz
    rcases Nat.eq_zero_or_pos (units a.val) with ha | ha
    · cases sa <;> simp [ha] at hz
    rcases Nat.eq_zero_or_pos (units b.val) with hb | hb
    · cases sb <;> simp [hb] at hz
    have hab : (0 : Int) < (units a.val : Int) * units b.val := by positivity
    cases sa <;> cases sb <;> simp [hab, Int.not_lt.mpr hab.le]

theorem fdiv_finite {x y : F32} (hx : isfinite x = true) (hy : isfinite y = true) (h0 : y.value ≠ 0) :
    fdiv x y ≠ .nan ∧ (fdiv x y).value = roundInt (x.value * 2 ^ 149 * y.value.sign) y.value.natAbs := by
  rcases x with _ | ⟨sa, a⟩
  · simp [isfinite] at hx
  rcases y with _ | ⟨sb, b⟩
  · simp [isfinite] at hy
  rw [isfinite_num] at hx hy
  have hb0 : b.val ≠ 0 := by rintro h; apply h0; cases sb <;> simp [h]
  have hb : 0 < units b.val := units_pos (by omega)
  simp only [fdiv, divNum, hx, hy, hb0, if_false, natAbs_value]
  generalize hc : (2 : Nat) ^ 149 = C
  have hC : 0 < C := by rw [← hc]; positivity
  have hc' : (2 : Int) ^ 149 = C := by rw [← hc]; norm_cast
  rw [hc']
  have hsb : (F32.num sb b).value.sign = if sb then -1 else 1 := by
    cases sb
    · simp [Int.sign_eq_one_of_pos, hb]
    · simp [Int.sign_eq_one_of_pos, hb]
  rw [hsb]
  refine ⟨roundF_ne_nan _ _ _, value_roundF_int ?_ ?_⟩
  · rw [Int.natAbs_mul, Int.natAbs_mul, natAbs_value]; cases sb <;> simp
  · intro hz
    rcases Nat.eq_zero_or_pos (units a.val) with ha | ha
    · cases sa <;> simp [ha] at hz
    have hab : (0 : Int) < (units a.val : Int) * C := by positivity
    cases sa <;> cases sb <;> simp [hab, Int.not_lt.mpr hab.le]

/-! ## Integers -/

/-- Every magnitude is the value of some F32. -/
theorem exists_of_mag {b : Nat} (h : b ≤ infMag) : ∃ c : F32, c ≠ .nan ∧ c.value = units b :=
  ⟨.num false ⟨b, Nat.lt_succ_of_le h⟩, num_ne_nan, rfl⟩

/-- Every whole number of at most 24 bits shifted is a value. -/
theorem exists_value {a j : Nat} (ha : a < 2 ^ 24) (hb : a * 2 ^ j ≤ units infMag) :
    ∃ c : F32, c ≠ .nan ∧ c.value = a * 2 ^ j := by
  obtain ⟨b, hb'⟩ := representable (j := j) ha
  obtain ⟨c, hc, hv⟩ := exists_of_mag (b := b) (units_le_units.mp (hb' ▸ hb))
  exact ⟨c, hc, by rw [hv, hb']; push_cast; rfl⟩

theorem exists_value_int {z : Int} {j : Nat} (ha : z.natAbs ≤ 2 ^ 24) (hj : j ≤ 149) :
    ∃ c : F32, c ≠ .nan ∧ c.value = z * 2 ^ j := by
  have hbig : z.natAbs * 2 ^ j ≤ units infMag := by
    rw [units_infMag]
    calc z.natAbs * 2 ^ j ≤ 2 ^ 24 * 2 ^ 149 := Nat.mul_le_mul ha (Nat.pow_le_pow_right (by decide) hj)
      _ = 2 ^ (24 + 149) := (Nat.pow_add 2 24 149).symm
      _ ≤ 2 ^ 277 := Nat.pow_le_pow_right (by decide) (by decide)
  have key : ∃ c : F32, c ≠ .nan ∧ c.value = ((z.natAbs * 2 ^ j : Nat) : Int) := by
    rcases Nat.lt_or_ge z.natAbs (2 ^ 24) with h | h
    · obtain ⟨c, hc, hv⟩ := exists_value h hbig
      exact ⟨c, hc, by rw [hv]; push_cast; rfl⟩
    · have he : z.natAbs = 2 ^ 24 := Nat.le_antisymm ha h
      have e : z.natAbs * 2 ^ j = 1 * 2 ^ (24 + j) := by rw [he, ← Nat.pow_add, Nat.one_mul]
      rw [e] at hbig ⊢
      obtain ⟨c, hc, hv⟩ := exists_value (by decide) hbig
      exact ⟨c, hc, by rw [hv]; push_cast; rfl⟩
  obtain ⟨c, hc, hv⟩ := key
  rw [Nat.cast_mul] at hv
  rcases lt_or_ge z 0 with h | h
  · refine ⟨fneg c, by rwa [ne_eq, fneg_eq_nan], ?_⟩
    have : (z.natAbs : Int) = -z := by omega
    rw [value_fneg, hv, this]; push_cast; rw [Int.neg_mul, Int.neg_neg]
  · have : (z.natAbs : Int) = z := by omega
    exact ⟨c, hc, by rw [hv, this]; push_cast; rfl⟩

theorem value_i2f (z : Int) : (i2f z).value = roundInt (z * 2 ^ 149) 1 := by
  unfold i2f
  have hp : (0 : Int) < 2 ^ 149 := by positivity
  apply value_roundF_int
  · rw [Int.natAbs_mul]; rfl
  · intro h
    apply decide_eq_decide.mpr
    constructor
    · intro h; exact Int.mul_neg_of_neg_of_pos h hp
    · intro h; by_contra h'
      exact absurd (Int.mul_nonneg (Int.not_lt.mp h') hp.le) (Int.not_le.mpr h)

theorem i2f_ne_nan (z : Int) : i2f z ≠ .nan := num_ne_nan

/-- "`i2f(i0)` is exact because `|i0| <= CAP <= 2^24`" (R103(f)). -/
theorem i2f_exact {z : Int} (h : z.natAbs ≤ 2 ^ 24) : (i2f z).value = z * 2 ^ 149 := by
  obtain ⟨c, hc, hv⟩ := exists_value_int h (Nat.le_refl 149)
  rw [value_i2f, roundInt_exact (by decide) hc (by rw [hv]; simp), hv]

theorem u2f_eq_i2f (n : Nat) : u2f n = i2f n := by
  unfold u2f i2f
  congr 1

theorem u2f_ne_nan (n : Nat) : u2f n ≠ .nan := num_ne_nan

/-- "`u2f(n)` ... exact for n < 2^24" (R13). -/
theorem u2f_exact {n : Nat} (h : n ≤ 2 ^ 24) : (u2f n).value = n * 2 ^ 149 := by
  rw [u2f_eq_i2f, i2f_exact (by simpa using h)]

theorem value_u2f (n : Nat) : (u2f n).value = roundInt (n * 2 ^ 149) 1 := by rw [u2f_eq_i2f, value_i2f]

/-! ## Bit patterns -/

/-- The bits of a value that is not NaN: its magnitude, and bit 31 for its sign. -/
theorem F32.toNat_toBits_num (s : Bool) (m : Fin 0x7F800001) :
    (F32.toBits (.num s m)).toNat = m.val + (if s then 2 ^ 31 else 0) := by
  have hm := m.isLt
  cases s <;> simp only [F32.toBits, if_true, if_false, Bool.false_eq_true, BitVec.toNat_ofNat] <;>
    exact Nat.mod_eq_of_lt (by omega)

/-- The bits of a value stand for that value. -/
@[simp] theorem F32.ofBits_toBits (x : F32) : F32.ofBits (F32.toBits x) = x := by
  rcases x with _ | ⟨s, m⟩
  · decide
  · have hm := m.isLt
    cases s
    · have h1 : (F32.toBits (.num false m)).toNat = m.val := by
        show (BitVec.ofNat 32 (m.val + 0)).toNat = m.val
        rw [BitVec.toNat_ofNat, Nat.add_zero]
        exact Nat.mod_eq_of_lt (by omega)
      have h2 : (m.val % 2 ^ 31) = m.val := Nat.mod_eq_of_lt (by omega)
      simp only [F32.ofBits, h1, h2, hm, dif_pos, F32.num.injEq, Fin.eta, and_true]
      exact decide_eq_false (by omega)
    · have h1 : (F32.toBits (.num true m)).toNat = m.val + 2 ^ 31 := by
        show (BitVec.ofNat 32 (m.val + 2 ^ 31)).toNat = _
        rw [BitVec.toNat_ofNat]
        exact Nat.mod_eq_of_lt (by omega)
      have h2 : ((m.val + 2 ^ 31) % 2 ^ 31) = m.val := by omega
      simp only [F32.ofBits, h1, h2, hm, dif_pos, F32.num.injEq, Fin.eta, and_true]
      exact decide_eq_true (by omega)

/-! ## The constants -/

@[simp] theorem value_zero : F32.zero.value = 0 := by decide
theorem value_half : F32.half.value = 2 ^ 148 := by decide
theorem value_one : F32.one.value = 2 ^ 149 := by decide
theorem value_negOne : F32.negOne.value = -2 ^ 149 := by decide
theorem value_two : F32.two.value = 2 ^ 150 := by decide
theorem value_four : F32.four.value = 2 ^ 151 := by decide
theorem value_twoPow31 : F32.twoPow31.value = 2 ^ 180 := by decide
theorem zero_ne_nan : F32.zero ≠ .nan := by decide
theorem one_ne_nan : F32.one ≠ .nan := by decide

theorem units_one : units 0x3F800000 = 2 ^ 149 := by decide

/-- A product by 1.0 is the other factor, bit for bit. -/
@[simp] theorem fmul_one (x : F32) : fmul x .one = x := by
  rcases x with _ | ⟨s, m⟩
  · rfl
  · have hi : (0x3F800000 : Nat) ≠ infMag := by decide
    simp only [fmul, F32.one, mulNum, hi, or_false, Bool.xor_false]
    by_cases hm : m.val = infMag
    · rw [if_pos hm, if_neg (by rw [hm]; decide)]
      congr 1
      exact Fin.ext hm.symm
    · rw [if_neg hm]
      exact roundF_exact (by positivity) (by rw [units_one])

/-- A quotient by 1.0 is the dividend, bit for bit. -/
@[simp] theorem fdiv_one (x : F32) : fdiv x .one = x := by
  rcases x with _ | ⟨s, m⟩
  · rfl
  · have hi : (0x3F800000 : Nat) ≠ infMag := by decide
    have h0 : (0x3F800000 : Nat) ≠ 0 := by decide
    simp only [fdiv, F32.one, divNum, hi, h0, if_false, Bool.xor_false]
    by_cases hm : m.val = infMag
    · rw [if_pos hm]
      congr 1
      exact Fin.ext hm.symm
    · rw [if_neg hm]
      exact roundF_exact (by rw [units_one]; positivity) (by rw [units_one])

/-- `u2f` of an index or a latency is finite. -/
theorem isfinite_u2f {n : Nat} (h : n ≤ 2 ^ 24) : isfinite (u2f n) = true := by
  rw [isfinite_iff]
  refine ⟨u2f_ne_nan n, ?_⟩
  rw [u2f_exact h, abs_of_nonneg (by positivity)]
  calc (n : Int) * 2 ^ 149 ≤ 2 ^ 24 * 2 ^ 149 := by exact_mod_cast Nat.mul_le_mul_right _ h
    _ = 2 ^ (24 + 149) := (pow_add 2 24 149).symm
    _ < 2 ^ 277 := pow_lt_pow_right₀ (by decide) (by decide)

/-- "rounding a product of a value by a factor of magnitude at most 1 cannot exceed the value" (R107(d)). -/
theorem abs_fmul_le {x y : F32} (hx : isfinite x = true) (hy : isfinite y = true) (h : |y.value| ≤ 2 ^ 149) :
    fmul x y ≠ .nan ∧ |(fmul x y).value| ≤ |x.value| := by
  obtain ⟨hn, hv⟩ := fmul_finite hx hy
  have hxn : fabs x ≠ .nan := by cases x <;> simp [fabs, isfinite] at hx ⊢
  have habs : (fabs x).value = |x.value| := by
    rcases x with _ | ⟨_ | _, m⟩ <;> simp [fabs]
  have hle : |x.value * y.value| ≤ (fabs x).value * ((2 ^ 149 : Nat) : Int) := by
    rw [abs_mul, habs, Nat.cast_pow, Nat.cast_ofNat]
    exact mul_le_mul_of_nonneg_left h (abs_nonneg _)
  refine ⟨hn, ?_⟩
  rw [hv, ← habs, abs_le]
  rw [abs_le] at hle
  constructor
  · rw [← value_fneg]
    exact le_roundInt (by positivity) (by rwa [ne_eq, fneg_eq_nan]) (by rw [value_fneg, neg_mul]; exact hle.1)
  · exact roundInt_le (by positivity) hxn hle.2

end Sys2Proof
end

