-- ==== Sys2Proof/Laws/Memory.lean ====
section
/-! SUPPORT. The laws of the sample store: a read after a write, every other index left alone, and the canonical form kept
(and canonical: two stores that read alike are the same list). -/

namespace Sys2Proof.Machine

@[simp] theorem memRead_nil (i : Nat) : memRead [] i = .zero := rfl

theorem memWfFrom_cons {hi lo j : Nat} {v : F32} {rest : Memory} :
    memWfFrom hi lo ((j, v) :: rest) = true ↔ lo ≤ j ∧ j < hi ∧ v ≠ .zero ∧ memWfFrom hi (j + 1) rest = true := by
  simp [memWfFrom, and_assoc]

theorem memWfFrom_mono {hi lo lo' : Nat} (h : lo ≤ lo') : ∀ {m : Memory}, memWfFrom hi lo' m = true → memWfFrom hi lo m = true
  | [], _ => rfl
  | (j, v) :: rest, hm => by
    rw [memWfFrom_cons] at hm ⊢
    exact ⟨h.trans hm.1, hm.2⟩

/-- Below the first listed index everything is `+0.0`. -/
theorem memRead_below {hi lo i : Nat} (h : i < lo) : ∀ {m : Memory}, memWfFrom hi lo m = true → memRead m i = .zero
  | [], _ => rfl
  | (j, v) :: rest, hm => by
    rw [memWfFrom_cons] at hm
    have hne : i ≠ j := by omega
    rw [memRead, if_neg hne]
    exact memRead_below (lo := j + 1) (by omega) hm.2.2.2

theorem memRead_memCons_self {hi i : Nat} {v : F32} {rest : Memory} (h : memWfFrom hi (i + 1) rest = true) :
    memRead (memCons i v rest) i = v := by
  unfold memCons
  split
  · next hv => rw [hv]; exact memRead_below (Nat.lt_succ_self i) h
  · simp [memRead]

theorem memRead_memCons_ne {i a : Nat} {v : F32} {rest : Memory} (h : a ≠ i) :
    memRead (memCons i v rest) a = memRead rest a := by
  unfold memCons
  split
  · rfl
  · simp [memRead, h]

theorem memWfFrom_memCons {hi lo i : Nat} {v : F32} {rest : Memory} (hlo : lo ≤ i) (hi' : i < hi)
    (h : memWfFrom hi (i + 1) rest = true) : memWfFrom hi lo (memCons i v rest) = true := by
  unfold memCons
  split
  · exact memWfFrom_mono (by omega) h
  · next hv => exact memWfFrom_cons.mpr ⟨hlo, hi', hv, h⟩

theorem memRead_memWrite_self_from {hi i : Nat} {v : F32} :
    ∀ {m : Memory} {lo : Nat}, memWfFrom hi lo m = true → memRead (memWrite m i v) i = v
  | [], _, _ => memRead_memCons_self (hi := i) rfl
  | (j, u) :: rest, lo, hm => by
    have hm' := memWfFrom_cons.mp hm
    unfold memWrite
    split
    · exact memRead_memCons_self (hi := hi)
        (memWfFrom_cons.mpr ⟨by omega, hm'.2.1, hm'.2.2.1, hm'.2.2.2⟩)
    · split
      · next h => subst h; exact memRead_memCons_self hm'.2.2.2
      · next h =>
        rw [memRead, if_neg h]
        exact memRead_memWrite_self_from hm'.2.2.2

theorem memRead_memWrite_ne {i a : Nat} {v : F32} (ha : a ≠ i) :
    ∀ {m : Memory}, memRead (memWrite m i v) a = memRead m a
  | [] => memRead_memCons_ne ha
  | (j, u) :: rest => by
    unfold memWrite
    split
    · exact memRead_memCons_ne ha
    · split
      · next h =>
        subst h
        rw [memRead_memCons_ne ha, memRead, if_neg ha]
      · rw [memRead, memRead, memRead_memWrite_ne ha]

theorem memWfFrom_memWrite {hi i : Nat} {v : F32} (hi' : i < hi) :
    ∀ {m : Memory} {lo : Nat}, lo ≤ i → memWfFrom hi lo m = true → memWfFrom hi lo (memWrite m i v) = true
  | [], _, hlo, _ => memWfFrom_memCons hlo hi' rfl
  | (j, u) :: rest, lo, hlo, hm => by
    have hm' := memWfFrom_cons.mp hm
    unfold memWrite
    split
    · exact memWfFrom_memCons hlo hi' (memWfFrom_cons.mpr ⟨by omega, hm'.2.1, hm'.2.2.1, hm'.2.2.2⟩)
    · split
      · next h => subst h; exact memWfFrom_memCons hlo hi' hm'.2.2.2
      · exact memWfFrom_cons.mpr ⟨hm'.1, hm'.2.1, hm'.2.2.1, memWfFrom_memWrite hi' (by omega) hm'.2.2.2⟩

/-- A read of the index just written gives the value written. -/
theorem memRead_memWrite_self {cap i : Nat} {v : F32} {m : Memory} (h : Memory.wf cap m = true) :
    memRead (memWrite m i v) i = v := memRead_memWrite_self_from h

/-- `MemRead` after `MemWrite`, at any index. -/
theorem memRead_memWrite {cap i a : Nat} {v : F32} {m : Memory} (h : Memory.wf cap m = true) :
    memRead (memWrite m i v) a = if a = i then v else memRead m a := by
  split
  · next h' => subst h'; exact memRead_memWrite_self h
  · next h' => exact memRead_memWrite_ne h'

/-- Every write keeps the canonical form. -/
theorem memWrite_wf {cap i : Nat} {v : F32} {m : Memory} (hi : i < cap) (h : Memory.wf cap m = true) :
    Memory.wf cap (memWrite m i v) = true := memWfFrom_memWrite hi (Nat.zero_le i) h

/-- The store after reset has the canonical form. -/
theorem reset_buf_wf (p : Params) : Memory.wf p.cap (RB.reset p).buf = true := rfl

theorem memory_ext_from {hi : Nat} : ∀ {m m' : Memory} {lo : Nat}, memWfFrom hi lo m = true → memWfFrom hi lo m' = true →
    (∀ a, memRead m a = memRead m' a) → m = m'
  | [], [], _, _, _, _ => rfl
  | [], (j, v) :: rest, lo, _, hm', hr => by
    have h := memWfFrom_cons.mp hm'
    have := hr j
    rw [memRead_nil, memRead, if_pos rfl] at this
    exact absurd this.symm h.2.2.1
  | (j, v) :: rest, [], lo, hm, _, hr => by
    have h := memWfFrom_cons.mp hm
    have := hr j
    rw [memRead_nil, memRead, if_pos rfl] at this
    exact absurd this h.2.2.1
  | (j, v) :: rest, (j', v') :: rest', lo, hm, hm', hr => by
    have h := memWfFrom_cons.mp hm
    have h' := memWfFrom_cons.mp hm'
    have hj : j = j' := by
      rcases Nat.lt_trichotomy j j' with hlt | heq | hgt
      · have := hr j
        rw [memRead, if_pos rfl, memRead, if_neg (by omega), memRead_below (lo := j' + 1) (by omega) h'.2.2.2] at this
        exact absurd this h.2.2.1
      · exact heq
      · have := hr j'
        rw [memRead, if_neg (by omega), memRead_below (lo := j + 1) (by omega) h.2.2.2, memRead, if_pos rfl] at this
        exact absurd this.symm h'.2.2.1
    subst hj
    have hv : v = v' := by
      have := hr j
      rwa [memRead, if_pos rfl, memRead, if_pos rfl] at this
    subst hv
    refine congrArg _ (memory_ext_from h.2.2.2 h'.2.2.2 fun a => ?_)
    rcases Nat.lt_or_ge a (j + 1) with ha | ha
    · rw [memRead_below ha h.2.2.2, memRead_below ha h'.2.2.2]
    · have := hr a
      rwa [memRead, if_neg (by omega), memRead, if_neg (by omega)] at this

/-- Equal memories are equal data: two canonical stores that read alike everywhere are one list. -/
theorem memory_ext {cap : Nat} {m m' : Memory} (h : Memory.wf cap m = true) (h' : Memory.wf cap m' = true)
    (hr : ∀ a, memRead m a = memRead m' a) : m = m' := memory_ext_from h h' hr

end Sys2Proof.Machine
end

