-- ==== Sys2Proof/Laws/State.lean ====
section
/-! SUPPORT. One lemma per field per update, so that no proof unfolds a record update, and the five ways a command answers
spelled as `respond`. -/

namespace Sys2Proof.Machine

/-! ### respond -/

@[simp] theorem respond_cfg (st : Status) (v : Value) (s : State) : (respond st v s).cfg = s.cfg := rfl
@[simp] theorem respond_rb (st : Status) (v : Value) (s : State) : (respond st v s).rb = s.rb := rfl
@[simp] theorem respond_bq (st : Status) (v : Value) (s : State) : (respond st v s).bq = s.bq := rfl
@[simp] theorem respond_osc (st : Status) (v : Value) (s : State) : (respond st v s).osc = s.osc := rfl
@[simp] theorem respond_input (st : Status) (v : Value) (s : State) : (respond st v s).input = s.input := rfl
@[simp] theorem respond_responses (st : Status) (v : Value) (s : State) : (respond st v s).responses = s.responses ++ [{ status := st, value := v }] := rfl

/-! ### resetBlock -/

@[simp] theorem resetBlock_cfg (s : State) : (resetBlock s).cfg = s.cfg := rfl
@[simp] theorem resetBlock_rb (s : State) : (resetBlock s).rb = RB.reset s.cfg := rfl
@[simp] theorem resetBlock_bq (s : State) : (resetBlock s).bq = BQ.reset s.cfg := rfl
@[simp] theorem resetBlock_osc (s : State) : (resetBlock s).osc = OSC.reset s.cfg := rfl
@[simp] theorem resetBlock_input (s : State) : (resetBlock s).input = s.input := rfl
@[simp] theorem resetBlock_responses (s : State) : (resetBlock s).responses = s.responses := rfl

/-! ### rbPush -/

@[simp] theorem rbPush_buf (p : Params) (r : RB) (x fb : F32) : (rbPush p r x fb).buf = memWrite r.buf r.wr (fadd x fb) := rfl
@[simp] theorem rbPush_wr (p : Params) (r : RB) (x fb : F32) : (rbPush p r x fb).wr = wrap p ((r.wr : Int) + 1) := rfl
@[simp] theorem rbPush_rd (p : Params) (r : RB) (x fb : F32) : (rbPush p r x fb).rd = r.rd := rfl
@[simp] theorem rbPush_delay (p : Params) (r : RB) (x fb : F32) : (rbPush p r x fb).delay = r.delay := rfl
@[simp] theorem rbPush_modRange (p : Params) (r : RB) (x fb : F32) : (rbPush p r x fb).modRange = r.modRange := rfl
@[simp] theorem rbPush_modOffset (p : Params) (r : RB) (x fb : F32) : (rbPush p r x fb).modOffset = r.modOffset := rfl
@[simp] theorem rbPush_fbGain (p : Params) (r : RB) (x fb : F32) : (rbPush p r x fb).fbGain = r.fbGain := rfl
@[simp] theorem rbPush_chain (p : Params) (r : RB) (x fb : F32) : (rbPush p r x fb).chain = r.chain := rfl

/-! ### rbSetRange -/

@[simp] theorem rbSetRange_buf (r : RB) (v : F32) : (rbSetRange r v).buf = r.buf := rfl
@[simp] theorem rbSetRange_wr (r : RB) (v : F32) : (rbSetRange r v).wr = r.wr := rfl
@[simp] theorem rbSetRange_rd (r : RB) (v : F32) : (rbSetRange r v).rd = r.rd := rfl
@[simp] theorem rbSetRange_delay (r : RB) (v : F32) : (rbSetRange r v).delay = r.delay := rfl
@[simp] theorem rbSetRange_modRange (r : RB) (v : F32) : (rbSetRange r v).modRange = v := rfl
@[simp] theorem rbSetRange_modOffset (r : RB) (v : F32) : (rbSetRange r v).modOffset = clampOffset r.modOffset v := rfl
@[simp] theorem rbSetRange_fbGain (r : RB) (v : F32) : (rbSetRange r v).fbGain = r.fbGain := rfl
@[simp] theorem rbSetRange_chain (r : RB) (v : F32) : (rbSetRange r v).chain = r.chain := rfl

/-! ### bqShift -/

@[simp] theorem bqShift_kind (b : BQ) (x y : F32) : (bqShift b x y).kind = b.kind := rfl
@[simp] theorem bqShift_f (b : BQ) (x y : F32) : (bqShift b x y).f = b.f := rfl
@[simp] theorem bqShift_q (b : BQ) (x y : F32) : (bqShift b x y).q = b.q := rfl
@[simp] theorem bqShift_gainDb (b : BQ) (x y : F32) : (bqShift b x y).gainDb = b.gainDb := rfl
@[simp] theorem bqShift_fs (b : BQ) (x y : F32) : (bqShift b x y).fs = b.fs := rfl
@[simp] theorem bqShift_coef (b : BQ) (x y : F32) : (bqShift b x y).coef = b.coef := rfl
@[simp] theorem bqShift_x1 (b : BQ) (x y : F32) : (bqShift b x y).x1 = x := rfl
@[simp] theorem bqShift_x2 (b : BQ) (x y : F32) : (bqShift b x y).x2 = b.x1 := rfl
@[simp] theorem bqShift_y1 (b : BQ) (x y : F32) : (bqShift b x y).y1 = y := rfl
@[simp] theorem bqShift_y2 (b : BQ) (x y : F32) : (bqShift b x y).y2 = b.y1 := rfl
@[simp] theorem bqShift_wet (b : BQ) (x y : F32) : (bqShift b x y).wet = b.wet := rfl
@[simp] theorem bqShift_dry (b : BQ) (x y : F32) : (bqShift b x y).dry = b.dry := rfl

/-! ### bqClear -/

@[simp] theorem bqClear_kind (b : BQ) : (bqClear b).kind = b.kind := rfl
@[simp] theorem bqClear_f (b : BQ) : (bqClear b).f = b.f := rfl
@[simp] theorem bqClear_q (b : BQ) : (bqClear b).q = b.q := rfl
@[simp] theorem bqClear_gainDb (b : BQ) : (bqClear b).gainDb = b.gainDb := rfl
@[simp] theorem bqClear_fs (b : BQ) : (bqClear b).fs = b.fs := rfl
@[simp] theorem bqClear_coef (b : BQ) : (bqClear b).coef = b.coef := rfl
@[simp] theorem bqClear_x1 (b : BQ) : (bqClear b).x1 = F32.zero := rfl
@[simp] theorem bqClear_x2 (b : BQ) : (bqClear b).x2 = F32.zero := rfl
@[simp] theorem bqClear_y1 (b : BQ) : (bqClear b).y1 = F32.zero := rfl
@[simp] theorem bqClear_y2 (b : BQ) : (bqClear b).y2 = F32.zero := rfl
@[simp] theorem bqClear_wet (b : BQ) : (bqClear b).wet = b.wet := rfl
@[simp] theorem bqClear_dry (b : BQ) : (bqClear b).dry = b.dry := rfl

/-! ### oscRetune -/

@[simp] theorem oscRetune_wave (o : OSC) (v : F32) (r : Word) (n : Nat) : (oscRetune o v r n).wave = o.wave := rfl
@[simp] theorem oscRetune_f (o : OSC) (v : F32) (r : Word) (n : Nat) : (oscRetune o v r n).f = v := rfl
@[simp] theorem oscRetune_fs (o : OSC) (v : F32) (r : Word) (n : Nat) : (oscRetune o v r n).fs = r := rfl
@[simp] theorem oscRetune_spc (o : OSC) (v : F32) (r : Word) (n : Nat) : (oscRetune o v r n).spc = BitVec.ofNat 32 n := rfl
@[simp] theorem oscRetune_progress (o : OSC) (v : F32) (r : Word) (n : Nat) : (oscRetune o v r n).progress = BitVec.ofNat 32 (o.progress.toNat % n) := rfl
@[simp] theorem oscRetune_phase (o : OSC) (v : F32) (r : Word) (n : Nat) : (oscRetune o v r n).phase = o.phase := rfl
@[simp] theorem oscRetune_min (o : OSC) (v : F32) (r : Word) (n : Nat) : (oscRetune o v r n).min = o.min := rfl
@[simp] theorem oscRetune_max (o : OSC) (v : F32) (r : Word) (n : Nat) : (oscRetune o v r n).max = o.max := rfl
@[simp] theorem oscRetune_rng (o : OSC) (v : F32) (r : Word) (n : Nat) : (oscRetune o v r n).rng = o.rng := rfl

/-! ### oscAdvance -/

@[simp] theorem oscAdvance_wave (o : OSC) : (oscAdvance o).wave = o.wave := rfl
@[simp] theorem oscAdvance_f (o : OSC) : (oscAdvance o).f = o.f := rfl
@[simp] theorem oscAdvance_fs (o : OSC) : (oscAdvance o).fs = o.fs := rfl
@[simp] theorem oscAdvance_spc (o : OSC) : (oscAdvance o).spc = o.spc := rfl
@[simp] theorem oscAdvance_progress (o : OSC) : (oscAdvance o).progress = BitVec.ofNat 32 ((o.progress.toNat + 1) % o.spc.toNat) := rfl
@[simp] theorem oscAdvance_phase (o : OSC) : (oscAdvance o).phase = o.phase := rfl
@[simp] theorem oscAdvance_min (o : OSC) : (oscAdvance o).min = o.min := rfl
@[simp] theorem oscAdvance_max (o : OSC) : (oscAdvance o).max = o.max := rfl
@[simp] theorem oscAdvance_rng (o : OSC) : (oscAdvance o).rng = if (o.progress.toNat + 1) % o.spc.toNat = 0 then rngStep o.rng else o.rng := rfl

/-! ### The answers are all `respond` -/

theorem respondOk_eq (s : State) : respondOk s = respond .ok (.bits 0) s := rfl
theorem respondFloat_eq (v : F32) (s : State) : respondFloat v s = respond .ok (floatValue v) s := rfl
theorem respondWord_eq (n : Word) (s : State) : respondWord n s = respond .ok (.bits n) s := rfl
theorem raiseInvalid_eq (s : State) : raiseInvalid s = respond .invalidParameter (.bits 0) s := rfl
theorem raiseIllegal_eq (s : State) : raiseIllegal s = respond .illegalCommand (.bits 0) s := rfl

end Sys2Proof.Machine
end

