-- ==== Sys2Proof/Laws/Ops.lean ====
section
/-! SUPPORT. What the shared operations can do: index wrapping and the latency, the feedback path, the commit of a biquad
parameter, the generator step, and the one way every command ends. -/

namespace Sys2Proof.Machine

/-! ## Wrapping (R12, R112) -/

theorem cap_pos (p : Params) : 0 < p.cap := by positivity

theorem wrap_lt (p : Params) (i : Int) : wrap p i < p.cap := by
  have h := Int.emod_lt_of_pos i (Int.natCast_pos.mpr (cap_pos p))
  have h' := Int.emod_nonneg i (Int.natCast_ne_zero.mpr (cap_pos p).ne')
  unfold wrap
  omega

/-- The integer a wrapped index is. -/
theorem wrap_cast (p : Params) (i : Int) : (wrap p i : Int) = i % (p.cap : Int) :=
  Int.toNat_of_nonneg (Int.emod_nonneg i (Int.natCast_ne_zero.mpr (cap_pos p).ne'))

theorem wrap_natCast (p : Params) (n : Nat) : wrap p (n : Int) = n % p.cap := by
  have h := wrap_cast p n
  exact_mod_cast h

theorem wrap_succ (p : Params) (n : Nat) : wrap p ((n : Int) + 1) = (n + 1) % p.cap := by
  have h := wrap_natCast p (n + 1)
  push_cast at h
  exact h

/-- "`wrap(a + b) = wrap(wrap(a) + wrap(b))` for all integers" (R112). -/
theorem wrap_add (p : Params) (a b : Int) : wrap p ((wrap p a : Int) + wrap p b) = wrap p (a + b) := by
  have h : (wrap p ((wrap p a : Int) + wrap p b) : Int) = wrap p (a + b) := by
    simp only [wrap_cast, Int.emod_add_emod, Int.add_emod_emod]
  exact_mod_cast h

theorem wrap_eq_self {p : Params} {n : Nat} (h : n < p.cap) : wrap p (n : Int) = n := by
  rw [wrap_natCast, Nat.mod_eq_of_lt h]

theorem lat_lt (p : Params) (rb : RB) : lat p rb < p.cap := wrap_lt p _

theorem lat_cast (p : Params) (rb : RB) : (lat p rb : Int) = ((rb.wr : Int) - rb.rd) % (p.cap : Int) := wrap_cast p _

/-! ## The generator (R176) -/

theorem rngStep_eq (r : Word) : rngStep r = BitVec.ofNat 32 ((r.toNat * 1664525 + 1013904223) % 2 ^ 32) := by
  have h1 : (1664525 : Word).toNat = 1664525 := rfl
  have h2 : (1013904223 : Word).toNat = 1013904223 := rfl
  apply BitVec.eq_of_toNat_eq
  rw [rngStep, BitVec.toNat_add, BitVec.toNat_mul, BitVec.toNat_ofNat, h1, h2, Nat.mod_add_mod, Nat.mod_mod]

/-! ## The feedback path (R101) -/

/-- A chain changes nothing of BQ but the four delay registers. -/
theorem runChain_bq (c : List Stage) (b : BQ) (t : F32) :
    (runChain c b t).2 = { b with x1 := (runChain c b t).2.x1, x2 := (runChain c b t).2.x2,
                                  y1 := (runChain c b t).2.y1, y2 := (runChain c b t).2.y2 } := by
  induction c generalizing b t with
  | nil => rfl
  | cons st rest ih =>
    cases st
    rw [runChain, ih]
    rfl

theorem feedback_bq (rb : RB) (b : BQ) (i : Nat) :
    (feedback rb b i).2 = { b with x1 := (feedback rb b i).2.x1, x2 := (feedback rb b i).2.x2,
                                   y1 := (feedback rb b i).2.y1, y2 := (feedback rb b i).2.y2 } := runChain_bq _ _ _

/-- With an empty chain the feedback is the raw word times the gain, and BQ stands still. -/
theorem feedback_nil {rb : RB} (h : rb.chain = []) (b : BQ) (i : Nat) :
    feedback rb b i = (fmul (memRead rb.buf i) rb.fbGain, b) := by
  simp [feedback, h, runChain]

/-! ## The end of a command (R16, R17, R83) -/

/-- How a command can end: one response after the old ones, OK or InvalidParameter, the port and the configuration as they
were. -/
structure Ends (s : State) (o : Host.Outcome State Fault Refusal) (t : State) (r : Response) : Prop where
  next      : o = .next t
  responses : t.responses = s.responses ++ [r]
  cfg       : t.cfg = s.cfg
  input     : t.input = s.input
  status    : r.status = .ok ∨ r = { status := .invalidParameter, value := .bits 0 }

theorem ends_ok {s u : State} {v : Value} (hr : u.responses = s.responses) (hc : u.cfg = s.cfg) (hi : u.input = s.input) :
    Ends s (.next (respond .ok v u)) (respond .ok v u) { status := .ok, value := v } :=
  ⟨rfl, by simp [hr], hc, hi, .inl rfl⟩

theorem ends_invalid {s u : State} (hr : u.responses = s.responses) (hc : u.cfg = s.cfg) (hi : u.input = s.input) :
    Ends s (.next (raiseInvalid u)) (raiseInvalid u) { status := .invalidParameter, value := .bits 0 } :=
  ⟨rfl, by simp [raiseInvalid_eq, hr], hc, hi, .inr rfl⟩

theorem ends_bqFinish (s : State) (b : Option BQ) : ∃ t r, Ends s (.next (bqFinish s b)) t r := by
  cases b with
  | none => exact ⟨_, _, ends_invalid rfl rfl rfl⟩
  | some b => exact ⟨_, _, ends_ok rfl rfl rfl⟩

theorem ends_oscCommit (f : F32) (fs : Word) (s : State) : ∃ t r, Ends s (.next (oscCommit f fs s)) t r := by
  unfold oscCommit
  split
  · exact ⟨_, _, ends_ok rfl rfl rfl⟩
  · exact ⟨_, _, ends_invalid rfl rfl rfl⟩

theorem ends_ite {s a b : State} {c : Prop} [Decidable c] (ha : ∃ t r, Ends s (.next a) t r)
    (hb : ∃ t r, Ends s (.next b) t r) : ∃ t r, Ends s (.next (if c then a else b)) t r := by
  split
  · exact ha
  · exact hb

/-- Every command ends, with exactly one response (R17, R83). -/
theorem exec_ends (i : Instr) (s : State) : ∃ t r, Ends s (exec i s) t r := by
  cases i
  case rbPush w => exact ⟨_, _, ends_ok rfl rfl rfl⟩
  case rbPull => exact ⟨_, _, ends_ok rfl rfl rfl⟩
  case rbTap n => exact ends_ite ⟨_, _, ends_invalid rfl rfl rfl⟩ ⟨_, _, ends_ok rfl rfl rfl⟩
  case rbSetDelay n => exact ends_ite ⟨_, _, ends_ok rfl rfl rfl⟩ ⟨_, _, ends_invalid rfl rfl rfl⟩
  case rbSetModRange r => exact ends_ite ⟨_, _, ends_ok rfl rfl rfl⟩ ⟨_, _, ends_invalid rfl rfl rfl⟩
  case rbMapMod x => exact ⟨_, _, ends_ok rfl rfl rfl⟩
  case rbSetFbGain g => exact ends_ite ⟨_, _, ends_ok rfl rfl rfl⟩ ⟨_, _, ends_invalid rfl rfl rfl⟩
  case rbAddFb k =>
    simp only [exec, execRbAddFb]
    split
    · exact ⟨_, _, ends_invalid rfl rfl rfl⟩
    · exact ends_ite ⟨_, _, ends_invalid rfl rfl rfl⟩ ⟨_, _, ends_ok rfl rfl rfl⟩
  case rbGetLat => exact ⟨_, _, ends_ok rfl rfl rfl⟩
  case rbGetMaxLat => exact ⟨_, _, ends_ok rfl rfl rfl⟩
  case bqProc x => exact ⟨_, _, ends_ok rfl rfl rfl⟩
  case bqReset => exact ⟨_, _, ends_ok rfl rfl rfl⟩
  case bqSetKind k =>
    simp only [exec, execBqSetKind]
    split
    · exact ⟨_, _, ends_invalid rfl rfl rfl⟩
    · exact ends_bqFinish _ _
  case bqSetFreq f => exact ends_bqFinish _ _
  case bqSetQ q => exact ends_bqFinish _ _
  case bqSetGain g => exact ends_bqFinish _ _
  case bqSetFs n => exact ends_ite (ends_bqFinish _ _) ⟨_, _, ends_invalid rfl rfl rfl⟩
  case bqSetWet w => exact ends_ite ⟨_, _, ends_ok rfl rfl rfl⟩ ⟨_, _, ends_invalid rfl rfl rfl⟩
  case bqSetDry d => exact ends_ite ⟨_, _, ends_ok rfl rfl rfl⟩ ⟨_, _, ends_invalid rfl rfl rfl⟩
  case oscNext => exact ⟨_, _, ends_ok rfl rfl rfl⟩
  case oscValue => exact ⟨_, _, ends_ok rfl rfl rfl⟩
  case oscValueP ph => exact ends_ite ⟨_, _, ends_ok rfl rfl rfl⟩ ⟨_, _, ends_invalid rfl rfl rfl⟩
  case oscSetWave w =>
    simp only [exec, execOscSetWave]
    split
    · exact ⟨_, _, ends_invalid rfl rfl rfl⟩
    · exact ⟨_, _, ends_ok rfl rfl rfl⟩
  case oscSetFreq f => exact ends_ite (ends_oscCommit _ _ _) ⟨_, _, ends_invalid rfl rfl rfl⟩
  case oscSetFs n => exact ends_ite (ends_oscCommit _ _ _) ⟨_, _, ends_invalid rfl rfl rfl⟩
  case oscSetPhase ph => exact ends_ite ⟨_, _, ends_ok rfl rfl rfl⟩ ⟨_, _, ends_invalid rfl rfl rfl⟩
  case oscSetMin m => exact ends_ite ⟨_, _, ends_ok rfl rfl rfl⟩ ⟨_, _, ends_invalid rfl rfl rfl⟩
  case oscSetMax m => exact ends_ite ⟨_, _, ends_ok rfl rfl rfl⟩ ⟨_, _, ends_invalid rfl rfl rfl⟩

end Sys2Proof.Machine
end

