-- ==== Sys2Proof/Laws/Biquad.lean ====
section
/-! SUPPORT. What the commit of a biquad parameter can do (rule R147), how a NaN moves through the processing step (rule R130),
and that the low-pass set of Q = 1.0 is usable whatever `NUM` gives (rule R14). -/

namespace Sys2Proof.Machine

/-- The model's check is R147's, condition by condition. -/
theorem commit_check_iff {k : Kind} {f q g : F32} {fs : Word} :
    (paramsUsable f q g fs && coefsUsable (coefOf machineNum k f q g fs)) = true ↔ Committable k f q g fs := by
  simp only [paramsUsable, coefsUsable, Bool.and_eq_true, Bool.not_eq_true']
  constructor
  · rintro ⟨⟨⟨⟨h1, h2⟩, h3⟩, h4⟩, ⟨⟨⟨⟨⟨h5, h6⟩, h7⟩, h8⟩, h9⟩, h10⟩, h11⟩
    exact ⟨h1, h2, h3, h4, h5, h6, h7, h8, h9, h10, h11⟩
  · rintro ⟨h1, h2, h3, h4, h5, h6, h7, h8, h9, h10, h11⟩
    exact ⟨⟨⟨⟨h1, h2⟩, h3⟩, h4⟩, ⟨⟨⟨⟨⟨h5, h6⟩, h7⟩, h8⟩, h9⟩, h10⟩, h11⟩

theorem bqCommit_of_committable (b : BQ) {k : Kind} {f q g : F32} {fs : Word} (h : Committable k f q g fs) :
    bqCommit machineNum b k f q g fs =
      some { b with kind := k, f := f, q := q, gainDb := g, fs := fs, coef := coefOf machineNum k f q g fs } :=
  if_pos (commit_check_iff.mpr h)

theorem bqCommit_of_not_committable (b : BQ) {k : Kind} {f q g : F32} {fs : Word} (h : ¬ Committable k f q g fs) :
    bqCommit machineNum b k f q g fs = none :=
  if_neg fun h' => h (commit_check_iff.mp h')

/-! ## NaN -/

@[simp] theorem fmul_nan_right (x : F32) : fmul x .nan = .nan := by cases x <;> rfl
@[simp] theorem fmul_nan_left (x : F32) : fmul .nan x = .nan := rfl
@[simp] theorem fadd_nan_right (x : F32) : fadd x .nan = .nan := by cases x <;> rfl
@[simp] theorem fadd_nan_left (x : F32) : fadd .nan x = .nan := rfl
@[simp] theorem fsub_nan_right (x : F32) : fsub x .nan = .nan := fadd_nan_right x
@[simp] theorem fsub_nan_left (x : F32) : fsub .nan x = .nan := rfl
@[simp] theorem floatValue_nan : floatValue .nan = .someNaN := rfl

/-- A NaN in `y1` gives a NaN output, whatever the operand. -/
theorem bqOutput_nan {b : BQ} (h : b.y1 = .nan) (x : F32) : bqOutput b x = .nan := by
  simp [bqOutput, h]

/-- A response's value read back. -/
@[simp] theorem valueFloat_floatValue (x : F32) : valueFloat (floatValue x) = x := by
  cases x with
  | nan => rfl
  | num s m => exact F32.ofBits_toBits _

/-! ## The bounds of `NUM` at work (R14, R147) -/

/-- "a finite value in [-1, 1]" (R14), on a finite argument. -/
theorem boundTrig_unit (raw : F32 → F32) {v : F32} (h : isfinite v = true) :
    boundTrig raw v ≠ .nan ∧ -2 ^ 149 ≤ (boundTrig raw v).value ∧ (boundTrig raw v).value ≤ 2 ^ 149 := by
  unfold boundTrig
  rw [h, Bool.true_and]
  split
  · rw [value_one]
    exact ⟨one_ne_nan, by norm_num, le_rfl⟩
  · rename_i hn
    simp only [withinUnit, Bool.not_eq_true, Bool.not_eq_false', Bool.and_eq_true, fle_iff, value_one, value_negOne] at hn
    exact ⟨hn.1.2.1, hn.1.2.2, hn.2.2.2⟩

theorem isfinite_of_bounds {x : F32} (h : x ≠ .nan) (hl : -2 ^ 150 ≤ x.value) (hu : x.value ≤ 2 ^ 150) :
    isfinite x = true := by
  refine isfinite_iff.mpr ⟨h, lt_of_le_of_lt (abs_le.mpr ⟨hl, hu⟩) ?_⟩
  exact pow_lt_pow_right₀ (by norm_num) (by norm_num)

/-- With `|c| <= 1` and `|sn| <= 1` at `q = 1.0` the low-pass set is usable. -/
theorem lowPassCoefs_usable {c sn : F32} (hc : c ≠ .nan) (hcl : -2 ^ 149 ≤ c.value) (hcu : c.value ≤ 2 ^ 149)
    (hs : sn ≠ .nan) (hsl : -2 ^ 149 ≤ sn.value) (hsu : sn.value ≤ 2 ^ 149) :
    coefsUsable (lowPassCoefs c (fdiv sn .two)) = true := by
  have f1 : isfinite F32.one = true := by decide
  have f2 : isfinite F32.two = true := by decide
  have fn2 : isfinite F32.negTwo = true := by decide
  have v1 := value_one
  have v2 := value_two
  have vn2 : F32.negTwo.value = -2 ^ 150 := by decide
  have vh := value_half
  have fc := isfinite_of_bounds hc (by linarith) (by linarith)
  have fs := isfinite_of_bounds hs (by linarith) (by linarith)
  have d2 := fdiv_finite fs f2 (by rw [v2]; positivity)
  have nat2 : F32.two.value.natAbs = 2 ^ 150 := by rw [v2]; decide
  have sg2 : F32.two.value.sign = 1 := by rw [v2]; decide
  rw [nat2, sg2, Int.mul_one] at d2
  obtain ⟨an, av⟩ := d2
  set alpha := fdiv sn .two with halpha
  have au : alpha.value ≤ 2 ^ 148 := by
    rw [av, ← vh]
    exact roundInt_le (by positivity) (by decide) (by rw [vh]; push_cast; nlinarith)
  have al : -2 ^ 148 ≤ alpha.value := by
    have : (fneg F32.half).value = -2 ^ 148 := by rw [value_fneg, vh]
    rw [av, ← this]
    exact le_roundInt (by positivity) (by decide) (by rw [this]; push_cast; nlinarith)
  have fa := isfinite_of_bounds an (by linarith) (by linarith)
  have bound : ∀ x : F32, x ≠ .nan → F32.half.value ≤ x.value → x.value ≤ F32.two.value →
      isfinite x = true ∧ feq x .zero = false := by
    intro x hx h1 h2
    rw [vh] at h1; rw [v2] at h2
    refine ⟨isfinite_of_bounds hx (by linarith) h2, ?_⟩
    rw [Bool.eq_false_iff, ne_eq, feq_iff, value_zero]
    rintro ⟨-, -, h⟩
    rw [h] at h1
    norm_num at h1
  obtain ⟨p0, p1⟩ := fadd_finite f1 fa
  obtain ⟨m0, m1⟩ := fsub_finite f1 fa
  obtain ⟨b0, b1⟩ := fsub_finite f1 fc
  obtain ⟨t0, t1⟩ := fmul_finite fn2 fc
  rw [v1] at p1 m1 b1
  rw [vn2] at t1
  have ha0 := bound _ p0 (by rw [p1]; exact le_roundInt (by decide) (by decide) (by rw [vh]; push_cast; linarith))
    (by rw [p1]; exact roundInt_le (by decide) (by decide) (by rw [v2]; push_cast; linarith))
  have ha2 := bound _ m0 (by rw [m1]; exact le_roundInt (by decide) (by decide) (by rw [vh]; push_cast; linarith))
    (by rw [m1]; exact roundInt_le (by decide) (by decide) (by rw [v2]; push_cast; linarith))
  have hb1l : 0 ≤ (fsub F32.one c).value := by
    rw [b1, ← value_zero]; exact le_roundInt (by decide) (by decide) (by rw [value_zero]; push_cast; linarith)
  have hb1u : (fsub F32.one c).value ≤ 2 ^ 150 := by
    rw [b1, ← v2]; exact roundInt_le (by decide) (by decide) (by rw [v2]; push_cast; linarith)
  have fb1 := isfinite_of_bounds b0 (by linarith) hb1u
  obtain ⟨q0, q1⟩ := fdiv_finite fb1 f2 (by rw [v2]; positivity)
  rw [nat2, sg2, Int.mul_one] at q1
  have fb0 : isfinite (fdiv (fsub F32.one c) .two) = true := by
    apply isfinite_of_bounds q0
    · rw [q1]
      refine le_trans (by norm_num) (b := F32.zero.value) ?_
      exact le_roundInt (by positivity) (by decide) (by rw [value_zero]; push_cast; linarith)
    · rw [q1]
      refine le_trans ?_ (b := F32.one.value) (by rw [v1]; norm_num)
      exact roundInt_le (by positivity) (by decide) (by rw [v1]; push_cast; linarith)
  have fa1 : isfinite (fmul .negTwo c) = true := by
    apply isfinite_of_bounds t0
    · rw [t1, ← vn2]
      exact le_roundInt (by positivity) (by decide) (by rw [vn2]; push_cast; linarith)
    · rw [t1, ← v2]
      exact roundInt_le (by positivity) (by decide) (by rw [v2]; push_cast; linarith)
  simp only [coefsUsable, lowPassCoefs, fb0, fb1, ha0.1, ha2.1, fa1, ha0.2, Bool.and_self, Bool.not_false]

end Sys2Proof.Machine
end

