-- ==== Sys2Proof/Laws/Domain.lean ====
section
/-! SUPPORT. What the shared domain operations can do: the bounds a legal configuration gives, the clamp of the modulation offset
(rule R106), the operand of `RB_MAPMOD` (rule R107), the sample rates read as I32 (rule R82). -/

namespace Sys2Proof.Machine

/-- `CAP <= 2^24` (R11). -/
theorem cap_le_of_wf {p : Params} (h : p.wf = true) : p.cap ≤ 2 ^ 24 := by
  simp only [Params.wf, Bool.and_eq_true, decide_eq_true_eq] at h
  exact Nat.pow_le_pow_right (by decide) h.1.1.1.1.1.2

theorem isfinite_of_abs {x : F32} (h : x ≠ .nan) (hb : |x.value| < 2 ^ 277) : isfinite x = true :=
  isfinite_iff.mpr ⟨h, hb⟩

/-- A value from 0 up to an integer of at most 2^24 is finite. -/
theorem isfinite_of_fle_u2f {r : F32} {n : Nat} (hn : n ≤ 2 ^ 24) (h0 : fle .zero r = true) (h : fle r (u2f n) = true) :
    isfinite r = true := by
  rw [fle_iff] at h h0
  rw [value_zero] at h0
  rw [u2f_exact hn] at h
  apply isfinite_of_abs h.1
  rw [abs_of_nonneg h0.2.2]
  calc r.value ≤ (n : Int) * 2 ^ 149 := h.2.2
    _ ≤ 2 ^ 24 * 2 ^ 149 := by exact_mod_cast Nat.mul_le_mul_right _ hn
    _ = 2 ^ (24 + 149) := (pow_add 2 24 149).symm
    _ < 2 ^ 277 := pow_lt_pow_right₀ (by decide) (by decide)

/-- The clamped offset lies in `[-r, +r]`. -/
theorem clampOffset_bounds {v r : F32} (hv : v ≠ .nan) (hr : fle .zero r = true) :
    fle (fneg r) (clampOffset v r) = true ∧ fle (clampOffset v r) r = true := by
  rw [fle_iff] at hr
  obtain ⟨_, hn, h0⟩ := hr
  rw [value_zero] at h0
  have hnn : fneg r ≠ .nan := by rwa [ne_eq, fneg_eq_nan]
  have hvn := value_fneg r
  unfold clampOffset
  by_cases h1 : flt r v = true
  · rw [if_pos h1, if_neg (by rw [flt_iff]; omega)]
    exact ⟨fle_iff.mpr ⟨hnn, hn, by omega⟩, fle_iff.mpr ⟨hn, hn, le_rfl⟩⟩
  · rw [if_neg h1]
    rw [flt_iff] at h1
    by_cases h2 : flt v (fneg r) = true
    · rw [if_pos h2]
      exact ⟨fle_iff.mpr ⟨hnn, hnn, le_rfl⟩, fle_iff.mpr ⟨hnn, hn, by omega⟩⟩
    · rw [if_neg h2]
      rw [flt_iff] at h2
      exact ⟨fle_iff.mpr ⟨hnn, hv, by by_contra h; exact h2 ⟨hv, hnn, by omega⟩⟩,
        fle_iff.mpr ⟨hv, hn, by by_contra h; exact h1 ⟨hn, hv, by omega⟩⟩⟩

/-- A value that is not NaN, clamped to [-1, 1] as R107 writes it. -/
theorem clampUnit_bounds {y : F32} (hy : y ≠ .nan) :
    (if flt (if flt .one y then F32.one else y) .negOne then F32.negOne else (if flt .one y then F32.one else y)) ≠ .nan ∧
    |(if flt (if flt .one y then F32.one else y) .negOne then F32.negOne else (if flt .one y then F32.one else y)).value|
      ≤ 2 ^ 149 := by
  have e1 : ¬ flt F32.one F32.negOne = true := by decide
  by_cases h1 : flt .one y = true
  · rw [if_pos h1, if_neg e1]
    exact ⟨one_ne_nan, by rw [value_one, abs_of_nonneg (by positivity)]⟩
  · rw [if_neg h1]
    by_cases h2 : flt y .negOne = true
    · rw [if_pos h2]
      exact ⟨by decide, by rw [value_negOne, abs_neg, abs_of_nonneg (by positivity)]⟩
    · rw [if_neg h2]
      rw [flt_iff, value_one] at h1
      rw [flt_iff, value_negOne] at h2
      refine ⟨hy, abs_le.mpr ⟨?_, ?_⟩⟩
      · by_contra h; exact h2 ⟨hy, by decide, by omega⟩
      · by_contra h; exact h1 ⟨by decide, hy, by omega⟩

/-- The operand `RB_MAPMOD` scales with is finite and in [-1, 1], whatever the host sends. -/
theorem modInput_bounds (x : F32) : isfinite (modInput x) = true ∧ |(modInput x).value| ≤ 2 ^ 149 := by
  have hy : (if isnan x then F32.zero else x) ≠ .nan := by
    cases x with
    | nan => decide
    | num s m => simp [isnan]
  obtain ⟨h1, h2⟩ := clampUnit_bounds hy
  exact ⟨isfinite_of_abs h1 (h2.trans_lt (pow_lt_pow_right₀ (by decide) (by decide))), h2⟩

/-- "The result satisfies `|modOffset| <= modRange`" (R107(d)). -/
theorem fmul_modInput_bounds {r : F32} (hf : isfinite r = true) (h0 : fle .zero r = true) (x : F32) :
    fle (fneg r) (fmul r (modInput x)) = true ∧ fle (fmul r (modInput x)) r = true := by
  obtain ⟨hx, hb⟩ := modInput_bounds x
  obtain ⟨h1, h2⟩ := abs_fmul_le hf hx hb
  rw [fle_iff, value_zero] at h0
  rw [abs_of_nonneg h0.2.2, abs_le] at h2
  exact ⟨fle_iff.mpr ⟨by rw [ne_eq, fneg_eq_nan]; exact h0.2.1, h1, by rw [value_fneg]; exact h2.1⟩,
    fle_iff.mpr ⟨h1, h0.2.1, h2.2⟩⟩

/-- An accepted sample rate as a natural number. -/
theorem positiveI32_bounds {w : Word} (h : positiveI32 w = true) : 1 ≤ w.toNat ∧ w.toNat < 2 ^ 31 := by
  simp only [positiveI32, decide_eq_true_eq, BitVec.toInt_eq_toNat_cond] at h
  have := w.isLt
  split at h <;> omega

end Sys2Proof.Machine
end

