-- ==== Sys2Proof/Laws/Encoding.lean ====
section
/-! SUPPORT. A command word and its two fields determine each other; a format N command is accepted only with a zero
operand. -/

namespace Sys2Proof

theorem commandWord_toNat (op : BitVec 8) (arg : Word) :
    (commandWord op arg).toNat = op.toNat * 2 ^ 32 + arg.toNat := by
  unfold commandWord
  rw [BitVec.toNat_append, Nat.shiftLeft_eq, ← Nat.shiftLeft_eq, Nat.shiftLeft_add_eq_or_of_lt arg.isLt, Nat.shiftLeft_eq]

@[simp] theorem commandWord_opcode (op : BitVec 8) (arg : Word) : (commandWord op arg).extractLsb' 32 8 = op := by
  apply BitVec.eq_of_toNat_eq
  rw [BitVec.extractLsb'_toNat, commandWord_toNat, Nat.shiftRight_eq_div_pow]
  have := arg.isLt
  have := op.isLt
  omega

@[simp] theorem commandWord_operand (op : BitVec 8) (arg : Word) : (commandWord op arg).extractLsb' 0 32 = arg := by
  apply BitVec.eq_of_toNat_eq
  rw [BitVec.extractLsb'_toNat, commandWord_toNat, Nat.shiftRight_zero]
  have := arg.isLt
  omega

/-- The fields of a word built from its fields. -/
@[simp] theorem rawCommand_commandWord (op : BitVec 8) (arg : Word) :
    rawCommand (commandWord op arg) = { opcode := op, operand := arg } := by
  simp [rawCommand]

/-- A word is built from its two fields: no bit of it is outside them. -/
theorem commandWord_rawCommand (c : CommandWord) : commandWord (rawCommand c).opcode (rawCommand c).operand = c := by
  apply BitVec.eq_of_toNat_eq
  rw [commandWord_toNat]
  simp only [rawCommand, BitVec.extractLsb'_toNat, Nat.shiftRight_eq_div_pow]
  have := c.isLt
  omega

theorem noOperand_eq_ok {arg : Word} {i j : Instr} : noOperand arg i = .ok j ↔ arg = 0 ∧ i = j := by
  unfold noOperand
  split <;> simp_all

theorem noOperand_eq_error {arg : Word} {i : Instr} {e : IllegalWord} :
    noOperand arg i = .error e ↔ arg ≠ 0 ∧ .operandNotZero = e := by
  unfold noOperand
  split <;> simp_all

/-! ## Legal words, by the format of the opcode (R85) -/

theorem wf_of_float {op : BitVec 8} (arg : Word) (h : opcodeFormat op = some .float) :
    (rawCommand (commandWord op arg)).wf = true := by
  rw [rawCommand_commandWord]; unfold RawCommand.wf; rw [h]

theorem wf_of_int {op : BitVec 8} (arg : Word) (h : opcodeFormat op = some .int) :
    (rawCommand (commandWord op arg)).wf = true := by
  rw [rawCommand_commandWord]; unfold RawCommand.wf; rw [h]

theorem wf_of_none {op : BitVec 8} (h : opcodeFormat op = some .none) :
    (rawCommand (commandWord op 0)).wf = true := by
  rw [rawCommand_commandWord]; unfold RawCommand.wf; rw [h]; rfl

end Sys2Proof
end

