-- ==== Sys2Proof/Laws/PerInstr.lean ====
section
/-! SUPPORT. Per command: the word the encoder writes is a legal command word (rules R84, R85). -/

namespace Sys2Proof.Laws.EncodesLegally

/-- The encoding of a command is well formed: its opcode is one of R84's, and its operand is zero where the format is N. -/
def Statement (i : Instr) : Prop := (rawCommand (encode i)).wf = true

theorem rbPush (w : Word) : Statement (.rbPush w) := wf_of_float w rfl
theorem rbPull : Statement .rbPull := wf_of_none rfl
theorem rbTap (w : Word) : Statement (.rbTap w) := wf_of_int w rfl
theorem rbSetDelay (w : Word) : Statement (.rbSetDelay w) := wf_of_int w rfl
theorem rbSetModRange (w : Word) : Statement (.rbSetModRange w) := wf_of_float w rfl
theorem rbMapMod (w : Word) : Statement (.rbMapMod w) := wf_of_float w rfl
theorem rbSetFbGain (w : Word) : Statement (.rbSetFbGain w) := wf_of_float w rfl
theorem rbAddFb (w : Word) : Statement (.rbAddFb w) := wf_of_int w rfl
theorem rbGetLat : Statement .rbGetLat := wf_of_none rfl
theorem rbGetMaxLat : Statement .rbGetMaxLat := wf_of_none rfl
theorem bqProc (w : Word) : Statement (.bqProc w) := wf_of_float w rfl
theorem bqReset : Statement .bqReset := wf_of_none rfl
theorem bqSetKind (w : Word) : Statement (.bqSetKind w) := wf_of_int w rfl
theorem bqSetFreq (w : Word) : Statement (.bqSetFreq w) := wf_of_float w rfl
theorem bqSetQ (w : Word) : Statement (.bqSetQ w) := wf_of_float w rfl
theorem bqSetGain (w : Word) : Statement (.bqSetGain w) := wf_of_float w rfl
theorem bqSetFs (w : Word) : Statement (.bqSetFs w) := wf_of_int w rfl
theorem bqSetWet (w : Word) : Statement (.bqSetWet w) := wf_of_float w rfl
theorem bqSetDry (w : Word) : Statement (.bqSetDry w) := wf_of_float w rfl
theorem oscNext : Statement .oscNext := wf_of_none rfl
theorem oscValue : Statement .oscValue := wf_of_none rfl
theorem oscValueP (w : Word) : Statement (.oscValueP w) := wf_of_float w rfl
theorem oscSetWave (w : Word) : Statement (.oscSetWave w) := wf_of_int w rfl
theorem oscSetFreq (w : Word) : Statement (.oscSetFreq w) := wf_of_float w rfl
theorem oscSetFs (w : Word) : Statement (.oscSetFs w) := wf_of_int w rfl
theorem oscSetPhase (w : Word) : Statement (.oscSetPhase w) := wf_of_float w rfl
theorem oscSetMin (w : Word) : Statement (.oscSetMin w) := wf_of_float w rfl
theorem oscSetMax (w : Word) : Statement (.oscSetMax w) := wf_of_float w rfl

end Sys2Proof.Laws.EncodesLegally
end

