-- ==== Sys2Proof/Tests/Slice0.lean ====
section
/-! SUPPORT. Tests. The expected results are the worked examples of spec/95_test_vectors.md (named in each comment), never the
model's own answers; and one witness per obligation with hypotheses, at the end. -/

namespace Sys2Proof.Tests

set_option Elab.async false

open Sys2Proof Sys2Proof.Machine

/-! ## Well-formedness smoke: an ill-formed term for each check -/

theorem test_wf_rejects_opcode : RawCommand.wf { opcode := 0x1A, operand := 0 } = false := by decide
theorem test_wf_rejects_operand : RawCommand.wf { opcode := 0x11, operand := 0x80000000 } = false := by decide
theorem test_wf_accepts : RawCommand.wf { opcode := 0x11, operand := 0 } = true ∧
    RawCommand.wf { opcode := 0x10, operand := 0xFFFFFFFF } = true ∧
    RawCommand.wf { opcode := 0x12, operand := 0xFFFFFFFF } = true := by decide

theorem test_params_rejects_log2cap : Params.wf { Config.defaults with log2cap := 0 } = false ∧
    Params.wf { Config.defaults with log2cap := 25 } = false := by decide
theorem test_params_rejects_initDelay : Params.wf { Config.defaults with initDelay := 0 } = false ∧
    Params.wf { Config.defaults with initDelay := 8 } = false := by decide
theorem test_params_rejects_fbMax : Params.wf { Config.defaults with fbMax := 256 } = false := by decide
theorem test_params_rejects_fsReset : Params.wf { Config.defaults with fsReset := 0 } = false ∧
    Params.wf { Config.defaults with fsReset := 16777216 } = false := by decide

theorem test_memory_rejects_order : Memory.wf 8 [(3, .one), (1, .two)] = false := by decide
theorem test_memory_rejects_repeat : Memory.wf 8 [(3, .one), (3, .two)] = false := by decide
theorem test_memory_rejects_zero : Memory.wf 8 [(3, .zero)] = false := by decide
theorem test_memory_rejects_range : Memory.wf 8 [(8, .one)] = false := by decide
theorem test_memory_write_zero_unlists : memWrite [(3, .one), (5, .two)] 3 .zero = [(5, .two)] := by decide

/-! ## Decoding: words written out from R80 and R84 -/

theorem test_decode_rb :
    decode 0b0001000000111111100000000000000000000000#40 = .ok (.rbPush 0x3F800000) ∧
    decode 0b0001000100000000000000000000000000000000#40 = .ok .rbPull ∧
    decode 0b0001001000000000000000000000000000000011#40 = .ok (.rbTap 3) ∧
    decode 0b0001001111111111111111111111111111111111#40 = .ok (.rbSetDelay 4294967295) ∧
    decode 0b0001010001000000011000000000000000000000#40 = .ok (.rbSetModRange 0x40600000) ∧
    decode 0b0001010110111110100000000000000000000000#40 = .ok (.rbMapMod 0xBE800000) ∧
    decode 0b0001011010000000000000000000000000000000#40 = .ok (.rbSetFbGain 0x80000000) ∧
    decode 0b0001011100000000000000000000000000000001#40 = .ok (.rbAddFb 1) ∧
    decode 0b0001100000000000000000000000000000000000#40 = .ok .rbGetLat ∧
    decode 0b0001100100000000000000000000000000000000#40 = .ok .rbGetMaxLat :=
  ⟨rfl, rfl, rfl, rfl, rfl, rfl, rfl, rfl, rfl, rfl⟩

theorem test_decode_bq :
    decode 0b0010000010000000000000000000000000000000#40 = .ok (.bqProc 0x80000000) ∧
    decode 0b0010000100000000000000000000000000000000#40 = .ok .bqReset ∧
    decode 0b0010001000000000000000000000000000000110#40 = .ok (.bqSetKind 6) ∧
    decode 0b0010001101000000000000000000000000000000#40 = .ok (.bqSetFreq 0x40000000) ∧
    decode 0b0010010000111111000000000000000000000000#40 = .ok (.bqSetQ 0x3F000000) ∧
    decode 0b0010010101000010001000000000000000000000#40 = .ok (.bqSetGain 0x42200000) ∧
    decode 0b0010011000000000000000000000000000001000#40 = .ok (.bqSetFs 8) ∧
    decode 0b0010011100111110100000000000000000000000#40 = .ok (.bqSetWet 0x3E800000) ∧
    decode 0b0010100000111111010000000000000000000000#40 = .ok (.bqSetDry 0x3F400000) :=
  ⟨rfl, rfl, rfl, rfl, rfl, rfl, rfl, rfl, rfl⟩

theorem test_decode_osc :
    decode 0b0011000000000000000000000000000000000000#40 = .ok .oscNext ∧
    decode 0b0011000100000000000000000000000000000000#40 = .ok .oscValue ∧
    decode 0b0011001000111110100000000000000000000000#40 = .ok (.oscValueP 0x3E800000) ∧
    decode 0b0011001100000000000000000000000000000100#40 = .ok (.oscSetWave 4) ∧
    decode 0b0011010001000001100000000000000000000000#40 = .ok (.oscSetFreq 0x41800000) ∧
    decode 0b0011010110000000000000000000000000000000#40 = .ok (.oscSetFs 0x80000000) ∧
    decode 0b0011011000111111100000000000000000000000#40 = .ok (.oscSetPhase 0x3F800000) ∧
    decode 0b0011011110111111100000000000000000000000#40 = .ok (.oscSetMin 0xBF800000) ∧
    decode 0b0011100011000000000000000000000000000000#40 = .ok (.oscSetMax 0xC0000000) :=
  ⟨rfl, rfl, rfl, rfl, rfl, rfl, rfl, rfl, rfl⟩

/-- Table ENC: illegal opcodes at both ends of every gap, and format N with a non-zero operand. -/
theorem test_decode_illegal :
    decode 0x0000000000#40 = .error .opcodeNotDefined ∧ decode 0x0F00000000#40 = .error .opcodeNotDefined ∧
    decode 0x1A00000000#40 = .error .opcodeNotDefined ∧ decode 0x1F3F800000#40 = .error .opcodeNotDefined ∧
    decode 0x2900000000#40 = .error .opcodeNotDefined ∧ decode 0x2F00000000#40 = .error .opcodeNotDefined ∧
    decode 0x3900000000#40 = .error .opcodeNotDefined ∧ decode 0xFFFFFFFFFF#40 = .error .opcodeNotDefined ∧
    decode 0x1180000000#40 = .error .operandNotZero ∧ decode 0x3000000001#40 = .error .operandNotZero :=
  ⟨rfl, rfl, rfl, rfl, rfl, rfl, rfl, rfl, rfl, rfl⟩

theorem test_decode_table_word : decodeTableWord 40 0x1200000003 = some (.rbTap 3) := rfl

/-! ## One word presented -/

/-- The state after the host presents one command word. -/
def after (c : CommandWord) (s : State) : State :=
  match step { s with input := [.command c] } with
  | .next t => t
  | .fault _ => s
  | .refused _ => s

/-- The response to that word. -/
def answer (c : CommandWord) (s : State) : Option Response := (after c s).responses.getLast?

/-- `OK v` -/
def ok (w : Word) : Option Response := some { status := .ok, value := .bits w }

/-- `OK NaN` -/
def okNaN : Option Response := some { status := .ok, value := .someNaN }

/-- `InvalidParameter 0x00000000` -/
def invalid : Option Response := some { status := .invalidParameter, value := .bits 0 }

/-- The value with the given bits. -/
def f (w : Word) : F32 := F32.ofBits w

/-- The reset state with RB changed. -/
def withRB (r : RB) : State := { State.reset with rb := r }

/-- The reset state with BQ changed. -/
def withBQ (b : BQ) : State := { State.reset with bq := b }

/-- The reset state with OSC changed. -/
def withOSC (o : OSC) : State := { State.reset with osc := o }

/-- RB of sequence RB-A after line 15: 5.0, 6.0, 7.0 pushed, latency 6. -/
def rbA : RB := { RB.reset Config.defaults with
  buf := [(0, f 0x40A00000), (1, f 0x40C00000), (2, f 0x40E00000)], wr := 3, rd := 5, delay := 3 }

/-- RB of sequence RB-B after line 2: 1.0 to 8.0 pushed, delay 4, range 2.5. -/
def rbB : RB := { RB.reset Config.defaults with
  buf := [(0, f 0x3F800000), (1, f 0x40000000), (2, f 0x40400000), (3, f 0x40800000),
          (4, f 0x40A00000), (5, f 0x40C00000), (6, f 0x40E00000), (7, f 0x41000000)]
  wr := 0, rd := 4, delay := 4, modRange := f 0x40200000 }

/-! ## RB -/

/-- S1, round 0. -/
theorem test_push : (after 0x103F800000 State.reset).rb.buf = [(0, f 0x3F800000)] ∧
    (after 0x103F800000 State.reset).rb.wr = 1 := by decide +kernel

/-- RB-C, row 3: an infinity at the read head times zero gain is NaN. -/
theorem test_push_infinity_feeds_nan : memRead (after 0x103F800000
    (withRB { RB.reset Config.defaults with buf := [(0, f 0x7F800000)], wr := 1, rd := 0 })).rb.buf 1 = .nan := by decide

/-- RB-B, line 5: a negative offset, `i0 = -1`. -/
theorem test_pull_negative_offset : answer 0x1100000000 (withRB { rbB with modOffset := f 0xBF200000 }) = ok 0x408C0000 ∧
    (after 0x1100000000 (withRB { rbB with modOffset := f 0xBF200000 })).rb.rd = 5 := by decide

/-- RB-B, line 9: across the end of the store. -/
theorem test_pull_wraps : answer 0x1100000000 (withRB { rbB with rd := 6, modOffset := f 0x40200000 }) = ok 0x3FC00000 := by
  decide

/-- RB-A, lines 18 and 20. -/
theorem test_tap : answer 0x1200000003 (withRB rbA) = ok 0x40A00000 := by decide
theorem test_tap_at_latency : answer 0x1200000006 (withRB rbA) = invalid := by decide

/-- RB-A, lines 6 to 8. -/
theorem test_setdelay : (after 0x1300000007 State.reset).rb.rd = 1 ∧ (after 0x1300000007 State.reset).rb.delay = 7 := by
  decide
theorem test_setdelay_rejects : answer 0x1300000008 State.reset = invalid ∧
    answer 0x13FFFFFFFF State.reset = invalid := by decide

/-- S7: equality with the latency is accepted, and RB-B, line 15: a rejection stores +0.0 and clamps the offset to -0.0. -/
theorem test_setmodrange : (after 0x1440400000 (withRB { RB.reset Config.defaults with rd := 5 })).rb.modRange = f 0x40400000 := by
  decide
theorem test_setmodrange_rejects :
    let t := after 0x143F800000 (withRB { rbB with rd := 0, modOffset := f 0xC0200000 })
    t.responses.getLast? = invalid ∧ t.rb.modRange = f 0 ∧ t.rb.modOffset = f 0x80000000 := by decide

/-- RB-B, lines 10 and 12. -/
theorem test_mapmod_nan : (after 0x157FC00000 (withRB rbB)).rb.modOffset = f 0 := by decide
theorem test_mapmod_clamps : (after 0x15C0E00000 (withRB rbB)).rb.modOffset = f 0xC0200000 := by decide +kernel

/-- RB-D, lines 3 and 4. -/
theorem test_setfbgain_negzero : (after 0x1680000000 State.reset).rb.fbGain = f 0x80000000 := by decide
theorem test_setfbgain_rejects : answer 0x163FC00000 State.reset = invalid := by decide

/-- RB-E, lines 6 and 8, and the fifth stage. -/
theorem test_addfb : (after 0x1700000001 State.reset).rb.chain = [.biquad] ∧
    answer 0x1700000002 State.reset = invalid := by decide
theorem test_addfb_full : answer 0x1700000001
    (withRB { RB.reset Config.defaults with chain := [.biquad, .biquad, .biquad, .biquad] }) = invalid := by decide

/-- RB-A, line 16; RB-B, line 3. -/
theorem test_getlat : answer 0x1800000000 (withRB rbA) = ok 6 := by decide
theorem test_getmaxlat : answer 0x1900000000 (withRB rbB) = ok 0x40D00000 := by decide

/-! ## BQ -/

/-- The coefficients of BQ-K set 1, LowPass row. -/
def lowPass1 : Coefs :=
  { b0 := f 0x3F000000, b1 := f 0x3F800000, b2 := f 0x3F000000, a0 := f 0x40000000, a1 := f 0x33BBBD2E, a2 := f 0 }

/-- RB-E, round 4: the push sends `buf[2] = 0.25` through the stage and stores 0x3E9FFFFF. -/
theorem test_push_runs_stage :
    let t := after 0x1000000000 { State.reset with
      rb := { RB.reset Config.defaults with buf := [(2, f 0x3E800000)], wr := 4, rd := 2, fbGain := .one, chain := [.biquad] }
      bq := { BQ.reset Config.defaults with coef := lowPass1, x1 := f 0, x2 := f 0x3F800000, y1 := f 0x3F000000,
                                            y2 := f 0x3E800000 } }
    memRead t.rb.buf 4 = f 0x3E9FFFFF ∧ t.bq.x1 = f 0x3E800000 ∧ t.bq.y1 = f 0x3E9FFFFF ∧ t.bq.y2 = f 0x3F000000 := by decide +kernel

/-- BQ-A, line 22; line 4. -/
theorem test_proc : answer 0x203F800000 (withBQ { BQ.reset Config.defaults with
    coef := lowPass1, x1 := f 0x3F800000, y1 := f 0x3F800000 }) = ok 0x3F3FFFFF := by decide
theorem test_proc_infinity : answer 0x207F800000 State.reset = okNaN ∧
    (after 0x207F800000 State.reset).bq.y1 = f 0x7F800000 := by decide

/-- BQ-A, line 6. -/
theorem test_bq_reset : (after 0x2100000000 (withBQ { BQ.reset Config.defaults with y1 := .nan, y2 := .one })).bq =
    BQ.reset Config.defaults := by decide

/-- BQ-A, lines 26, 8, 9, 18, 33: rejections that need no `NUM`. -/
theorem test_setkind_rejects : answer 0x2200000007 State.reset = invalid := by decide
theorem test_bq_setfreq_rejects : answer 0x2346BB8000 State.reset = invalid ∧ answer 0x237FC00000 State.reset = invalid := by
  decide
theorem test_setq_rejects : answer 0x2400000000 State.reset = invalid := by decide
theorem test_setgain_rejects : answer 0x257F800000 State.reset = invalid := by decide
theorem test_bq_setfs_rejects : answer 0x2600000008 State.reset = invalid ∧ answer 0x2680000000 State.reset = invalid := by
  decide

/-- BQ-A, lines 46 to 49. -/
theorem test_setwet : (after 0x273E800000 State.reset).bq.wet = f 0x3E800000 ∧ answer 0x2740000000 State.reset = invalid := by
  decide
theorem test_setdry : (after 0x283F400000 State.reset).bq.dry = f 0x3F400000 ∧ answer 0x28BF000000 State.reset = invalid := by
  decide

/-- BQ-K, set 2, from the `c`, `alpha` and `A` it lists. -/
theorem test_coef_lowPass : lowPassCoefs (f 0x3F7DCF55) (f 0x3DBD0CF9) =
    { b0 := f 0x3B8C2AC0, b1 := f 0x3C0C2AC0, b2 := f 0x3B8C2AC0,
      a0 := f 0x3F8BD0D0, a1 := f 0xBFFDCF55, a2 := f 0x3F685E61 } := by decide +kernel
theorem test_coef_highPass : highPassCoefs (f 0x3F7DCF55) (f 0x3DBD0CF9) =
    { b0 := f 0x3F7EE7AA, b1 := f 0xBFFEE7AA, b2 := f 0x3F7EE7AA,
      a0 := f 0x3F8BD0D0, a1 := f 0xBFFDCF55, a2 := f 0x3F685E61 } := by decide +kernel
theorem test_coef_bandPass : bandPassCoefs (f 0x3F7DCF55) (f 0x3DBD0CF9) =
    { b0 := f 0x3DBD0CF9, b1 := f 0, b2 := f 0xBDBD0CF9,
      a0 := f 0x3F8BD0D0, a1 := f 0xBFFDCF55, a2 := f 0x3F685E61 } := by decide +kernel
theorem test_coef_notch : notchCoefs (f 0x3F7DCF55) (f 0x3DBD0CF9) =
    { b0 := f 0x3F800000, b1 := f 0xBFFDCF55, b2 := f 0x3F800000,
      a0 := f 0x3F8BD0D0, a1 := f 0xBFFDCF55, a2 := f 0x3F685E61 } := by decide +kernel
theorem test_coef_lowShelf : lowShelfCoefs (f 0x3FB4CE08) (f 0x3F7DCF55) (f 0x3DBD0CF9) =
    { b0 := f 0x4048F5C7, b1 := f 0xC0B2F05F, b2 := f 0x402149A5,
      a0 := f 0x40429F34, a1 := f 0xC0B37BE0, a2 := f 0x40268936 } := by decide +kernel
theorem test_coef_highShelf : highShelfCoefs (f 0x3FB4CE08) (f 0x3F7DCF55) (f 0x3DBD0CF9) =
    { b0 := f 0x40897493, b1 := f 0xC0FD871A, b2 := f 0x406B3D03,
      a0 := f 0x400E44D2, a1 := f 0xC07D5BB0, a2 := f 0x3FE45DA9 } := by decide +kernel
theorem test_coef_peaking : peakingCoefs (f 0x3FB4CE08) (f 0x3F7DCF55) (f 0x3DBD0CF9) =
    { b0 := f 0x3F90B0A9, b1 := f 0xBFFDCF55, b2 := f 0x3F5E9EAF,
      a0 := f 0x3F885D67, a1 := f 0xBFFDCF55, a2 := f 0x3F6F4532 } := by decide +kernel

/-- BQ-K, sets 1 and 2: `w0`. -/
theorem test_omega : omega (f 0x40000000) 8 = f 0x3FC90FDB ∧ omega (f 0x447A0000) 48000 = f 0x3E060A92 := by decide +kernel

/-! ## OSC -/

/-- OSC with `spc = 8`, at a given progress. -/
def osc8 (n : Word) : OSC := { OSC.reset Config.defaults with fs := 8, spc := 8, progress := n }

/-- Table ENC (`spc = 48000`); OSC-C, call 2: the wrap steps `rng`. -/
theorem test_osc_next : answer 0x3000000000 State.reset = ok 0x392EC161 := by decide
theorem test_osc_next_wraps :
    let t := after 0x3000000000 (withOSC { OSC.reset Config.defaults with wave := .random, fs := 2, spc := 2, progress := 1 })
    t.osc.progress = 0 ∧ t.osc.rng = 0x3C6EF35F ∧ t.responses.getLast? = ok 0x3E71BBCC := by decide

/-- OSC-A, line 5. -/
theorem test_osc_value : answer 0x3100000000 (withOSC (osc8 2)) = ok 0x3F800000 := by decide

/-- OSC-A, line 8; OSC-B, saw: the position 1.0. -/
theorem test_osc_valuep : answer 0x3240600000 (withOSC (osc8 2)) = ok 0xBF800000 ∧
    answer 0x327F800000 (withOSC (osc8 2)) = invalid := by decide
theorem test_osc_position_one : answer 0x32AEDBE6FF (withOSC { osc8 0 with wave := .saw }) = ok 0x3F800000 := by decide

/-- S6: triangle and square at `progress = 5`. -/
theorem test_osc_shapes : answer 0x3000000000 (withOSC { osc8 4 with wave := .triangle }) = ok 0x3F400000 ∧
    answer 0x3000000000 (withOSC { osc8 4 with wave := .square }) = ok 0 := by decide

/-- OSC-A, lines 20 and 22. -/
theorem test_osc_setwave : (after 0x3300000003 State.reset).osc.wave = .saw ∧ answer 0x3300000005 State.reset = invalid := by
  decide

/-- OSC-A, lines 36, 37 and 41. -/
theorem test_osc_setfreq : (after 0x3441800000 (withOSC (osc8 6))).osc.spc = 1 ∧
    (after 0x3441800000 (withOSC (osc8 6))).osc.progress = 0 ∧ answer 0x3441880000 (withOSC (osc8 6)) = invalid := by decide
theorem test_osc_setfreq_tie : (after 0x34404CCCCD (withOSC (osc8 0))).osc.spc = 3 := by decide

/-- OSC-D (a) on `OSC_SETFS`, and OSC-A, lines 44 and 45. -/
theorem test_osc_setfs : (after 0x3500000004 (withOSC (osc8 6))).osc.progress = 2 ∧
    answer 0x3580000000 (withOSC (osc8 6)) = invalid ∧ answer 0x357FFFFFFF (withOSC (osc8 6)) = invalid := by decide

/-- OSC-A, lines 14 and 16. -/
theorem test_osc_setphase : (after 0x363F800000 State.reset).osc.phase = f 0x3F800000 ∧
    answer 0x363FC00000 State.reset = invalid := by decide

/-- OSC-A, lines 29, 27, 30, 28. -/
theorem test_osc_setmin : (after 0x3740000000 State.reset).osc.min = f 0x40000000 ∧
    answer 0x377F800000 State.reset = invalid := by decide
theorem test_osc_setmax : (after 0x38C0000000 State.reset).osc.max = f 0xC0000000 ∧
    answer 0x387FC00000 State.reset = invalid := by decide

/-! ## Step -/

/-- Table ENC: an illegal word is answered IllegalCommand and the block stays in its reset state. -/
theorem test_illegal : answer 0x1100000001 State.reset = some { status := .illegalCommand, value := .bits 0 } ∧
    (after 0x1100000001 State.reset).rb = State.reset.rb := by decide

/-- Table ENC, `RB_GETLAT`: the word presented first after reset is the one the next step runs. -/
theorem test_withFetchWord :
    step (State.reset.withFetchWord 40 0x1800000000) = .next (respond .ok (.bits 1) State.reset) := by rfl

theorem test_status_codes : statusCode .ok = 0b00 ∧ statusCode .invalidParameter = 0b01 ∧
    statusCode .illegalCommand = 0b11 := by decide

/-! ## Composites: one sample each -/

/-- RB of P1 and P3 before sample 2: the impulse at the read head. -/
def rbP : RB := { RB.reset Config.defaults with buf := [(0, .one)], wr := 2, rd := 0, delay := 2 }

/-- P1, sample 2. -/
theorem test_allpass : (allpass .half (fneg .half) .zero (withRB rbP)).1 = f 0x3F800000 ∧
    (allpass .half (fneg .half) .zero (withRB rbP)).2.rb.buf = [(0, .one), (2, f 0x3F000000)] := by decide +kernel

/-- P2, sample 3. -/
theorem test_fbComb : (fbComb .half .zero (withRB { rbP with wr := 3, delay := 3 })).1 = f 0x3F000000 := by decide +kernel

/-- P3, sample 2. -/
theorem test_lpFbComb : (lpFbComb .half .half .half .zero .zero (withRB rbP)).1 = f 0x3F800000 ∧
    (lpFbComb .half .half .half .zero .zero (withRB rbP)).2.1 = f 0x3F000000 ∧
    (lpFbComb .half .half .half .zero .zero (withRB rbP)).2.2.rb.buf = [(0, .one), (2, f 0x3E800000)] := by decide +kernel

/-- P3, samples 2 and 3: `filtered_prev` is +0.0 before sample 2, 0.5 after it and 0.25 after sample 3. -/
theorem test_lpFbCombRun :
    (lpFbCombRun .half .half .half [.zero, .zero] (withRB rbP)).1 = [f 0x3F800000, f 0] ∧
    (lpFbCombRun .half .half .half [.zero, .zero] (withRB rbP)).2.1 = f 0x3E800000 ∧
    (lpFbCombRun .half .half .half [.zero, .zero] (withRB rbP)).2.2.rb.buf =
      [(0, f 0x3F800000), (2, f 0x3E800000), (3, f 0x3E000000)] := by decide +kernel

/-- R113(c), the two commands of each round swapped, at latency 1: the pull of round 1 returns the impulse. -/
theorem test_pullPushRun : (pullPushRun [.one, .zero] State.reset).1 = [f 0, f 0x3F800000] := by decide +kernel

/-- P4, sample 2. -/
theorem test_modAllpass :
    let r := modAllpass .half (fneg .half) (f 0x40400000) { State.reset with
      rb := { RB.reset Config.defaults with buf := [(0, .one), (1, .two)], wr := 2, rd := 6, delay := 4, modRange := .two }
      osc := osc8 2 }
    r.1 = f 0xBF800000 ∧ r.2.rb.modOffset = f 0x3FC00000 ∧ memRead r.2.rb.buf 2 = f 0x40500000 := by decide +kernel

/-! ## The assembler notation (R90) -/

theorem test_assemble : assemble "RB_PUSH" (some (.decimal false 10 1)) = some 0x103F800000 ∧
    assemble "OSC_SETWAVE" (some (.name "saw")) = some 0x3300000003 ∧
    assemble "OSC_VALUEP" (some (.decimal true 1 10)) = some 0x32AEDBE6FF ∧
    assemble "RB_PULL" none = some 0x1100000000 ∧ assemble "RB_PULL" (some (.integer 0)) = none := by decide

/-! ## Witnesses: a concrete state and operands that meet the hypotheses of each obligation that has some -/

/-- A state that meets every invariant and is not the reset state: eight samples, a moving read position, a feedback stage, a
mixing level, delay registers in use, an oscillator on its way. -/
def sample : State :=
  { State.reset with
    rb := { rbB with modOffset := f 0xBF200000, fbGain := .half, chain := [.biquad] }
    bq := { BQ.reset Config.defaults with x1 := .one, y1 := .half, wet := .half, dry := .half }
    osc := { osc8 5 with phase := f 0x3E800000, min := .negOne, rng := 7 } }

/-- The same with an offset of 1.25 and one command presented. -/
def sampleAhead : State :=
  { sample with rb := { sample.rb with modOffset := f 0x3FA00000 }, input := [.command 0x1100000000] }

theorem witness_rb_inv : RB.Inv sample.cfg sample.rb :=
  ⟨by decide, by decide, by decide, by decide, by decide, by decide, by decide, by decide, by decide, by decide, by decide⟩

theorem witness_bq_inv : BQ.Inv sample.bq :=
  ⟨by decide, by decide, by decide, by decide, .inl rfl, by decide, by decide⟩

theorem witness_osc_inv : OSC.Inv sample.osc :=
  ⟨by decide, by decide, by decide, by decide, by decide, by decide, by decide, by decide, by decide, by decide⟩

theorem witness_inv : State.Inv sample := ⟨by decide, witness_rb_inv, witness_bq_inv, witness_osc_inv⟩

theorem witness_inv_ahead : State.Inv sampleAhead :=
  ⟨by decide, ⟨by decide, by decide, by decide, by decide, by decide, by decide, by decide, by decide, by decide, by decide,
    by decide⟩, witness_bq_inv, witness_osc_inv⟩

theorem witness_LegalWordsHaveOneMeaning : decode 0x1200000003#40 = .ok (.rbTap 3) ∧ decode 0x1100000000#40 = .ok .rbPull :=
  ⟨rfl, rfl⟩

/-- One word of each kind of illegality, presented. -/
theorem witness_IllegalWordsAreRejectedUnchanged :
    ({ sample with input := [.command 0x3900000000] } : State).input = .command 0x3900000000 :: [] ∧
    decode 0x3900000000#40 = .error .opcodeNotDefined ∧
    ({ sample with input := [.command 0x2100000001] } : State).input = .command 0x2100000001 :: [] ∧
    decode 0x2100000001#40 = .error .operandNotZero := ⟨rfl, rfl, rfl, rfl⟩

/-- A mnemonic of each format, the greatest integer of 32 bits and the next one, a name, and a word the notation gives. -/
theorem witness_AssembledWordsAreLegal :
    (("RB_PULL", 0x11) : String × BitVec 8) ∈ [(("RB_PULL", 0x11) : String × BitVec 8)] ∧
    (("BQ_PROC", 0x20) : String × BitVec 8) ∈ [(("BQ_PROC", 0x20) : String × BitVec 8)] ∧
    (("RB_TAP", 0x12) : String × BitVec 8) ∈ [(("RB_TAP", 0x12) : String × BitVec 8)] ∧
    4294967295 < 2 ^ 32 ∧ 2 ^ 32 ≤ 4294967296 ∧
    assemble "RB_TAP" (some (.integer 4294967295)) = some 0x12FFFFFFFF ∧
    assemble "BQ_SETKIND" (some (.name "Peaking")) = some 0x2200000006 ∧
    assemble "BQ_PROC" (some (.pattern 0x7FC00000)) = some 0x207FC00000 := by decide

theorem witness_StepRunsTheDecodedCommand : sampleAhead.input = .command 0x1100000000 :: [] ∧
    decode 0x1100000000#40 = .ok .rbPull := ⟨rfl, rfl⟩

theorem witness_EmptyPortWaitsAndResetInputResets : sample.input = [] ∧
    ({ sample with input := [.reset] } : State).input = .reset :: [] := ⟨rfl, rfl⟩

/-- A command presented, and responses with each of the two statuses a command gives. -/
theorem witness_EveryCommandGivesOneResponse : sampleAhead.input = .command 0x1100000000 :: [] ∧
    exec (.rbTap 8) sample = .next (respond .invalidParameter (.bits 0) sample) ∧
    exec .rbGetLat sample = .next (respond .ok (.bits 4) sample) := ⟨rfl, by rfl, by rfl⟩

/-- The largest and the smallest configuration. -/
theorem witness_ResetMeetsTheInvariants :
    Params.wf { log2cap := 24, initDelay := 16777215, fbMax := 255, fsReset := 16777215 } = true ∧
    Params.wf { log2cap := 1, initDelay := 1, fbMax := 0, fsReset := 1 } = true := by decide +kernel

theorem witness_StepKeepsTheInvariants : State.Inv sampleAhead ∧ ∃ t, step sampleAhead = .next t := ⟨witness_inv_ahead, _, rfl⟩

theorem witness_PushStoresOperandPlusFeedback : Memory.wf sample.cfg.cap sample.rb.buf = true := by decide

theorem witness_FeedbackRunsTheBiquadOncePerStage : 0 < sample.rb.chain.length := by decide

/-- A negative offset with floor -1, and 1.25 with floor 1, the value exactly at a whole number included. -/
theorem witness_PullInterpolatesLinearly :
    (isfinite sample.rb.modOffset = true ∧ (-1 : Int) * 2 ^ 149 ≤ sample.rb.modOffset.value ∧
      sample.rb.modOffset.value < (-1 + 1) * 2 ^ 149) ∧
    (isfinite sampleAhead.rb.modOffset = true ∧ (1 : Int) * 2 ^ 149 ≤ sampleAhead.rb.modOffset.value ∧
      sampleAhead.rb.modOffset.value < (1 + 1) * 2 ^ 149) ∧
    (isfinite .two = true ∧ (2 : Int) * 2 ^ 149 ≤ F32.two.value ∧ F32.two.value < (2 + 1) * 2 ^ 149) := by decide +kernel

theorem witness_PullWeightIsTheFraction : State.Inv sample ∧ State.Inv sampleAhead ∧
    fle .zero sampleAhead.rb.modOffset = true := ⟨witness_inv, witness_inv_ahead, by decide⟩

theorem witness_LatencyFollowsPushAndPull : (∃ t, exec (.rbPush 0x3F800000) sample = .next t) ∧
    (∃ t, exec .rbPull sample = .next t) ∧ (∃ t, exec (.rbSetDelay 3) sample = .next t) ∧
    (∃ t, exec (.rbSetModRange 0x40800000) sample = .next t) ∧
    ¬ outsideDomain (.rbSetDelay 3) sample ∧ ¬ outsideDomain (.rbSetDelay 7) sample :=
  ⟨⟨_, rfl⟩, ⟨_, rfl⟩, ⟨_, rfl⟩, ⟨_, rfl⟩, by simp only [outsideDomain]; decide, by simp only [outsideDomain]; decide⟩

/-- The state of the impulse test with latency `n`. -/
def impulseState (n : Nat) : State := withRB { RB.reset Config.defaults with rd := 8 - n }

/-- The shortest and the longest delay, each over its whole range of rounds. -/
theorem witness_ImpulseComesBackAfterTheDelay : ∀ n ∈ [1, 7],
    (impulseState n).cfg.wf = true ∧ (impulseState n).rb.wr < (impulseState n).cfg.cap ∧
    (impulseState n).rb.rd < (impulseState n).cfg.cap ∧ (impulseState n).rb.buf = [] ∧
    (impulseState n).rb.fbGain = .zero ∧ (impulseState n).rb.modOffset = .zero ∧ (impulseState n).rb.chain = [] ∧
    lat (impulseState n).cfg (impulseState n).rb = n ∧ 1 ≤ n ∧ n + 8 ≤ n + (impulseState n).cfg.cap := by decide

theorem witness_PushesWrapTheWriteHead : sample.rb.wr < sample.cfg.cap ∧
    ({ rbB with wr := 7 } : RB).wr < Config.defaults.cap := by decide

/-- A store whose latency is 4 after three pushes; the newest and the oldest of them. -/
def tapState : State := withRB { rbB with modRange := .zero, wr := 6, rd := 5 }

theorem witness_TapReturnsTheSamplePushedBefore :
    Memory.wf tapState.cfg.cap tapState.rb.buf = true ∧ tapState.rb.wr < tapState.cfg.cap ∧
    tapState.rb.fbGain = .zero ∧ tapState.rb.chain = [] ∧
    (∀ y ∈ [F32.one, .two, .four], isfinite y = true ∧ y ≠ fneg .zero) ∧
    (∀ n ∈ [(1 : Word), 3], 1 ≤ n.toNat ∧ n.toNat ≤ [F32.one, .two, .four].length ∧
      n.toNat < lat tapState.cfg (pushRun [.one, .two, .four] tapState).rb) ∧
    [F32.one, .two, .four][3 - (1 : Word).toNat]? = some .four ∧
    [F32.one, .two, .four][3 - (3 : Word).toNat]? = some .one := by
  have hw : ∀ v s, (issuePush v s).rb.wr = wrap s.cfg ((s.rb.wr : Int) + 1) := fun _ _ => rfl
  have hr : ∀ v s, (issuePush v s).rb.rd = s.rb.rd := fun _ _ => rfl
  have hc : ∀ v s, (issuePush v s).cfg = s.cfg := fun _ _ => rfl
  have hl : lat tapState.cfg (pushRun [.one, .two, .four] tapState).rb = 4 := by
    simp only [pushRun, lat, hw, hr, hc]
    decide
  rw [hl]
  exact ⟨by decide, by decide, rfl, rfl, by decide, by simp, rfl, rfl⟩

theorem witness_TapReturnsTheSamplePushedBefore_finite : ∀ a, isfinite (memRead tapState.rb.buf a) = true := by
  intro a
  by_cases h : a < 8
  · interval_cases a <;> decide
  · simp only [tapState, withRB, rbB, memRead, if_neg (show a ≠ 0 by omega), if_neg (show a ≠ 1 by omega),
      if_neg (show a ≠ 2 by omega), if_neg (show a ≠ 3 by omega), if_neg (show a ≠ 4 by omega), if_neg (show a ≠ 5 by omega),
      if_neg (show a ≠ 6 by omega), if_neg (show a ≠ 7 by omega)]
    decide

/-- Latency 2 and an offset of exactly `L - 1`. -/
def sampleAtLatency : State := { sampleAhead with rb := { sampleAhead.rb with rd := 6, modOffset := .one } }

/-- Latency 4 and offset 1.25, beside a state that differs in a word at `wrap(RB.rd + 4)`; and an offset of exactly `L - 1`. -/
theorem witness_PullReadsHistoryBelowLatencyMinusOne :
    (State.Inv sampleAhead ∧ fle .zero sampleAhead.rb.modOffset = true ∧ pullReadsHistory sampleAhead.cfg sampleAhead.rb ∧
      sampleAhead.rb.modOffset.value < ((lat sampleAhead.cfg sampleAhead.rb : Int) - 1) * 2 ^ 149 ∧
      memWrite sampleAhead.rb.buf 0 .nan ≠ sampleAhead.rb.buf ∧
      ∀ j, j < lat sampleAhead.cfg sampleAhead.rb →
        memRead (memWrite sampleAhead.rb.buf 0 .nan) ((sampleAhead.rb.rd + j) % 2 ^ sampleAhead.cfg.log2cap) =
          memRead sampleAhead.rb.buf ((sampleAhead.rb.rd + j) % 2 ^ sampleAhead.cfg.log2cap)) ∧
    State.Inv sampleAtLatency ∧ fle .zero sampleAtLatency.rb.modOffset = true ∧
      ((lat sampleAtLatency.cfg sampleAtLatency.rb : Int) - 1) * 2 ^ 149 = sampleAtLatency.rb.modOffset.value :=
  ⟨⟨witness_inv_ahead, by decide, by unfold pullReadsHistory; decide, by decide, by decide, by decide⟩,
    ⟨by decide, ⟨by decide, by decide, by decide, by decide, by decide, by decide, by decide, by decide, by decide, by decide,
      by decide⟩, witness_bq_inv, witness_osc_inv⟩, by decide, by decide⟩

/-- The reset filter: a finite operand, a non-finite one, and -0.0 with zero delay registers. -/
theorem witness_IdentityFilterReturnsItsInput :
    State.reset.bq.coef = Coefs.identity ∧ State.reset.bq.wet = .one ∧ State.reset.bq.dry = .zero ∧
    isfinite State.reset.bq.x1 = true ∧ isfinite State.reset.bq.x2 = true ∧ isfinite State.reset.bq.y1 = true ∧
    isfinite State.reset.bq.y2 = true ∧ (∀ x, ∃ t, exec (.bqProc (F32.toBits x)) State.reset = .next t) ∧
    (isfinite .half = true ∧ F32.half ≠ fneg .zero) ∧ isfinite .nan = false ∧
    (State.reset.bq.x1 = .zero ∧ State.reset.bq.x2 = .zero ∧ State.reset.bq.y1 = .zero ∧ State.reset.bq.y2 = .zero) :=
  ⟨rfl, rfl, rfl, by decide, by decide, by decide, by decide, fun _ => ⟨_, rfl⟩, by decide, rfl, rfl, rfl, rfl, rfl⟩

/-- Q = 1.0 at the reset parameters is accepted whatever `NUM` gives. -/
theorem witness_committable : Committable .lowPass (f 0x463B8000) .one .zero 48000 := by
  have hw : isfinite (omega (f 0x463B8000) 48000) = true := by decide
  obtain ⟨hc, hcl, hcu⟩ := boundTrig_unit Config.rawCos hw
  obtain ⟨hs, hsl, hsu⟩ := boundTrig_unit Config.rawSin hw
  refine commit_check_iff.mp (Bool.and_eq_true_iff.mpr ⟨by decide, ?_⟩)
  have h2 : fmul .two .one = .two := by decide
  unfold coefOf
  rw [h2]
  exact lowPassCoefs_usable hc hcl hcu hs hsl hsu

/-- A frequency at half the sample rate, a Q of zero and an infinite gain are not. -/
theorem witness_not_committable : ¬ Committable .peaking (f 0x46BB8000) .one .zero 48000 ∧
    ¬ Committable .lowPass (f 0x463B8000) .zero .zero 48000 ∧ ¬ Committable .lowPass (f 0x463B8000) .one (f 0x7F800000) 48000 :=
  ⟨fun h => absurd h.f_nyquist (by decide), fun h => absurd h.q_pos (by decide), fun h => absurd h.g_finite (by decide)⟩

theorem witness_SetKindReconstructsInPlace :
    6 < (7 : Word).toNat ∧
    ((0 : Word).toNat = (0 : Fin 7).val ∧
      [Kind.lowPass, .highPass, .bandPass, .notch, .lowShelf, .highShelf, .peaking][(0 : Fin 7).val]? = some .lowPass ∧
      Committable .lowPass State.reset.bq.f State.reset.bq.q State.reset.bq.gainDb State.reset.bq.fs) ∧
    ((6 : Word).toNat = (6 : Fin 7).val ∧
      [Kind.lowPass, .highPass, .bandPass, .notch, .lowShelf, .highShelf, .peaking][(6 : Fin 7).val]? = some .peaking ∧
      ¬ Committable .peaking (f 0x46BB8000) .one .zero 48000) :=
  ⟨by decide, ⟨rfl, rfl, by
    have : State.reset.bq.f = f 0x463B8000 := by decide +kernel
    rw [this]; exact witness_committable⟩, rfl, rfl, witness_not_committable.1⟩

theorem witness_ParameterSettersCommitAllOrNothing :
    Committable State.reset.bq.kind (F32.ofBits 0x463B8000) State.reset.bq.q State.reset.bq.gainDb State.reset.bq.fs ∧
    ¬ Committable .lowPass (F32.ofBits 0x463B8000) (F32.ofBits 0) .zero 48000 ∧
    ¬ Committable .lowPass (F32.ofBits 0x463B8000) .one (F32.ofBits 0x7F800000) 48000 ∧
    ¬ Committable State.reset.bq.kind (F32.ofBits 0x46BB8000) State.reset.bq.q State.reset.bq.gainDb State.reset.bq.fs :=
  ⟨witness_committable, witness_not_committable.2.1, witness_not_committable.2.2, fun h => absurd h.f_nyquist (by decide)⟩

theorem witness_BiquadSetFsCommitsAllOrNothing : 1 ≤ (48000 : Word).toInt ∧
    Committable .lowPass (f 0x463B8000) .one .zero 48000 ∧ (0 : Word).toInt < 1 ∧ (0x80000000 : Word).toInt < 1 :=
  ⟨by decide, witness_committable, by decide, by decide⟩

/-- The constant 1.0 keeps every bound R14 puts on the three functions. -/
theorem witness_NumericRecordKeepsItsBounds : isfinite .half = true ∧
    (∀ v : F32, isfinite v = true → (fun _ => F32.one) v ≠ .nan ∧ |((fun _ => F32.one) v).value| ≤ 2 ^ 149) ∧
    (∀ v : F32, isfinite v = true → ∃ m, (fun _ => F32.one) v = .num false m) :=
  ⟨by decide, fun _ _ => ⟨one_ne_nan, by simp [value_one]⟩, fun _ _ => ⟨_, rfl⟩⟩

/-- The reset state once `BQ_SETQ 1.0` has replaced the identity coefficients. -/
theorem witness_GainDoesNotEnterTheFirstFourKinds :
    ∃ s : State, s.bq.kind ∈ [Kind.lowPass, .highPass, .bandPass, .notch] ∧
      Committable s.bq.kind s.bq.f s.bq.q s.bq.gainDb s.bq.fs ∧
      s.bq.coef = coefOf machineNum s.bq.kind s.bq.f s.bq.q s.bq.gainDb s.bq.fs ∧ isfinite (F32.ofBits 0x42200000) = true :=
  ⟨withBQ { BQ.reset Config.defaults with
      f := f 0x463B8000, coef := coefOf machineNum .lowPass (f 0x463B8000) .one .zero 48000 },
    by decide, witness_committable, rfl, by decide⟩

theorem witness_NaNStaysUntilResetOrSetKind : (withBQ { sample.bq with y1 := .nan }).bq.y1 = .nan ∧
    (Instr.bqProc 0 ≠ .bqReset ∧ ∀ k, Instr.bqProc 0 ≠ .bqSetKind k) ∧
    ∃ t, exec (.bqProc 0) (withBQ { sample.bq with y1 := .nan }) = .next t := ⟨rfl, by simp, _, rfl⟩

/-- The phases 0.25 and -0.25 at `progress = 5`, and a phase that makes the sum negative. -/
theorem witness_PhasePositionIsTheFraction : OSC.Inv sample.osc ∧ isfinite (f 0x3E800000) = true ∧
    0 ≤ (fadd (fdiv (u2f sample.osc.progress.toNat) (u2f sample.osc.spc.toNat)) (f 0x3E800000)).value ∧
    (fadd (fdiv (u2f sample.osc.progress.toNat) (u2f sample.osc.spc.toNat)) (f 0xC0600000)).value < 0 :=
  ⟨witness_osc_inv, by decide, by decide +kernel, by decide +kernel⟩

theorem witness_ShapeValuesStayInRange : ∀ p ∈ [F32.zero, .half, .one], fle .zero p = true ∧ fle p .one = true := by decide

/-- The shortest and the longest cycle, and quotients just outside them. -/
theorem witness_CycleLengthIsTheRoundedQuotient : spcOf (f 0x41800000) 8 = some 1 ∧
    spcOf .one 0x7FFFFFBF = some 2147483520 ∧ spcOf (f 0x41880000) 8 = none ∧ spcOf .one 0x7FFFFFFF = none := by decide +kernel

theorem witness_TuningSettersRewrapProgress :
    (flt .zero (F32.ofBits 0x40400000) = true ∧ spcOf (F32.ofBits 0x40400000) sample.osc.fs = some 3) ∧
    ¬ flt .zero (F32.ofBits 0) = true ∧ spcOf (F32.ofBits 0x41880000) sample.osc.fs = none ∧
    (1 ≤ (1 : Word).toInt ∧ spcOf sample.osc.f 1 = some 1) ∧ (0 : Word).toInt < 1 ∧
    spcOf sample.osc.f 0x7FFFFFFF = none := by decide +kernel

theorem witness_OscillatorIsPeriodic : OSC.Inv sample.osc ∧ sample.osc.wave ≠ .random ∧ OSC.Inv (osc8 0) ∧
    (osc8 0).progress = 0 :=
  ⟨witness_osc_inv, by decide, ⟨by decide, by decide, by decide, by decide, by decide, by decide, by decide, by decide,
    by decide, by decide⟩, rfl⟩

theorem witness_CommandsWriteOnlyTheirFields : ∃ t, exec (.rbPush 0x3F800000) sample = .next t := ⟨_, rfl⟩

/-- A rejected command, and a rejected `RB_SETMODRANGE`. -/
theorem witness_RejectionChangesNothing : State.Inv sample ∧
    (∃ t, exec (.rbTap 4) sample = .next t ∧
      t.responses = sample.responses ++ [{ status := .invalidParameter, value := .bits 0 }] ∧ ∀ r, Instr.rbTap 4 ≠ .rbSetModRange r) ∧
    ∃ t, exec (.rbSetModRange 0xBF800000) sample = .next t ∧
      t.responses = sample.responses ++ [{ status := .invalidParameter, value := .bits 0 }] :=
  ⟨witness_inv, ⟨_, rfl, by decide, by simp⟩, _, rfl, by decide⟩

theorem witness_InvalidParameterExactlyOutsideTheDomain : (∃ t, exec (.rbTap 4) sample = .next t) ∧
    outsideDomain (.rbTap 4) sample ∧ ¬ outsideDomain (.rbTap 3) sample :=
  ⟨⟨_, rfl⟩, by simp only [outsideDomain]; decide, by simp only [outsideDomain]; decide⟩

theorem witness_DelayAndOldResponsesAreNeverRead : ∃ t, exec (.rbSetDelay 3) sample = .next t := ⟨_, rfl⟩

/-- A tie between 2^24 and 2^24 + 2, at 2^24 + 1. -/
theorem witness_RoundingIsToNearestEven : 0 < 1 ∧ 0x0C000001 ≤ infMag ∧ 0x0C000001 ≠ roundMag (2 ^ 24 + 1) 1 := by
  decide +kernel

/-- Two finite values whose sum is not zero, two that cancel, and a zero divisor. -/
theorem witness_ArithmeticRoundsTheExactResult :
    ((0x3F800000 : Fin 0x7F800001).val < infMag ∧ (0x3F000000 : Fin 0x7F800001).val < infMag ∧
      F32.one.value + F32.half.value ≠ 0 ∧ F32.one.value - F32.half.value ≠ 0 ∧ (0x3F000000 : Fin 0x7F800001).val ≠ 0) ∧
    F32.one.value + F32.negOne.value = 0 ∧ F32.one.value - F32.one.value = 0 ∧ (0 : Fin 0x7F800001).val = 0 := by decide

/-- R13 at the edges: a tie to even, an exact zero sum, a zero divisor. -/
theorem test_arithmetic_edges : fadd (f 0x4B800000) .one = f 0x4B800000 ∧ fadd .one .negOne = f 0 ∧
    fadd (f 0x80000000) (f 0x80000000) = f 0x80000000 ∧ fdiv .negOne .zero = f 0xFF800000 ∧ fdiv .zero .zero = .nan := by
  decide +kernel

/-- 2.0 against 1.0; a negative value. -/
theorem witness_SquareRootIsCorrectlyRounded : isfinite .two = true ∧ 0 ≤ F32.two.value ∧ F32.one ≠ .nan ∧
    0 ≤ F32.one.value ∧ F32.negOne.value < 0 := by decide

theorem witness_CompositesIssueTheirCommands : ∃ s1 s2 s3 t1 t2,
    exec .rbPull sample = .next s1 ∧
    exec (.rbPush (F32.toBits (fadd .one (fmul .half (lastValue s1))))) s1 = .next s2 ∧
    exec (.rbPush (F32.toBits (fadd .one (fmul .half (fadd (fmul .half (lastValue s1)) (fmul .half .zero)))))) s1 = .next s3 ∧
    exec .oscNext sample = .next t1 ∧ exec (.rbMapMod (F32.toBits (lastValue t1))) t1 = .next t2 :=
  ⟨_, _, _, _, _, rfl, rfl, rfl, rfl, rfl⟩

theorem witness_CompositesKeepTheLatency : (allpass .half .half .one sample).2 ∈
    [(allpass .half .half .one sample).2, (fbComb .half .one sample).2, (lpFbComb .half .half .half .zero .one sample).2.2,
      (modAllpass .half .half .one sample).2] := List.mem_cons_self

/-- The reset state; full-scale alternating input. -/
theorem witness_HalfGainCombStaysBelowTwo : State.reset.rb.fbGain = .zero ∧ State.reset.rb.chain = [] ∧
    State.reset.rb.modOffset = .zero ∧ (∀ a, fle (fabs (memRead State.reset.rb.buf a)) .two = true) ∧
    (∀ x ∈ [F32.one, .negOne, .one, .zero], fle (fabs x) .one = true) :=
  ⟨rfl, rfl, rfl, fun _ => show fle (fabs .zero) .two = true by decide, by decide⟩

theorem witness_HalfGainCombStaysBelowTwo_inv : State.Inv (impulseState 1) :=
  ⟨by decide, ⟨by decide, by decide, by decide, by decide, by decide, by decide, by decide, by decide, by decide, by decide,
    by decide⟩, ⟨by decide, by decide, by decide, by decide, .inl rfl, by decide, by decide⟩,
    ⟨by decide, by decide, by decide, by decide, by decide, by decide, by decide, by decide, by decide, by decide⟩⟩

end Sys2Proof.Tests
end

/-! PROOFS. The scope: the step is total (R17), the bounds of `NUM` (R14), and binary32 arithmetic (R13). -/

namespace Sys2Proof.Machine

/-! ## The step (R17) -/

theorem step_ends (s : State) : ∃ t, step s = .next t ∧ t.cfg = s.cfg ∧ t.input = s.input.tail := by
  unfold step
  split
  next hi => exact ⟨s, rfl, rfl, by rw [hi, List.tail_nil]⟩
  next rest hi => exact ⟨_, rfl, rfl, by rw [hi, resetBlock_input, List.tail_cons]⟩
  next c rest hi =>
    rw [hi, List.tail_cons]
    split
    next i _ =>
      obtain ⟨t, r, h⟩ := exec_ends i { s with input := rest }
      exact ⟨t, h.next, h.cfg, h.input⟩
    next => exact ⟨_, rfl, rfl, rfl⟩

/-- Settles O9: each of the three events a port can hold leads to a next state, a command by `exec_ends`. -/
theorem stepIsTotal : Obligations.StepIsTotal := step_ends

/-! ## The bounds of `NUM` (R14) -/

/-- R14's bound on `fcos` and `fsin` in exact values. -/
theorem withinUnit_iff {x : F32} : withinUnit x = true ↔ x ≠ .nan ∧ |x.value| ≤ 2 ^ 149 := by
  rw [withinUnit, Bool.and_eq_true, fle_iff, fle_iff, value_negOne, value_one, abs_le]
  exact ⟨fun ⟨⟨_, hx, hl⟩, _, _, hu⟩ => ⟨hx, hl, hu⟩, fun ⟨hx, hl, hu⟩ => ⟨⟨by decide, hx, hl⟩, hx, by decide, hu⟩⟩

theorem boundTrig_bounds (raw : F32 → F32) {v : F32} (h : isfinite v = true) :
    boundTrig raw v ≠ .nan ∧ |(boundTrig raw v).value| ≤ 2 ^ 149 := by
  obtain ⟨hn, hl, hu⟩ := boundTrig_unit raw h
  exact ⟨hn, abs_le.mpr ⟨hl, hu⟩⟩

theorem boundTrig_eq_self {raw : F32 → F32}
    (h : ∀ v, isfinite v = true → raw v ≠ .nan ∧ |(raw v).value| ≤ 2 ^ 149) : boundTrig raw = raw := by
  funext v
  cases hv : isfinite v
  · simp [boundTrig, hv]
  · simp [boundTrig, withinUnit_iff.mpr (h v hv)]

/-- R14's bound on `fexp10`: "a positive finite value, +infinity or +0.0" is any value of sign plus. -/
theorem plusSign_iff {x : F32} : plusSign x = true ↔ ∃ m, x = .num false m := by
  cases x with
  | nan => simp [plusSign]
  | num neg m => cases neg <;> simp [plusSign]

theorem feq_zero_iff {v : F32} : feq v .zero = true ↔ v = .zero ∨ v = fneg .zero := by
  constructor
  · intro h
    obtain ⟨hn, -, hv⟩ := feq_iff.mp h
    cases v with
    | nan => exact absurd rfl hn
    | num s m =>
      have hm : m = ⟨0, by decide⟩ := by
        apply Fin.ext
        rw [← units_inj, ← natAbs_value (s := s), hv]
        rfl
      subst hm
      cases s
      · exact .inl rfl
      · exact .inr rfl
  · rintro (rfl | rfl) <;> decide

theorem boundExp_of_zero (raw : F32 → F32) {v : F32} (h : feq v .zero = true) : boundExp raw v = .one := if_pos h

theorem boundExp_bounds (raw : F32 → F32) {v : F32} (h : isfinite v = true) : ∃ m, boundExp raw v = .num false m := by
  rw [boundExp, h, Bool.true_and]
  split
  · exact ⟨_, rfl⟩
  split
  · exact ⟨_, rfl⟩
  next hn => exact plusSign_iff.mp (by simpa using hn)

theorem boundExp_eq_self {raw : F32 → F32} (h : ∀ v, isfinite v = true → ∃ m, raw v = .num false m)
    (hz : raw .zero = .one) (hnz : raw (fneg .zero) = .one) : boundExp raw = raw := by
  funext v
  rw [boundExp]
  split
  next h0 =>
    rcases feq_zero_iff.mp h0 with rfl | rfl
    · exact hz.symm
    · exact hnz.symm
  next =>
    cases hv : isfinite v
    · rfl
    · simp [plusSign_iff.mpr (h v hv)]

/-- Settles O38: the guards keep R14's bounds whatever is behind them, and change nothing that keeps them already. -/
theorem numericRecordKeepsItsBounds : Obligations.NumericRecordKeepsItsBounds :=
  ⟨fun _ hv => ⟨boundTrig_bounds _ hv, boundTrig_bounds _ hv, boundExp_bounds _ hv⟩,
    boundExp_of_zero Config.rawExp10 (v := .zero) (by decide), boundExp_of_zero Config.rawExp10 (v := fneg .zero) (by decide),
    fun _ _ _ hcos hsin hpow hz hnz => ⟨boundTrig_eq_self hcos, boundTrig_eq_self hsin, boundExp_eq_self hpow hz hnz⟩⟩

/-! ## Rounding to nearest, ties to even (R13) -/

theorem abs_sub_lt_iff_of_lt {n x y : Int} (h : x < y) : |n - x| < |n - y| ↔ 2 * n < x + y := by
  rcases abs_cases (n - x) with ⟨e, _⟩ | ⟨e, _⟩ <;> rcases abs_cases (n - y) with ⟨e', _⟩ | ⟨e', _⟩ <;> omega

theorem abs_sub_lt_iff_of_gt {n x y : Int} (h : y < x) : |n - x| < |n - y| ↔ x + y < 2 * n := by
  rcases abs_cases (n - x) with ⟨e, _⟩ | ⟨e, _⟩ <;> rcases abs_cases (n - y) with ⟨e', _⟩ | ⟨e', _⟩ <;> omega

theorem abs_sub_eq_iff_of_ne {n x y : Int} (h : x ≠ y) : |n - x| = |n - y| ↔ 2 * n = x + y := by
  rcases abs_cases (n - x) with ⟨e, _⟩ | ⟨e, _⟩ <;> rcases abs_cases (n - y) with ⟨e', _⟩ | ⟨e', _⟩ <;> omega

theorem units_mul_lt {a b d : Nat} (hd : 0 < d) (h : a < b) : units a * d < units b * d :=
  Nat.mul_lt_mul_of_pos_right (units_lt_units.mpr h) hd

/-- A ratio is nearer to the greater of two magnitudes iff it is above their midpoint. -/
theorem nearer_iff_of_gt {n d b c : Nat} {even : Prop} (hd : 0 < d) (h : c < b) :
    (|(n : Int) - units b * d| < |(n : Int) - units c * d| ∨
      (|(n : Int) - units b * d| = |(n : Int) - units c * d| ∧ even)) ↔
    (units b * d + units c * d < 2 * n ∨ (2 * n = units b * d + units c * d ∧ even)) := by
  have hlt : (units c : Int) * d < units b * d := by exact_mod_cast units_mul_lt hd h
  rw [abs_sub_lt_iff_of_gt hlt, abs_sub_eq_iff_of_ne hlt.ne']
  norm_cast

/-- A ratio is nearer to the lesser of two magnitudes iff it is below their midpoint. -/
theorem nearer_iff_of_lt {n d b c : Nat} {even : Prop} (hd : 0 < d) (h : b < c) :
    (|(n : Int) - units b * d| < |(n : Int) - units c * d| ∨
      (|(n : Int) - units b * d| = |(n : Int) - units c * d| ∧ even)) ↔
    (2 * n < units b * d + units c * d ∨ (2 * n = units b * d + units c * d ∧ even)) := by
  have hlt : (units b : Int) * d < units c * d := by exact_mod_cast units_mul_lt hd h
  rw [abs_sub_lt_iff_of_lt hlt, abs_sub_eq_iff_of_ne hlt.ne]
  norm_cast

/-- A ratio is nearest to `b` iff it is on `b`'s side of every midpoint, or on the midpoint with `b` even. -/
theorem isNearestEven_iff {n d b : Nat} (hd : 0 < d) :
    IsNearestEven n d b ↔ b ≤ infMag ∧
      (∀ c < b, units b * d + units c * d < 2 * n ∨ (2 * n = units b * d + units c * d ∧ b % 2 = 0)) ∧
      (∀ c, b < c → c ≤ infMag →
        2 * n < units b * d + units c * d ∨ (2 * n = units b * d + units c * d ∧ b % 2 = 0)) := by
  refine and_congr_right fun hb => ⟨fun h => ⟨fun c hc => ?_, fun c hc hi => ?_⟩, fun ⟨hlo, hhi⟩ c hi hc => ?_⟩
  · exact (nearer_iff_of_gt hd hc).mp (h c (by omega) hc.ne)
  · exact (nearer_iff_of_lt hd hc).mp (h c hi hc.ne')
  · rcases Nat.lt_or_gt_of_ne hc with hc | hc
    · exact (nearer_iff_of_gt hd hc).mpr (hlo c hc)
    · exact (nearer_iff_of_lt hd hc).mpr (hhi c hc hi)

/-- `roundMag` brackets the ratio by a magnitude and its successor, and compares it with their midpoint. -/
theorem roundMag_bracket (n : Nat) {d : Nat} (hd : 0 < d) :
    ∃ p, units p * d ≤ n ∧ n < units (p + 1) * d ∧
      roundMag n d = min (if units p * d + units (p + 1) * d < 2 * n ∨
        (2 * n = units p * d + units (p + 1) * d ∧ p % 2 = 1) then p + 1 else p) infMag := by
  obtain ⟨k, m, r, hn, hr, hm, hk, hround⟩ := roundMag_parts n d hd
  have hlo : units (k * 2 ^ 23 + m) * d = m * (d * 2 ^ k) := by rw [units_pack k m hm.le hk]; ring
  have hhi : units (k * 2 ^ 23 + m + 1) * d = m * (d * 2 ^ k) + d * 2 ^ k := by
    rw [Nat.add_assoc, units_pack k (m + 1) hm (by omega)]; ring
  refine ⟨k * 2 ^ 23 + m, by omega, by omega, ?_⟩
  rw [hround, hlo, hhi]
  congr 1
  split <;> split <;> omega

/-- R13: `roundMag` rounds to nearest, ties to even; an overflow is cut at the infinity. -/
theorem isNearestEven_roundMag (n : Nat) {d : Nat} (hd : 0 < d) : IsNearestEven n d (roundMag n d) := by
  obtain ⟨p, hlo, hhi, hround⟩ := roundMag_bracket n hd
  have mono : ∀ {a b}, a ≤ b → units a * d ≤ units b * d := fun h => Nat.mul_le_mul_right d (units_le_units.mpr h)
  rw [hround, isNearestEven_iff hd]
  rcases Nat.lt_or_ge p infMag with hfin | hinf
  · split
    next hup =>
      rw [Nat.min_eq_left (show p + 1 ≤ infMag from hfin)]
      refine ⟨hfin, fun c hc => ?_, fun c hc _ => ?_⟩
      · have := mono (show c ≤ p by omega)
        omega
      · have := units_mul_lt hd hc
        omega
    next hdown =>
      rw [Nat.min_eq_left hfin.le]
      refine ⟨hfin.le, fun c hc => ?_, fun c hc _ => ?_⟩
      · have := units_mul_lt hd hc
        omega
      · have := mono (show p + 1 ≤ c from hc)
        omega
  · rw [Nat.min_eq_right (by split <;> omega)]
    refine ⟨le_rfl, fun c hc => ?_, fun c hc hi => absurd hc (Nat.not_lt.mpr hi)⟩
    have := mono hinf
    have := units_mul_lt hd hc
    omega

/-- Settles O55, by `isNearestEven_roundMag`. -/
theorem roundingIsToNearestEven : Obligations.RoundingIsToNearestEven :=
  fun n _ hd => (isNearestEven_roundMag n hd).2

/-! ## The four operations -/

/-- A rounded result: its sign, and a magnitude nearest to the exact one. -/
theorem roundF_nearest (s : Bool) (n : Nat) {d : Nat} (hd : 0 < d) :
    ∃ r, roundF s n d = .num s r ∧ IsNearestEven n d r.val := ⟨_, rfl, isNearestEven_roundMag n hd⟩

/-- The infinity of each sign. -/
abbrev signedInf (neg : Bool) : F32 := .num neg ⟨infMag, by decide⟩

/-- The zero of each sign. -/
abbrev signedZero (neg : Bool) : F32 := .num neg ⟨0, by decide⟩

section
variable {sx sy : Bool} {a b : Fin 0x7F800001}

theorem fadd_rounds (ha : a.val < infMag) (hb : b.val < infMag) {e : Int}
    (he : e = (F32.num sx a).value + (F32.num sy b).value) :
    (e = 0 → fadd (.num sx a) (.num sy b) = signedZero (sx && sy)) ∧
    (e ≠ 0 → ∃ r, fadd (.num sx a) (.num sy b) = .num (decide (e < 0)) r ∧ IsNearestEven e.natAbs 1 r.val) := by
  have hsum : fadd (.num sx a) (.num sy b) =
      if e = 0 then signedZero (sx && sy) else roundF (decide (e < 0)) e.natAbs 1 := by
    subst he
    rw [fadd, addNum, if_neg ha.ne, if_neg hb.ne]
    rfl
  rw [hsum]
  refine ⟨fun h => if_pos h, fun h => ?_⟩
  rw [if_neg h]
  exact roundF_nearest _ _ Nat.one_pos

theorem fsub_rounds (ha : a.val < infMag) (hb : b.val < infMag) {e : Int}
    (he : e = (F32.num sx a).value - (F32.num sy b).value) :
    (e = 0 → fsub (.num sx a) (.num sy b) = signedZero (sx && !sy)) ∧
    (e ≠ 0 → ∃ r, fsub (.num sx a) (.num sy b) = .num (decide (e < 0)) r ∧ IsNearestEven e.natAbs 1 r.val) :=
  fadd_rounds ha hb (by rw [he, Int.sub_eq_add_neg, ← value_fneg]; rfl)

theorem fmul_rounds (ha : a.val < infMag) (hb : b.val < infMag) :
    ∃ r, fmul (.num sx a) (.num sy b) = .num (sx ^^ sy) r ∧
      IsNearestEven ((F32.num sx a).value.natAbs * (F32.num sy b).value.natAbs) (2 ^ 149) r.val := by
  rw [fmul, mulNum, if_neg (not_or.mpr ⟨ha.ne, hb.ne⟩), natAbs_value, natAbs_value]
  exact roundF_nearest _ _ (by positivity)

theorem fdiv_rounds (ha : a.val < infMag) (hb : b.val < infMag) (h0 : b.val ≠ 0) :
    ∃ r, fdiv (.num sx a) (.num sy b) = .num (sx ^^ sy) r ∧
      IsNearestEven ((F32.num sx a).value.natAbs * 2 ^ 149) (F32.num sy b).value.natAbs r.val := by
  rw [fdiv, divNum, if_neg ha.ne, if_neg hb.ne, if_neg h0, natAbs_value, natAbs_value]
  exact roundF_nearest _ _ (units_pos (Nat.pos_of_ne_zero h0))

theorem fdiv_zero (ha : a.val < infMag) (hb : b.val = 0) :
    fdiv (.num sx a) (.num sy b) = if a.val = 0 then .nan else signedInf (sx ^^ sy) := by
  rw [fdiv, divNum, if_neg ha.ne, if_neg (by omega), if_pos hb]

/-! ### Infinities -/

theorem fadd_inf_finite (hb : b.val < infMag) :
    fadd (signedInf sx) (.num sy b) = signedInf sx := by
  rw [fadd, addNum, if_pos rfl, if_neg fun h => hb.ne h.1]

theorem fadd_finite_inf (hb : b.val < infMag) :
    fadd (.num sy b) (signedInf sx) = signedInf sx := by
  rw [fadd, addNum, if_neg hb.ne, if_pos rfl]

theorem fadd_inf_inf : fadd (signedInf sx) (signedInf sy) =
    if sx = sy then signedInf sx else .nan := by
  cases sx <;> cases sy <;> rfl

theorem fsub_inf_inf : fsub (signedInf sx) (signedInf sy) =
    if sx = sy then .nan else signedInf sx := by
  cases sx <;> cases sy <;> rfl

theorem fmul_inf_left : fmul (signedInf sx) (.num sy b) =
    if b.val = 0 then .nan else signedInf (sx ^^ sy) := by
  rw [fmul, mulNum, if_pos (.inl rfl)]
  congr 1
  simp

theorem fmul_inf_right : fmul (.num sy b) (signedInf sx) =
    if b.val = 0 then .nan else signedInf (sy ^^ sx) := by
  rw [fmul, mulNum, if_pos (.inr rfl)]
  congr 1
  simp

theorem fdiv_inf_finite (hb : b.val < infMag) :
    fdiv (signedInf sx) (.num sy b) = signedInf (sx ^^ sy) := by
  rw [fdiv, divNum, if_pos rfl, if_neg hb.ne]

theorem fdiv_finite_inf (hb : b.val < infMag) :
    fdiv (.num sy b) (signedInf sx) = signedZero (sy ^^ sx) := by
  rw [fdiv, divNum, if_neg hb.ne, if_pos rfl]

end

theorem fdiv_nan_right (x : F32) : fdiv x .nan = .nan := by cases x <;> rfl

/-- Settles O56: the rounding of each operation on finite values, and one lemma per special case. -/
theorem arithmeticRoundsTheExactResult : Obligations.ArithmeticRoundsTheExactResult :=
  ⟨fun x => ⟨fadd_nan_left x, fadd_nan_right x, fsub_nan_left x, fsub_nan_right x, fmul_nan_left x, fmul_nan_right x,
      rfl, fdiv_nan_right x⟩,
    fun _ _ _ _ =>
      ⟨fun ha hb => ⟨fun _ he => fadd_rounds ha hb he, fun _ he => fsub_rounds ha hb he, fmul_rounds ha hb,
          fdiv_rounds ha hb, fdiv_zero ha,
          ⟨fadd_inf_finite hb, fadd_finite_inf hb, fadd_inf_finite hb, fadd_finite_inf hb⟩,
          fdiv_inf_finite hb, fdiv_finite_inf hb⟩,
        fmul_inf_left, fmul_inf_right, fadd_inf_inf, fsub_inf_inf, rfl⟩⟩

/-! ## The square root -/

/-- The bits found so far and those still open enclose the root. -/
theorem isqrtBits_bounds {n b r : Nat} (hlo : r * r ≤ n) (hhi : n < (r + 2 ^ b) * (r + 2 ^ b)) :
    isqrtBits n b r * isqrtBits n b r ≤ n ∧ n < (isqrtBits n b r + 1) * (isqrtBits n b r + 1) := by
  induction b generalizing r with
  | zero => exact ⟨hlo, hhi⟩
  | succ b ih =>
    rw [isqrtBits]
    split
    next h => exact ih h (by rwa [Nat.add_assoc, ← Nat.two_mul, ← Nat.pow_succ'])
    next h => exact ih hlo (Nat.lt_of_not_le h)

/-- The bit-by-bit root is the library's integer square root. -/
theorem isqrt_eq_sqrt (n : Nat) : isqrt n = Nat.sqrt n := by
  refine Nat.eq_sqrt.mpr (isqrtBits_bounds (Nat.zero_le n) ?_)
  rw [Nat.zero_add, ← Nat.pow_add]
  exact Nat.lt_log2_self.trans_le (Nat.pow_le_pow_right Nat.two_pos (by omega))

/-- Twice the root of `n`, an odd number where the root is not exact. -/
def stickyRoot (n : Nat) : Nat := 2 * Nat.sqrt n + if Nat.sqrt n * Nat.sqrt n = n then 0 else 1

theorem sqrtMag_eq (a : Nat) : sqrtMag a = roundF false (stickyRoot (units a * 2 ^ 149)) 2 := by
  simp only [sqrtMag, stickyRoot, isqrt_eq_sqrt]

/-- Against an even number the sticky root compares as twice the exact root does. -/
theorem sq_le_of_le_stickyRoot {n t : Nat} (h : 2 * t ≤ stickyRoot n) : t * t ≤ n := by
  have ht : t ≤ Nat.sqrt n := by
    rw [stickyRoot] at h
    split at h <;> omega
  exact Nat.le_sqrt.mp ht

theorem le_sq_of_stickyRoot_le {n t : Nat} (h : stickyRoot n ≤ 2 * t) : n ≤ t * t := by
  rw [stickyRoot] at h
  split at h
  next he =>
    rw [← he]
    exact Nat.mul_self_le_mul_self (by omega)
  next => exact (Nat.sqrt_lt.mp (by omega)).le

/-- Above 2^24 units every magnitude is even. -/
theorem two_dvd_units {b : Nat} (h : 2 ^ 24 ≤ b) : 2 ∣ units b := by
  rw [units_of_ge (by omega)]
  exact Dvd.dvd.mul_left (dvd_pow_self 2 (by omega)) _

/-- The rounded root of a magnitude that is not zero is above 2^24 units: the root itself is at least 2^74 of them. -/
theorem lt_roundMag_stickyRoot {a : Nat} (h : 0 < a) : 2 ^ 24 < roundMag (stickyRoot (units a * 2 ^ 149)) 2 := by
  have hroot : 2 ^ 74 ≤ Nat.sqrt (units a * 2 ^ 149) := by
    rw [Nat.le_sqrt, ← Nat.pow_add]
    exact (Nat.pow_le_pow_right Nat.two_pos (by norm_num)).trans (Nat.le_mul_of_pos_left _ (units_pos h))
  have hu : units (2 ^ 24 + 1) = 2 ^ 24 + 2 := by decide
  refine le_roundMag Nat.two_pos (by decide) ?_
  rw [stickyRoot, hu]
  omega

/-- Rounding the sticky root to a magnitude above 2^24 puts the exact root on its side of every midpoint: the midpoints
with its two neighbours are whole numbers, and the others lie beyond them. -/
theorem root_midpoints_of_nearest {n b : Nat} (h : IsNearestEven (stickyRoot n) 2 b) (hbig : 2 ^ 24 < b) :
    (∀ c < b, (units b + units c) ^ 2 ≤ 4 * n) ∧
    (∀ c, b < c → c ≤ infMag → 4 * n ≤ (units b + units c) ^ 2) := by
  obtain ⟨-, hbelow, habove⟩ := (isNearestEven_iff Nat.two_pos).mp h
  have hb := two_dvd_units hbig.le
  refine ⟨fun c hc => ?_, fun c hc hi => ?_⟩
  · obtain ⟨t, ht⟩ := Nat.dvd_add hb (two_dvd_units (b := b - 1) (by omega))
    have hnear := hbelow (b - 1) (by omega)
    have hle : units c ≤ units (b - 1) := units_le_units.mpr (by omega)
    calc (units b + units c) ^ 2 ≤ (2 * t) ^ 2 := Nat.pow_le_pow_left (by omega) 2
      _ = 4 * (t * t) := by ring
      _ ≤ 4 * n := Nat.mul_le_mul_left 4 (sq_le_of_le_stickyRoot (by omega))
  · obtain ⟨t, ht⟩ := Nat.dvd_add hb (two_dvd_units (b := b + 1) (by omega))
    have hnear := habove (b + 1) (by omega) (by omega)
    have hle : units (b + 1) ≤ units c := units_le_units.mpr hc
    calc 4 * n ≤ 4 * (t * t) := Nat.mul_le_mul_left 4 (le_sq_of_stickyRoot_le (by omega))
      _ = (2 * t) ^ 2 := by ring
      _ ≤ (units b + units c) ^ 2 := Nat.pow_le_pow_left (by omega) 2

theorem fsqrt_zero (s : Bool) : fsqrt (signedZero s) = signedZero s := rfl

theorem fsqrt_negative {x : F32} (h : x.value < 0) : fsqrt x = .nan := by
  rcases x with _ | ⟨_ | _, m⟩
  · rfl
  · rw [value_pos] at h; omega
  · have h0 : m.val ≠ 0 := by rintro h0; simp [h0] at h
    rw [fsqrt, if_neg h0, if_pos rfl]

/-- A finite value that is not negative is a zero, or its root is a rounded sticky root. -/
theorem fsqrt_cases {x : F32} (hf : isfinite x = true) (h : 0 ≤ x.value) :
    (x.value = 0 ∧ fsqrt x = x) ∨
    ∃ a, 0 < a ∧ x.value = units a ∧ fsqrt x = roundF false (stickyRoot (units a * 2 ^ 149)) 2 := by
  rcases x with _ | ⟨s, m⟩
  · simp [isfinite] at hf
  rcases Nat.eq_zero_or_pos m.val with h0 | hpos
  · left
    rw [fsqrt, if_pos h0]
    cases s <;> simp [h0]
  · right
    have hu := units_pos hpos
    cases s with
    | true => rw [value_neg] at h; omega
    | false =>
      refine ⟨m.val, hpos, rfl, ?_⟩
      rw [fsqrt, if_neg hpos.ne', if_neg Bool.false_ne_true, if_neg (isfinite_num.mp hf), sqrtMag_eq]

theorem fsqrt_midpoints {x z : F32} (hf : isfinite x = true) (hx : 0 ≤ x.value) (hz : z ≠ .nan) (hz0 : 0 ≤ z.value) :
    fsqrt x ≠ .nan ∧ 0 ≤ (fsqrt x).value ∧
    (z.value < (fsqrt x).value → ((fsqrt x).value + z.value) ^ 2 ≤ 4 * (x.value * 2 ^ 149)) ∧
    ((fsqrt x).value < z.value → 4 * (x.value * 2 ^ 149) ≤ ((fsqrt x).value + z.value) ^ 2) := by
  rcases fsqrt_cases hf hx with ⟨h0, hroot⟩ | ⟨a, ha, hv, hroot⟩
  · rw [hroot, h0]
    refine ⟨(isfinite_iff.mp hf).1, le_rfl, fun h => absurd hz0 (not_le.mpr h), fun _ => ?_⟩
    rw [zero_mul, mul_zero]
    positivity
  · obtain ⟨c, hc, hzc⟩ := exists_mag hz
    have hzv : z.value = units c := by omega
    obtain ⟨hbelow, habove⟩ :=
      root_midpoints_of_nearest (isNearestEven_roundMag _ Nat.two_pos) (lt_roundMag_stickyRoot ha)
    rw [hroot, hv, hzv, value_roundF, signed, if_neg Bool.false_ne_true]
    refine ⟨roundF_ne_nan _ _ _, Int.natCast_nonneg _, fun h => ?_, fun h => ?_⟩
    · exact_mod_cast hbelow c (units_lt_units.mp (by exact_mod_cast h))
    · exact_mod_cast habove c (units_lt_units.mp (by exact_mod_cast h)) hc

/-- Settles O57, by the midpoints of the sticky root (`fsqrt_midpoints`) and the special cases. -/
theorem squareRootIsCorrectlyRounded : Obligations.SquareRootIsCorrectlyRounded :=
  ⟨fun _ _ => fsqrt_midpoints, fun _ => fsqrt_negative, rfl, fsqrt_zero, rfl⟩

end Sys2Proof.Machine

/-! PROOFS. The state: its reset values (R53), which command writes which field (R52), and the invariants every step keeps
(R27, R32 to R47, R113). A command's next state is spoken of as `issue`. -/

namespace Sys2Proof.Machine

/-! ## Reset (R53) -/

/-- Settles O12: each field of the reset state is its row of R53's table by definition. -/
theorem resetGivesEveryFieldItsValue : Obligations.ResetGivesEveryFieldItsValue :=
  ⟨rfl, fun _ => ⟨rfl, rfl, rfl, fun _ => rfl, rfl, rfl, rfl⟩⟩

/-! ## What a step and a commit can do -/

theorem issue_eq_of_exec {i : Instr} {s t : State} (h : exec i s = .next t) : issue i s = t := by
  rw [issue, h]

/-- The four events of the port, and the state each leads to (R17, R212, R215, R240). -/
theorem step_cases {s t : State} (h : step s = .next t) :
    (s.input = [] ∧ t = s) ∨
    (∃ rest, s.input = .reset :: rest ∧ t = resetBlock { s with input := rest }) ∨
    (∃ c i rest, s.input = .command c :: rest ∧ decode c = .ok i ∧ t = issue i { s with input := rest }) ∨
    (∃ c e rest, s.input = .command c :: rest ∧ decode c = .error e ∧ t = raiseIllegal { s with input := rest }) := by
  unfold step at h
  split at h
  next hi =>
    cases h
    exact .inl ⟨hi, rfl⟩
  next rest hi =>
    cases h
    exact .inr (.inl ⟨rest, hi, rfl⟩)
  next c rest hi =>
    split at h
    next i hd => exact .inr (.inr (.inl ⟨c, i, rest, hi, hd, (issue_eq_of_exec h).symm⟩))
    next e hd =>
      cases h
      exact .inr (.inr (.inr ⟨c, e, rest, hi, hd, rfl⟩))

theorem bqCommit_eq_some {b c : BQ} {k : Kind} {f q g : F32} {fs : Word} :
    bqCommit machineNum b k f q g fs = some c ↔
      (paramsUsable f q g fs = true ∧ coefsUsable (coefOf machineNum k f q g fs) = true) ∧
      { b with kind := k, f := f, q := q, gainDb := g, fs := fs, coef := coefOf machineNum k f q g fs } = c := by
  rw [bqCommit, Option.ite_none_right_eq_some, Bool.and_eq_true, Option.some_inj]

/-! ## Which command writes which field (R52) -/

section
variable {i : Instr} {s : State}

/-- An answer alone is within every row. -/
theorem writesOnly_respond (st : Status) (v : Value) : writesOnly i s (respond st v s) := by
  cases i <;> simp [writesOnly, bqWritesDelays]

theorem writesOnly_ite {c : Prop} [Decidable c] {a b : State} (ha : writesOnly i s a) (hb : writesOnly i s b) :
    writesOnly i s (if c then a else b) := iteInduction (fun _ => ha) fun _ => hb

theorem writesOnly_ite_invalid {c : Prop} [Decidable c] {a : State} (ha : writesOnly i s a) :
    writesOnly i s (if c then a else raiseInvalid s) := writesOnly_ite ha (writesOnly_respond _ _)

/-- A setter that commits writes what its accepted candidate changes, a rejected one nothing. -/
theorem writesOnly_bqFinish {o : Option BQ}
    (h : ∀ b, o = some b → writesOnly i s (respondOk { s with bq := b })) : writesOnly i s (bqFinish s o) := by
  cases o with
  | none => exact writesOnly_respond _ _
  | some b => exact h b rfl

theorem writesOnly_bqCommit {k : Kind} {f q g : F32} {fs : Word}
    (h : writesOnly i s (respondOk { s with bq := { s.bq with
      kind := k, f := f, q := q, gainDb := g, fs := fs, coef := coefOf machineNum k f q g fs } })) :
    writesOnly i s (bqFinish s (bqCommit machineNum s.bq k f q g fs)) :=
  writesOnly_bqFinish fun _ hb => (bqCommit_eq_some.mp hb).2 ▸ h

theorem writesOnly_oscCommit {f : F32} {fs : Word}
    (h : ∀ n, writesOnly i s (respondOk { s with osc := oscRetune s.osc f fs n })) :
    writesOnly i s (oscCommit f fs s) := by
  unfold oscCommit
  split
  · exact h _
  · exact writesOnly_respond _ _

end

theorem oscAdvance_rng_of_progress_ne_zero {o : OSC} (h : (oscAdvance o).progress ≠ 0) : (oscAdvance o).rng = o.rng :=
  if_neg fun h0 => h (by rw [oscAdvance_progress, h0]; rfl)

theorem writesOnly_issue (i : Instr) (s : State) : writesOnly i s (issue i s) := by
  cases i
  case rbPush w =>
    exact ⟨fun _ ha => memRead_memWrite_ne ha, rfl, feedback_bq _ _ _,
      fun hc => congrArg Prod.snd (feedback_nil hc _ _), rfl⟩
  case rbPull => exact ⟨rfl, rfl, rfl⟩
  case rbTap n => exact writesOnly_ite (writesOnly_respond _ _) (writesOnly_respond _ _)
  case rbSetDelay n => exact writesOnly_ite_invalid ⟨rfl, rfl, rfl⟩
  case rbSetModRange r => exact writesOnly_ite ⟨rfl, rfl, rfl⟩ ⟨rfl, rfl, rfl⟩
  case rbMapMod x => exact ⟨rfl, rfl, rfl⟩
  case rbSetFbGain g => exact writesOnly_ite_invalid ⟨rfl, rfl, rfl⟩
  case rbAddFb k =>
    simp only [issue, exec, execRbAddFb]
    split
    · exact writesOnly_respond _ _
    · exact writesOnly_ite (writesOnly_respond _ _) ⟨rfl, rfl, rfl⟩
  case rbGetLat => exact writesOnly_respond _ _
  case rbGetMaxLat => exact writesOnly_respond _ _
  case bqProc x => exact ⟨rfl, rfl, rfl⟩
  case bqReset => exact ⟨rfl, rfl, rfl⟩
  case bqSetKind k =>
    simp only [issue, exec, execBqSetKind]
    split
    · exact writesOnly_respond _ _
    · refine writesOnly_bqFinish fun b hb => ?_
      obtain ⟨c, hc, rfl⟩ := Option.map_eq_some_iff.mp hb
      obtain ⟨-, rfl⟩ := bqCommit_eq_some.mp hc
      exact ⟨rfl, rfl, rfl⟩
  case bqSetFreq f => exact writesOnly_bqCommit ⟨rfl, rfl, rfl⟩
  case bqSetQ q => exact writesOnly_bqCommit ⟨rfl, rfl, rfl⟩
  case bqSetGain g => exact writesOnly_bqCommit ⟨rfl, rfl, rfl⟩
  case bqSetFs n => exact writesOnly_ite_invalid (writesOnly_bqCommit ⟨rfl, rfl, rfl⟩)
  case bqSetWet w => exact writesOnly_ite_invalid ⟨rfl, rfl, rfl⟩
  case bqSetDry d => exact writesOnly_ite_invalid ⟨rfl, rfl, rfl⟩
  case oscNext => exact ⟨rfl, rfl, rfl, oscAdvance_rng_of_progress_ne_zero⟩
  case oscValue => exact writesOnly_respond _ _
  case oscValueP ph => exact writesOnly_ite_invalid (writesOnly_respond _ _)
  case oscSetWave w =>
    simp only [issue, exec, execOscSetWave]
    split
    · exact writesOnly_respond _ _
    · exact ⟨rfl, rfl, rfl⟩
  case oscSetFreq f => exact writesOnly_ite_invalid (writesOnly_oscCommit fun _ => ⟨rfl, rfl, rfl⟩)
  case oscSetFs n => exact writesOnly_ite_invalid (writesOnly_oscCommit fun _ => ⟨rfl, rfl, rfl⟩)
  case oscSetPhase ph => exact writesOnly_ite_invalid ⟨rfl, rfl, rfl⟩
  case oscSetMin m => exact writesOnly_ite_invalid ⟨rfl, rfl, rfl⟩
  case oscSetMax m => exact writesOnly_ite_invalid ⟨rfl, rfl, rfl⟩

/-- Settles O51, by `writesOnly_issue`, row by row of R52's table. -/
theorem commandsWriteOnlyTheirFields : Obligations.CommandsWriteOnlyTheirFields :=
  fun i s _ h => issue_eq_of_exec h ▸ writesOnly_issue i s

/-! ## Configurations and integers as F32 (R10, R13) -/

theorem params_wf_iff {p : Params} : p.wf = true ↔
    (1 ≤ p.log2cap ∧ p.log2cap ≤ 24) ∧ (1 ≤ p.initDelay ∧ p.initDelay < p.cap) ∧ p.fbMax ≤ 255 ∧
      1 ≤ p.fsReset ∧ p.fsReset < 2 ^ 24 := by
  simp only [Params.wf, Bool.and_eq_true, decide_eq_true_eq, and_assoc]

theorem toNat_ofNat_of_lt {n : Nat} (h : n < 2 ^ 32) : (BitVec.ofNat 32 n).toNat = n := by
  rw [BitVec.toNat_ofNat, Nat.mod_eq_of_lt h]

theorem fle_trans {x y z : F32} (hxy : fle x y = true) (hyz : fle y z = true) : fle x z = true := by
  rw [fle_iff] at *
  exact ⟨hxy.1, hyz.2.1, hxy.2.2.trans hyz.2.2⟩

theorem fle_u2f_u2f {m n : Nat} (h : m ≤ n) (hn : n ≤ 2 ^ 24) : fle (u2f m) (u2f n) = true := by
  rw [fle_iff, u2f_exact (h.trans hn), u2f_exact hn]
  exact ⟨u2f_ne_nan m, u2f_ne_nan n, by gcongr⟩

/-- An integer of at most 24 bits over a power of two is exact. -/
theorem fdiv_u2f_exact {n k : Nat} {d : F32} (hn : n ≤ 2 ^ 24) (hk : k < 128) (hd : d.value = 2 ^ (149 + k)) :
    fdiv (u2f n) d ≠ .nan ∧ (fdiv (u2f n) d).value = n * 2 ^ (149 - k) := by
  have hpos : 0 < d.value := by rw [hd]; positivity
  have hdn : d ≠ .nan := by rintro rfl; exact hpos.ne rfl
  have hdf : isfinite d = true :=
    isfinite_of_abs hdn (by rw [abs_of_pos hpos, hd]; exact pow_lt_pow_right₀ (by decide) (by omega))
  obtain ⟨hn', hv⟩ := fdiv_finite (isfinite_u2f hn) hdf hpos.ne'
  obtain ⟨c, hc, hcv⟩ := exists_value_int (z := n) (j := 149 - k) hn (Nat.sub_le _ _)
  refine ⟨hn', ?_⟩
  rw [hv, ← hcv]
  refine roundInt_exact (Int.natAbs_pos.mpr hpos.ne') hc ?_
  rw [hcv, u2f_exact hn, Int.sign_eq_one_of_pos hpos, Int.mul_one, Int.natAbs_of_nonneg hpos.le, hd, mul_assoc,
    mul_assoc, ← pow_add, ← pow_add]
  congr 2
  omega

/-! ## The constants of reset in their domains -/

theorem fle_zero_zero : fle .zero .zero = true := by decide
theorem fle_fneg_zero_zero : fle (fneg .zero) .zero = true := by decide
theorem flt_zero_one : flt .zero .one = true := by decide
theorem inUnitInterval_zero : inUnitInterval .zero = true := by decide
theorem inUnitInterval_one : inUnitInterval .one = true := by decide
theorem isfinite_zero : isfinite .zero = true := by decide
theorem isfinite_one : isfinite .one = true := by decide
theorem coefsUsable_identity : coefsUsable Coefs.identity = true := by decide

/-! ## RB keeps its invariants (R27, R32, R106, R107, R113) -/

section
variable {p : Params} {rb : RB}

theorem RB.Inv.reset (hp : p.wf = true) : RB.Inv p (RB.reset p) := by
  obtain ⟨-, ⟨hd, hdlt⟩, -⟩ := params_wf_iff.mp hp
  have hcap := cap_le_of_wf hp
  have hdelay : (RB.reset p).delay.toNat = p.initDelay := toNat_ofNat_of_lt (by omega)
  exact {
    buf_wf := rfl
    wr_lt := cap_pos p
    rd_lt := Nat.sub_lt (cap_pos p) hd
    delay_pos := hdelay ▸ hd
    delay_lt := hdelay ▸ hdlt
    modRange_nonneg := fle_zero_zero
    modRange_le := fle_u2f_u2f (Nat.zero_le _) (by omega)
    modOffset_lower := fle_fneg_zero_zero
    modOffset_upper := fle_zero_zero
    fbGain_unit := inUnitInterval_zero
    chain_length := Nat.zero_le _ }

theorem RB.Inv.push (h : RB.Inv p rb) (x fb : F32) : RB.Inv p (rbPush p rb x fb) :=
  { h with buf_wf := memWrite_wf h.wr_lt h.buf_wf, wr_lt := by rw [rbPush_wr]; exact wrap_lt p _ }

theorem RB.Inv.moveRead (h : RB.Inv p rb) (i : Int) : RB.Inv p { rb with rd := wrap p i } :=
  { h with rd_lt := wrap_lt p i }

theorem RB.Inv.setDelay (h : RB.Inv p rb) {n : Word} (hn : delayAccepted p rb n = true) :
    RB.Inv p { rb with rd := wrap p ((rb.wr : Int) - (n.toNat : Int)), delay := n } := by
  simp only [delayAccepted, Bool.and_eq_true, decide_eq_true_eq] at hn
  obtain ⟨⟨hpos, hlt⟩, -⟩ := hn
  exact { h.moveRead _ with delay_pos := hpos, delay_lt := hlt }

/-- A range up to the capacity may be set; the offset is clamped to it. -/
theorem RB.Inv.setRange (h : RB.Inv p rb) {r : F32} (h0 : fle .zero r = true) (hr : fle r (u2f (p.cap - 1)) = true) :
    RB.Inv p (rbSetRange rb r) := by
  obtain ⟨hlower, hupper⟩ := clampOffset_bounds (fle_iff.mp h.modOffset_upper).1 h0
  exact { h with modRange_nonneg := h0, modRange_le := hr, modOffset_lower := hlower, modOffset_upper := hupper }

/-- An accepted range is at most the latency, and so below the capacity. -/
theorem modRangeAccepted_bounds (hp : p.wf = true) {r : F32} (h : modRangeAccepted p rb r = true) :
    fle .zero r = true ∧ fle r (u2f (p.cap - 1)) = true := by
  rw [modRangeAccepted, Bool.and_eq_true] at h
  have hlat := lat_lt p rb
  have hcap := cap_le_of_wf hp
  exact ⟨h.1, fle_trans h.2 (fle_u2f_u2f (by omega) (by omega))⟩

theorem RB.Inv.clearRange (hp : p.wf = true) (h : RB.Inv p rb) : RB.Inv p (rbSetRange rb .zero) :=
  h.setRange fle_zero_zero (fle_u2f_u2f (Nat.zero_le _) ((Nat.sub_le _ _).trans (cap_le_of_wf hp)))

theorem RB.Inv.mapMod (hp : p.wf = true) (h : RB.Inv p rb) (x : F32) :
    RB.Inv p { rb with modOffset := fmul rb.modRange (modInput x) } := by
  have hfin := isfinite_of_fle_u2f ((Nat.sub_le _ _).trans (cap_le_of_wf hp)) h.modRange_nonneg h.modRange_le
  obtain ⟨hlower, hupper⟩ := fmul_modInput_bounds hfin h.modRange_nonneg x
  exact { h with modOffset_lower := hlower, modOffset_upper := hupper }

theorem RB.Inv.setFbGain (h : RB.Inv p rb) {g : F32} (hg : inUnitInterval g = true) : RB.Inv p { rb with fbGain := g } :=
  { h with fbGain_unit := hg }

theorem RB.Inv.addFb (h : RB.Inv p rb) (hroom : rb.chain.length < p.fbMax) (st : Stage) :
    RB.Inv p { rb with chain := rb.chain ++ [st] } :=
  { h with chain_length := by rw [List.length_append]; exact hroom }

end

/-! ## BQ keeps its invariants (R34 to R36, R38, R39) -/

section
variable {b c : BQ}

/-- The reset frequency is a quarter of the sample rate, exactly, and so positive and below half of it. -/
theorem BQ.Inv.reset {p : Params} (hp : p.wf = true) : BQ.Inv (BQ.reset p) := by
  obtain ⟨-, -, -, hpos, hlt⟩ := params_wf_iff.mp hp
  have hfs : (BitVec.ofNat 32 p.fsReset).toNat = p.fsReset := toNat_ofNat_of_lt (by omega)
  obtain ⟨hq, hqv⟩ := fdiv_u2f_exact (k := 2) (d := .four) hlt.le (by decide) value_four
  obtain ⟨hh, hhv⟩ := fdiv_u2f_exact (k := 1) (d := .two) hlt.le (by decide) value_two
  have hf : flt .zero (fdiv (u2f p.fsReset) .four) = true :=
    flt_iff.mpr ⟨zero_ne_nan, hq, by rw [value_zero, hqv]; omega⟩
  have hnyquist : flt (fdiv (u2f p.fsReset) .four) (fdiv (u2f p.fsReset) .two) = true :=
    flt_iff.mpr ⟨hq, hh, by rw [hqv, hhv]; omega⟩
  exact {
    params_usable := by
      simp only [paramsUsable, BQ.reset, hfs, hf, hnyquist, flt_zero_one, isfinite_zero, Bool.and_self]
    fs_pos := hfs.symm ▸ hpos
    fs_lt := hfs.symm ▸ hlt.trans (by decide)
    coefs_usable := coefsUsable_identity
    coefs_match := .inl rfl
    wet_unit := inUnitInterval_one
    dry_unit := inUnitInterval_zero }

/-- No invariant of BQ speaks of the delay registers. -/
theorem BQ.Inv.of_delays (h : BQ.Inv b) (hc : c = { b with x1 := c.x1, x2 := c.x2, y1 := c.y1, y2 := c.y2 }) :
    BQ.Inv c := by
  rw [hc]
  exact { h with }

/-- An accepted candidate was checked, and its coefficients are those of its parameters. -/
theorem BQ.Inv.commit (h : BQ.Inv b) {k : Kind} {f q g : F32} {fs : Word} (hfs : 1 ≤ fs.toNat ∧ fs.toNat < 2 ^ 31)
    (hc : bqCommit machineNum b k f q g fs = some c) : BQ.Inv c := by
  obtain ⟨⟨hparams, hcoefs⟩, rfl⟩ := bqCommit_eq_some.mp hc
  exact { h with
    params_usable := hparams
    fs_pos := hfs.1
    fs_lt := hfs.2
    coefs_usable := hcoefs
    coefs_match := .inr rfl }

end

/-! ## OSC keeps its invariants (R41 to R45, R47) -/

/-- A cycle length lies in 1 to 2^31 (R181). -/
theorem spcOf_bounds {f : F32} {fs : Word} {n : Nat} (h : spcOf f fs = some n) : 1 ≤ n ∧ n ≤ 2 ^ 31 := by
  rw [spcOf, Option.ite_none_right_eq_some, Bool.and_eq_true, fle_iff, flt_iff, value_half, value_twoPow31] at h
  obtain ⟨⟨⟨-, -, hlo⟩, -, -, hhi⟩, hn⟩ := h
  rw [Option.some_inj, roundHalfUp] at hn
  omega

/-- At 1 Hz the cycle is as long as the sample rate. -/
theorem spcOf_one {fs : Word} (hpos : 1 ≤ fs.toNat) (hlt : fs.toNat < 2 ^ 24) : spcOf .one fs = some fs.toNat := by
  have hv := u2f_exact hlt.le
  have hlo : fle .half (u2f fs.toNat) = true := fle_iff.mpr ⟨by decide, u2f_ne_nan _, by rw [value_half, hv]; omega⟩
  have hhi : flt (u2f fs.toNat) .twoPow31 = true :=
    flt_iff.mpr ⟨u2f_ne_nan _, by decide, by rw [value_twoPow31, hv]; omega⟩
  have hround : (roundHalfUp (u2f fs.toNat)).toNat = fs.toNat := by rw [roundHalfUp, hv]; omega
  simp only [spcOf, fdiv_one, hlo, hhi, hround, Bool.and_self, if_true]

section
variable {o : OSC}

theorem OSC.Inv.reset {p : Params} (hp : p.wf = true) : OSC.Inv (OSC.reset p) := by
  obtain ⟨-, -, -, hpos, hlt⟩ := params_wf_iff.mp hp
  have hfs : (BitVec.ofNat 32 p.fsReset).toNat = p.fsReset := toNat_ofNat_of_lt (by omega)
  rw [← hfs] at hpos hlt
  exact {
    f_pos := flt_zero_one
    fs_pos := hpos
    fs_lt := hlt.trans (by decide)
    spc_pos := hpos
    spc_le := hlt.le.trans (by decide)
    spc_derived := spcOf_one hpos hlt
    progress_lt := hpos
    phase_unit := inUnitInterval_zero
    min_finite := isfinite_zero
    max_finite := isfinite_one }

theorem OSC.Inv.advance (h : OSC.Inv o) : OSC.Inv (oscAdvance o) := by
  have hlt := Nat.mod_lt (o.progress.toNat + 1) h.spc_pos
  have hspc := h.spc_le
  exact { h with progress_lt := by rw [oscAdvance_progress, toNat_ofNat_of_lt (by omega)]; exact hlt }

theorem OSC.Inv.retune (h : OSC.Inv o) {f : F32} {fs : Word} {n : Nat} (hf : flt .zero f = true)
    (hfs : 1 ≤ fs.toNat ∧ fs.toNat < 2 ^ 31) (hn : spcOf f fs = some n) : OSC.Inv (oscRetune o f fs n) := by
  obtain ⟨hpos, hle⟩ := spcOf_bounds hn
  have hlt := Nat.mod_lt o.progress.toNat hpos
  have hspc : (oscRetune o f fs n).spc.toNat = n := toNat_ofNat_of_lt (by omega)
  have hprogress : (oscRetune o f fs n).progress.toNat = o.progress.toNat % n := toNat_ofNat_of_lt (by omega)
  exact { h with
    f_pos := hf
    fs_pos := hfs.1
    fs_lt := hfs.2
    spc_pos := hspc.symm ▸ hpos
    spc_le := hspc.symm ▸ hle
    spc_derived := hspc.symm ▸ hn
    progress_lt := by rw [hspc, hprogress]; exact hlt }

end

/-! ## Every step keeps every invariant -/

section
variable {s : State}

theorem State.Inv.respond (h : s.Inv) (st : Status) (v : Value) : (respond st v s).Inv := { h with }

theorem State.Inv.resetBlock (h : s.Inv) : (resetBlock s).Inv :=
  ⟨h.cfg_wf, .reset h.cfg_wf, .reset h.cfg_wf, .reset h.cfg_wf⟩

/-- A checked setter: the check is what the new value's invariant needs, and a rejection changes nothing. -/
theorem State.Inv.ite_invalid (h : s.Inv) {c : Prop} [Decidable c] {a : State} (ha : c → a.Inv) :
    (if c then a else raiseInvalid s).Inv := iteInduction ha fun _ => h.respond _ _

theorem State.Inv.bqFinish (h : s.Inv) {o : Option BQ} (ho : ∀ b, o = some b → BQ.Inv b) : (bqFinish s o).Inv := by
  cases o with
  | none => exact h.respond _ _
  | some b => exact { h with bq := ho b rfl }

theorem State.Inv.bqCommit (h : s.Inv) {k : Kind} {f q g : F32} {fs : Word} (hfs : 1 ≤ fs.toNat ∧ fs.toNat < 2 ^ 31) :
    (Machine.bqFinish s (Machine.bqCommit machineNum s.bq k f q g fs)).Inv :=
  h.bqFinish fun _ hb => h.bq.commit hfs hb

theorem State.Inv.oscCommit (h : s.Inv) {f : F32} {fs : Word} (hf : flt .zero f = true)
    (hfs : 1 ≤ fs.toNat ∧ fs.toNat < 2 ^ 31) : (oscCommit f fs s).Inv := by
  unfold Machine.oscCommit
  split
  · next n hn => exact { h with osc := h.osc.retune hf hfs hn }
  · exact h.respond _ _

/-- Every command keeps every invariant, accepted or rejected. -/
theorem State.Inv.issue (h : s.Inv) (i : Instr) : (issue i s).Inv := by
  have hfs : 1 ≤ s.bq.fs.toNat ∧ s.bq.fs.toNat < 2 ^ 31 := ⟨h.bq.fs_pos, h.bq.fs_lt⟩
  cases i
  case rbPush w => exact { h with rb := h.rb.push _ _, bq := h.bq.of_delays (feedback_bq _ _ _) }
  case rbPull => exact { h with rb := h.rb.moveRead _ }
  case rbTap n =>
    simp only [Machine.issue, exec, execRbTap]
    split <;> exact h.respond _ _
  case rbSetDelay n => exact h.ite_invalid fun hn => { h with rb := h.rb.setDelay hn }
  case rbSetModRange r =>
    simp only [Machine.issue, exec, execRbSetModRange]
    split
    · next hr =>
      obtain ⟨h0, hle⟩ := modRangeAccepted_bounds h.cfg_wf hr
      exact { h with rb := h.rb.setRange h0 hle }
    · exact { h with rb := h.rb.clearRange h.cfg_wf }
  case rbMapMod x => exact { h with rb := h.rb.mapMod h.cfg_wf _ }
  case rbSetFbGain g => exact h.ite_invalid fun hg => { h with rb := h.rb.setFbGain hg }
  case rbAddFb k =>
    simp only [Machine.issue, exec, execRbAddFb]
    split
    · exact h.respond _ _
    · split
      · exact h.respond _ _
      · next hroom => exact { h with rb := h.rb.addFb (Nat.lt_of_not_le hroom) _ }
  case rbGetLat => exact h.respond _ _
  case rbGetMaxLat => exact h.respond _ _
  case bqProc x => exact { h with bq := h.bq.of_delays rfl }
  case bqReset => exact { h with bq := h.bq.of_delays rfl }
  case bqSetKind k =>
    simp only [Machine.issue, exec, execBqSetKind]
    split
    · exact h.respond _ _
    · refine h.bqFinish fun b hb => ?_
      obtain ⟨c, hc, rfl⟩ := Option.map_eq_some_iff.mp hb
      exact (h.bq.commit hfs hc).of_delays rfl
  case bqSetFreq f => exact h.bqCommit hfs
  case bqSetQ q => exact h.bqCommit hfs
  case bqSetGain g => exact h.bqCommit hfs
  case bqSetFs n => exact h.ite_invalid fun hn => h.bqCommit (positiveI32_bounds hn)
  case bqSetWet w => exact h.ite_invalid fun hw => { h with bq := { h.bq with wet_unit := hw } }
  case bqSetDry d => exact h.ite_invalid fun hd => { h with bq := { h.bq with dry_unit := hd } }
  case oscNext => exact { h with osc := h.osc.advance }
  case oscValue => exact h.respond _ _
  case oscValueP ph => exact h.ite_invalid fun _ => h.respond _ _
  case oscSetWave w =>
    simp only [Machine.issue, exec, execOscSetWave]
    split
    · exact h.respond _ _
    · exact { h with osc := { h.osc with } }
  case oscSetFreq f => exact h.ite_invalid fun hf => h.oscCommit hf ⟨h.osc.fs_pos, h.osc.fs_lt⟩
  case oscSetFs n => exact h.ite_invalid fun hn => h.oscCommit h.osc.f_pos (positiveI32_bounds hn)
  case oscSetPhase ph => exact h.ite_invalid fun hp => { h with osc := { h.osc with phase_unit := hp } }
  case oscSetMin m => exact h.ite_invalid fun hm => { h with osc := { h.osc with min_finite := hm } }
  case oscSetMax m => exact h.ite_invalid fun hm => { h with osc := { h.osc with max_finite := hm } }

end

/-- Settles O14, by the event the port holds (`step_cases`): none, a reset pulse, a command, an illegal word. -/
theorem stepKeepsTheInvariants : Obligations.StepKeepsTheInvariants := by
  intro s t h hstep
  have hrest (rest : List PortInput) : State.Inv { s with input := rest } := { h with }
  obtain ⟨-, rfl⟩ | ⟨rest, -, rfl⟩ | ⟨c, i, rest, -, -, rfl⟩ | ⟨c, e, rest, -, -, rfl⟩ := step_cases hstep
  · exact h
  · exact (hrest rest).resetBlock
  · exact (hrest rest).issue i
  · exact (hrest rest).respond _ _

end Sys2Proof.Machine

/-! PROOFS. The encoding: the decoder and the encoder (R80 to R86), the command a step runs (R17), the words of a
response (R83), and the words of the assembler (R90). -/

namespace Sys2Proof

/-! ## Decoding an encoded command (R84, R85) -/

theorem decode_commandWord (op : BitVec 8) (arg : Word) :
    decode (commandWord op arg) = decodeRaw { opcode := op, operand := arg } :=
  congrArg decodeRaw (rawCommand_commandWord op arg)

theorem decode_encode (i : Instr) : decode (encode i) = .ok i := by
  cases i <;> exact decode_commandWord _ _

/-- Settles O1, by `decode_encode`, command by command. -/
theorem decodeOfEncodeIsIdentity : Obligations.DecodeOfEncodeIsIdentity := decode_encode

theorem encode_inj {i j : Instr} : encode i = encode j ↔ i = j :=
  ⟨fun h => Except.ok.inj ((decode_encode i).symm.trans (h ▸ decode_encode j)), congrArg encode⟩

/-! ## What decoding a word can answer (R85, R86) -/

/-- R85 and R86: an opcode outside R84's table, a format N opcode with an operand, or a legal word, which is the encoding
of its command. -/
inductive DecodesTo (r : RawCommand) : Except IllegalWord Instr → Prop
  | notDefined (hf : opcodeFormat r.opcode = none) : DecodesTo r (.error .opcodeNotDefined)
  | notZero (hf : opcodeFormat r.opcode = some .none) (ha : r.operand ≠ 0) : DecodesTo r (.error .operandNotZero)
  | command {i : Instr} (hw : r.wf = true) (hi : encode i = commandWord r.opcode r.operand) : DecodesTo r (.ok i)

/-- R86's ranges of opcodes that are no command. -/
theorem opcodeFormat_eq_none_iff : ∀ op : BitVec 8, opcodeFormat op = none ↔
    op.toNat ≤ 0x0F ∨ (0x1A ≤ op.toNat ∧ op.toNat ≤ 0x1F) ∨ (0x29 ≤ op.toNat ∧ op.toNat ≤ 0x2F) ∨ 0x39 ≤ op.toNat := by
  decide

/-- The six opcodes of format N. -/
theorem opcodeFormat_eq_formatN_iff : ∀ op : BitVec 8, opcodeFormat op = some .none ↔
    op.toNat ∈ [0x11, 0x18, 0x19, 0x21, 0x30, 0x31] := by
  decide

theorem eq_ofNat_of_toNat_eq {op : BitVec 8} {n : Nat} (h : op.toNat = n) : op = BitVec.ofNat 8 n := by
  rw [← h, BitVec.ofNat_toNat, BitVec.setWidth_eq]

theorem decodesTo_noOperand {op : BitVec 8} {i : Instr} (arg : Word) (hf : opcodeFormat op = some .none)
    (hi : encode i = commandWord op 0) : DecodesTo { opcode := op, operand := arg } (noOperand arg i) := by
  unfold noOperand
  split
  next ha =>
    subst ha
    exact .command (rawCommand_commandWord op 0 ▸ wf_of_none hf) hi
  next ha => exact .notZero hf ha

theorem decodesTo_decodeRaw (r : RawCommand) : DecodesTo r (decodeRaw r) := by
  obtain ⟨op, arg⟩ := r
  unfold decodeRaw
  split
  -- no opcode of the table: R86's ranges are what the 28 opcodes leave
  case h_29 => exact .notDefined ((opcodeFormat_eq_none_iff op).mpr (by grind))
  all_goals
    rename_i hop
    obtain rfl := eq_ofNat_of_toNat_eq hop
  -- the opcodes of format N, then those of formats F and U
  case h_2 | h_9 | h_10 | h_12 | h_20 | h_21 => exact decodesTo_noOperand arg rfl rfl
  all_goals exact .command rfl rfl

theorem wf_cases {r : RawCommand} (h : r.wf = true) :
    opcodeFormat r.opcode ≠ none ∧ (opcodeFormat r.opcode = some .none → r.operand = 0) := by
  unfold RawCommand.wf at h
  split at h <;> simp_all

/-- A word has one answer: the format and the operand exclude two different errors and an error of a legal word, and two
commands with one encoding are one command. -/
theorem DecodesTo.unique {r : RawCommand} {x y : Except IllegalWord Instr} (hx : DecodesTo r x) (hy : DecodesTo r y) :
    x = y := by
  cases hx <;> cases hy <;> grind [wf_cases, encode_inj]

theorem decode_eq_iff {c : CommandWord} {x : Except IllegalWord Instr} : decode c = x ↔ DecodesTo (rawCommand c) x :=
  ⟨fun h => h ▸ decodesTo_decodeRaw _, (decodesTo_decodeRaw _).unique⟩

theorem decode_eq_ok_iff {c : CommandWord} {i : Instr} : decode c = .ok i ↔ encode i = c := by
  refine ⟨fun h => ?_, fun h => h ▸ decode_encode i⟩
  cases decode_eq_iff.mp h with
  | command _ hi => rw [hi, commandWord_rawCommand]

theorem decode_eq_opcodeNotDefined_iff {c : CommandWord} :
    decode c = .error .opcodeNotDefined ↔ opcodeFormat (rawCommand c).opcode = none :=
  decode_eq_iff.trans ⟨fun | .notDefined hf => hf, .notDefined⟩

theorem decode_eq_operandNotZero_iff {c : CommandWord} :
    decode c = .error .operandNotZero ↔ opcodeFormat (rawCommand c).opcode = some .none ∧ (rawCommand c).operand ≠ 0 :=
  decode_eq_iff.trans ⟨fun | .notZero hf ha => ⟨hf, ha⟩, fun ⟨hf, ha⟩ => .notZero hf ha⟩

theorem exists_decode_of_wf {c : CommandWord} (h : (rawCommand c).wf = true) : ∃ i, decode c = .ok i := by
  obtain ⟨hdef, harg⟩ := wf_cases h
  cases hd : decode c with
  | ok i => exact ⟨i, rfl⟩
  | error e =>
    cases decode_eq_iff.mp hd with
    | notDefined hf => exact absurd hf hdef
    | notZero hf ha => exact absurd (harg hf) ha

/-- Settles O2: a legal word is the encoding of its command (`decode_eq_ok_iff`). -/
theorem legalWordsHaveOneMeaning : Obligations.LegalWordsHaveOneMeaning :=
  ⟨fun _ _ => decode_eq_ok_iff.mp,
    fun _ _ _ h h' => (decode_eq_ok_iff.mp h).symm.trans (decode_eq_ok_iff.mp h')⟩

/-- Settles O5: each of the seven words is the encoding of its command. -/
theorem specWordsDecodeAsWritten : Obligations.SpecWordsDecodeAsWritten := by
  refine ⟨?_, ?_, ?_, ?_, ?_, ?_, ?_⟩ <;> exact decode_eq_ok_iff.mpr (by decide)

/-! ## The opcode table by mask and match (R84) -/

theorem commandWord_inj {op op' : BitVec 8} {arg arg' : Word} :
    commandWord op arg = commandWord op' arg' ↔ op = op' ∧ arg = arg' := by
  refine ⟨fun h => ?_, fun ⟨ho, ha⟩ => ho ▸ ha ▸ rfl⟩
  have hr := congrArg rawCommand h
  rwa [rawCommand_commandWord, rawCommand_commandWord, RawCommand.mk.injEq] at hr

/-- The mask of formats F and U keeps the opcode and clears the operand. -/
theorem commandWord_and_opcodeMask (op : BitVec 8) (arg : Word) :
    commandWord op arg &&& 0xFF00000000 = commandWord op 0 := by
  have hmask : (0xFF00000000 : CommandWord) = BitVec.allOnes 8 ++ (0 : Word) := by decide
  rw [hmask, commandWord, BitVec.and_append, BitVec.and_allOnes]
  exact congrArg (commandWord op) BitVec.and_zero

/-- A row of format F or U: the bits under the mask are the match, and bits 31:0 the operand. -/
theorem decode_operand_row {i : Instr} {op : BitVec 8} {arg : Word} {m : CommandWord} (c : CommandWord)
    (hi : encode i = commandWord op arg) (hm : commandWord op 0 = m := by decide) :
    decode c = .ok i ↔ c &&& 0xFF00000000 = m ∧ c.extractLsb' 0 32 = arg := by
  rw [decode_eq_ok_iff, hi, ← hm, ← commandWord_rawCommand c, commandWord_and_opcodeMask, commandWord_operand,
    commandWord_inj, commandWord_inj]
  simp [eq_comm]

/-- A row of format N: the whole word is the match. -/
theorem decode_plain_row {i : Instr} {m : CommandWord} (c : CommandWord) (hi : encode i = m) :
    decode c = .ok i ↔ c &&& 0xFFFFFFFFFF = m := by
  have hmask : (0xFFFFFFFFFF : CommandWord) = BitVec.allOnes 40 := by decide
  rw [decode_eq_ok_iff, hi, hmask, BitVec.and_allOnes, eq_comm]

/-- Settles O3, row by row: `decode_operand_row` for formats F and U, `decode_plain_row` for format N. -/
theorem opcodeTableDecodesEachCommand : Obligations.OpcodeTableDecodesEachCommand := fun c _ =>
  ⟨decode_operand_row c rfl, decode_plain_row c rfl, decode_operand_row c rfl, decode_operand_row c rfl,
    decode_operand_row c rfl, decode_operand_row c rfl, decode_operand_row c rfl, decode_operand_row c rfl,
    decode_plain_row c rfl, decode_plain_row c rfl, decode_operand_row c rfl, decode_plain_row c rfl,
    decode_operand_row c rfl, decode_operand_row c rfl, decode_operand_row c rfl, decode_operand_row c rfl,
    decode_operand_row c rfl, decode_operand_row c rfl, decode_operand_row c rfl, decode_plain_row c rfl,
    decode_plain_row c rfl, decode_operand_row c rfl, decode_operand_row c rfl, decode_operand_row c rfl,
    decode_operand_row c rfl, decode_operand_row c rfl, decode_operand_row c rfl, decode_operand_row c rfl⟩

end Sys2Proof

namespace Sys2Proof.Machine

/-! ## The step on a presented word (R17, R85, R212) -/

section
variable {s : State} {c : CommandWord} {rest : List PortInput}

theorem step_of_decode_ok {i : Instr} (hs : s.input = .command c :: rest) (hd : decode c = .ok i) :
    step s = exec i { s with input := rest } := by
  unfold step
  rw [hs]
  simp only [hd]

theorem step_of_decode_error {e : IllegalWord} (hs : s.input = .command c :: rest) (hd : decode c = .error e) :
    step s = .next (raiseIllegal { s with input := rest }) := by
  unfold step
  rw [hs]
  simp only [hd]

end

/-- Settles O7, by `step_of_decode_ok`. -/
theorem stepRunsTheDecodedCommand : Obligations.StepRunsTheDecodedCommand :=
  fun _ _ _ _ => step_of_decode_ok

/-- Settles O4: which words are illegal, by the format of the opcode; the step on one, by `step_of_decode_error`. -/
theorem illegalWordsAreRejectedUnchanged : Obligations.IllegalWordsAreRejectedUnchanged :=
  ⟨fun _ => ⟨decode_eq_opcodeNotDefined_iff.trans (opcodeFormat_eq_none_iff _),
      decode_eq_operandNotZero_iff.trans (and_congr_left' (opcodeFormat_eq_formatN_iff _))⟩,
    fun _ _ _ _ => step_of_decode_error⟩

/-! ## The response word (R83) -/

theorem ofBits_nanBits (n : Nat) : F32.ofBits (nanBits n) = .nan := by
  unfold nanBits
  split
  next h => exact h
  next => decide

/-- The word of an F32 result: the status code over bits that stand for the result. -/
theorem responseWord_floatValue (n : Nat) (st : Status) (v : F32) :
    ∃ w : Word, responseWord n { status := st, value := floatValue v } = statusCode st ++ w ∧ F32.ofBits w = v := by
  cases v with
  | nan => exact ⟨nanBits n, rfl, ofBits_nanBits n⟩
  | num neg mag => exact ⟨_, rfl, F32.ofBits_toBits _⟩

/-- Settles O11: a response word is the status code put in front of the 32 bits of its value. -/
theorem responseWordHoldsStatusAndValue : Obligations.ResponseWordHoldsStatusAndValue := by
  intro n st v w
  obtain ⟨b, hword, hb⟩ := responseWord_floatValue n st v
  rw [hword, BitVec.extractLsb'_append_eq_left, BitVec.extractLsb'_append_eq_right]
  exact ⟨BitVec.extractLsb'_append_eq_left, BitVec.extractLsb'_append_eq_right, rfl, hb⟩

/-! ## The words of the assembler (R90) -/

/-- The word of a line's operand, by the format of its command: none for format N, one token for formats F and U. -/
def operandWord (m : String) : Format → Option AsmOperand → Option Word
  | .none, none => some 0
  | .float, some a => floatLiteral a
  | .int, some a => intLiteral m a
  | _, _ => none

/-- The mnemonics of each format, with their opcodes (R84). -/
def mnemonicsOf : Format → List (String × BitVec 8)
  | .none => [("RB_PULL", 0x11), ("RB_GETLAT", 0x18), ("RB_GETMAXLAT", 0x19), ("BQ_RESET", 0x21), ("OSC_NEXT", 0x30),
      ("OSC_VALUE", 0x31)]
  | .float => [("RB_PUSH", 0x10), ("RB_SETMODRANGE", 0x14), ("RB_MAPMOD", 0x15), ("RB_SETFBGAIN", 0x16),
      ("BQ_PROC", 0x20), ("BQ_SETFREQ", 0x23), ("BQ_SETQ", 0x24), ("BQ_SETGAIN", 0x25), ("BQ_SETWET", 0x27),
      ("BQ_SETDRY", 0x28), ("OSC_VALUEP", 0x32), ("OSC_SETFREQ", 0x34), ("OSC_SETPHASE", 0x36), ("OSC_SETMIN", 0x37),
      ("OSC_SETMAX", 0x38)]
  | .int => [("RB_TAP", 0x12), ("RB_SETDELAY", 0x13), ("RB_ADDFB", 0x17), ("BQ_SETKIND", 0x22), ("BQ_SETFS", 0x26),
      ("OSC_SETWAVE", 0x33), ("OSC_SETFS", 0x35)]

/-- The words of the symbolic names, each with its own command (R89). -/
def symbolWords : List (String × String × CommandWord) :=
  [("BQ_SETKIND", "LowPass", 0x2200000000), ("BQ_SETKIND", "HighPass", 0x2200000001),
    ("BQ_SETKIND", "BandPass", 0x2200000002), ("BQ_SETKIND", "Notch", 0x2200000003),
    ("BQ_SETKIND", "LowShelf", 0x2200000004), ("BQ_SETKIND", "HighShelf", 0x2200000005),
    ("BQ_SETKIND", "Peaking", 0x2200000006), ("OSC_SETWAVE", "sine", 0x3300000000),
    ("OSC_SETWAVE", "triangle", 0x3300000001), ("OSC_SETWAVE", "square", 0x3300000002),
    ("OSC_SETWAVE", "saw", 0x3300000003), ("OSC_SETWAVE", "random", 0x3300000004), ("RB_ADDFB", "BIQUAD", 0x1700000001)]

section
variable {m s : String} {op : BitVec 8} {f : Format} {o : Option AsmOperand} {w : Word} {c : CommandWord}

theorem assemble_of_format (hm : mnemonicOpcode m = some op) (hf : opcodeFormat op = some f) (o : Option AsmOperand) :
    assemble m o = (operandWord m f o).map (commandWord op) := by
  simp only [assemble, hm, hf]
  cases f <;> cases o <;> rfl

theorem mnemonicsOf_spec (f : Format) :
    ∀ r ∈ mnemonicsOf f, mnemonicOpcode r.1 = some r.2 ∧ opcodeFormat r.2 = some f := by
  cases f <;> decide

theorem assemble_of_mem (h : (m, op) ∈ mnemonicsOf f) (o : Option AsmOperand) :
    assemble m o = (operandWord m f o).map (commandWord op) :=
  have ⟨hm, hf⟩ := mnemonicsOf_spec f _ h
  assemble_of_format hm hf o

theorem exists_mem_mnemonicsOf (h : mnemonicOpcode m = some op) : ∃ f, (m, op) ∈ mnemonicsOf f := by
  unfold mnemonicOpcode at h
  split at h <;> cases h
  -- the mnemonics of format N, of format U, of format F
  case h_2 | h_9 | h_10 | h_12 | h_20 | h_21 => exact ⟨.none, by decide⟩
  case h_3 | h_4 | h_8 | h_13 | h_17 | h_23 | h_25 => exact ⟨.int, by decide⟩
  all_goals exact ⟨.float, by decide⟩

/-- Whatever has a word has a mnemonic of R84, and an operand of that mnemonic's format. -/
theorem exists_of_assemble_eq_some (h : assemble m o = some c) :
    ∃ f op w, (m, op) ∈ mnemonicsOf f ∧ operandWord m f o = some w ∧ commandWord op w = c := by
  cases hm : mnemonicOpcode m with
  | none => simp [assemble, hm] at h
  | some op =>
    obtain ⟨f, hmem⟩ := exists_mem_mnemonicsOf hm
    rw [assemble_of_mem hmem, Option.map_eq_some_iff] at h
    obtain ⟨w, hw, hc⟩ := h
    exact ⟨f, op, w, hmem, hw, hc⟩

/-- An assembled word is legal: of format N only the operand 0 is assembled (R85). -/
theorem wf_of_operandWord (hf : opcodeFormat op = some f) (hw : operandWord m f o = some w) :
    (rawCommand (commandWord op w)).wf = true := by
  cases f with
  | none =>
    cases o with
    | none =>
      cases hw
      exact wf_of_none hf
    | some a => cases hw
  | float => exact wf_of_float w hf
  | int => exact wf_of_int w hf

/-- The bits of a rounded value: the magnitude nearest to the exact one, and the sign in bit 31 (R13). -/
theorem toBits_roundF_nearest (neg : Bool) (n : Nat) {d : Nat} (hd : 0 < d) :
    ∃ b, (F32.toBits (roundF neg n d)).toNat = b + (if neg then 2 ^ 31 else 0) ∧ IsNearestEven n d b :=
  ⟨_, F32.toNat_toBits_num _ _, isNearestEven_roundMag n hd⟩

theorem symbolWords_spec : ∀ r ∈ symbolWords, assemble r.1 (some (.name r.2.1)) = some r.2.2 := by decide

theorem exists_mem_symbolWords (h : symbolCode m s = some w) : ∃ r ∈ symbolWords, r.1 = m ∧ r.2.1 = s := by
  unfold symbolCode at h
  split at h <;> cases h <;> decide

/-- Only a format U command reads a name, and only one of its own. -/
theorem assemble_name_eq_some_iff : assemble m (some (.name s)) = some c ↔ (m, s, c) ∈ symbolWords := by
  refine ⟨fun h => ?_, symbolWords_spec (m, s, c)⟩
  obtain ⟨f, op, w, -, hw, -⟩ := exists_of_assemble_eq_some h
  cases f with
  | none => cases hw
  | float => cases hw
  | int =>
    obtain ⟨⟨m, s, c'⟩, hmem, rfl, rfl⟩ := exists_mem_symbolWords hw
    have hc : c' = c := Option.some.inj ((symbolWords_spec _ hmem).symm.trans h)
    exact hc ▸ hmem

/-- A mnemonic of any format stands in the list of all of them. -/
theorem mem_append_of_mem_mnemonicsOf (h : (m, op) ∈ mnemonicsOf f) :
    (m, op) ∈ mnemonicsOf .none ++ mnemonicsOf .float ++ mnemonicsOf .int := by
  rw [List.mem_append, List.mem_append]
  cases f with
  | none => exact .inl (.inl h)
  | float => exact .inl (.inr h)
  | int => exact .inr h

end

/-- Settles O6: the words of each format by `assemble_of_mem`, the names by `assemble_name_eq_some_iff`, and every word by
`exists_of_assemble_eq_some`. -/
theorem assembledWordsAreLegal : Obligations.AssembledWordsAreLegal := by
  refine ⟨fun m op h => ?_, fun m op h => ?_, fun m op h => ?_, fun _ _ _ => assemble_name_eq_some_iff, fun m o c h => ?_⟩
  · have word := assemble_of_mem (f := .none) h
    exact ⟨word none, fun a => word (some a)⟩
  · have word := assemble_of_mem (f := .float) h
    refine ⟨word none, fun w => word (some (.pattern w)), fun neg digits places => ?_, fun n => ?_, word (some .nan),
      word (some (.inf false)), word (some (.inf true))⟩
    · obtain ⟨b, hbits, hb⟩ := toBits_roundF_nearest neg (digits * 2 ^ 149) (d := 10 ^ places) (by positivity)
      exact ⟨b, _, word (some (.decimal neg digits places)), hbits, hb⟩
    · obtain ⟨b, hbits, hb⟩ := toBits_roundF_nearest false (n * 2 ^ 149) Nat.one_pos
      exact ⟨_, word (some (.integer n)), hbits ▸ hb⟩
  · have word := assemble_of_mem (f := .int) h
    refine ⟨word none, fun n hn => ?_, fun n hn => ?_, fun neg digits places => word (some (.decimal neg digits places)),
      fun w => word (some (.pattern w)), word (some .nan), fun neg => word (some (.inf neg))⟩
    · rw [word, operandWord, intLiteral, if_pos hn, Option.map_some]
    · rw [word, operandWord, intLiteral, if_neg (Nat.not_lt.mpr hn), Option.map_none]
  · obtain ⟨f, op, w, hmem, hw, rfl⟩ := exists_of_assemble_eq_some h
    obtain ⟨-, hf⟩ := mnemonicsOf_spec f _ hmem
    exact ⟨⟨op, mem_append_of_mem_mnemonicsOf hmem⟩, exists_decode_of_wf (wf_of_operandWord hf hw)⟩

end Sys2Proof.Machine

/-! PROOFS. RB, the delay line (R100 to R113): its setters and getters, what a push stores and what its feedback does, the
interpolation of a pull and its weight, and what runs of pushes, pulls and taps return. -/

namespace Sys2Proof.Machine

/-! ## Zeros in sums and products (R13) -/

/-- A magnitude that is not zero, its sign told from its value, rounds to itself. -/
theorem roundF_value {s : Bool} {m : Fin 0x7F800001} (h : m.val ≠ 0) :
    roundF (decide ((F32.num s m).value < 0)) (F32.num s m).value.natAbs 1 = .num s m := by
  have hpos := units_pos (Nat.pos_of_ne_zero h)
  have hsign : decide ((F32.num s m).value < 0) = s := by
    cases s
    · exact decide_eq_false (by rw [value_pos]; omega)
    · exact decide_eq_true (by rw [value_neg]; omega)
  rw [hsign, natAbs_value]
  exact roundF_exact Nat.one_pos (Nat.mul_one _).symm

/-- A zero of either sign, added, changes nothing but a `-0.0`. -/
theorem fadd_signedZero {x : F32} (hx : x ≠ fneg .zero) (t : Bool) : fadd x (signedZero t) = x := by
  rcases x with _ | ⟨s, m⟩
  · rfl
  by_cases hinf : m.val = infMag
  · obtain rfl : m = ⟨infMag, by decide⟩ := Fin.ext hinf
    exact fadd_inf_finite (by decide)
  have hsum : signed s (units m.val) + signed t (units 0) = (F32.num s m).value := by
    cases t <;> simp [signed, F32.value]
  rw [fadd, addNum, if_neg hinf, if_neg (by decide), hsum]
  by_cases h0 : m.val = 0
  · obtain rfl : m = ⟨0, by decide⟩ := Fin.ext h0
    cases s
    · rfl
    · exact absurd rfl hx
  · have hne : (F32.num s m).value ≠ 0 := by
      rw [← Int.natAbs_ne_zero, natAbs_value]
      exact (units_pos (Nat.pos_of_ne_zero h0)).ne'
    rw [if_neg hne, roundF_value h0]

/-- A product of finite values, one of them a zero, is a zero. -/
theorem exists_fmul_eq_signedZero {x y : F32} (hx : isfinite x = true) (hy : isfinite y = true)
    (h : x.value * y.value = 0) : ∃ t, fmul x y = signedZero t := by
  obtain ⟨hn, hv⟩ := fmul_finite hx hy
  have hzero : feq (fmul x y) .zero = true := feq_iff.mpr ⟨hn, zero_ne_nan, by rw [hv, h, roundInt_zero, value_zero]⟩
  rcases feq_zero_iff.mp hzero with h | h
  · exact ⟨false, h⟩
  · exact ⟨true, h⟩

/-! ## Indices modulo the capacity (R12) -/

/-- `wrap` with the capacity written as a power of two. -/
theorem wrap_eq_toNat (p : Params) (i : Int) : wrap p i = (i % 2 ^ p.log2cap).toNat := by
  rw [wrap, Nat.cast_pow, Nat.cast_ofNat]

theorem lat_eq_toNat (p : Params) (rb : RB) : lat p rb = (((rb.wr : Int) - rb.rd) % 2 ^ p.log2cap).toNat :=
  wrap_eq_toNat p _

theorem lat_eq_emod (p : Params) (rb : RB) : (lat p rb : Int) = ((rb.wr : Int) - rb.rd) % 2 ^ p.log2cap := by
  rw [lat_cast, Nat.cast_pow, Nat.cast_ofNat]

/-- Fewer than `CAP` slots behind an index is another index. -/
theorem wrap_sub_ne {p : Params} {w m : Nat} (h1 : 1 ≤ m) (hm : m < p.cap) : wrap p ((w : Int) - m) ≠ w := by
  intro h
  have hd : (p.cap : Int) ∣ (w - m) - w := Int.dvd_self_sub_of_emod_eq (by rw [← wrap_cast, h])
  rw [sub_sub_cancel_left, Int.dvd_neg, Int.natCast_dvd_natCast] at hd
  exact absurd (Nat.le_of_dvd h1 hd) (Nat.not_le.mpr hm)

/-- One slot further behind a head that has advanced is the same slot. -/
theorem wrap_succ_sub_succ (p : Params) (w m : Nat) :
    wrap p ((((w + 1) % p.cap : Nat) : Int) - (m + 1 : Nat)) = wrap p ((w : Int) - m) := by
  rw [wrap, wrap, Int.natCast_mod, Int.emod_sub_emod, Nat.cast_succ, Nat.cast_succ, add_sub_add_right_eq_sub]

/-- The write head is the latency ahead of the read head (R100). -/
theorem add_lat_mod {p : Params} {rb : RB} (h : rb.wr < p.cap) : (rb.rd + lat p rb) % p.cap = rb.wr := by
  have hz : (((rb.rd + lat p rb) % p.cap : Nat) : Int) = (rb.wr : Int) % p.cap := by
    rw [Int.natCast_mod, Nat.cast_add, lat_cast, Int.add_emod_emod, add_sub_cancel]
  rw [← Nat.mod_eq_of_lt h]
  exact_mod_cast hz

/-! ## The setters, the getters and the tap (R104 to R111) -/

/-- R105's three checks, as what fails one of them. -/
theorem delayAccepted_iff {p : Params} {rb : RB} {n : Word} : delayAccepted p rb n = true ↔
    ¬ (n.toNat < 1 ∨ p.cap ≤ n.toNat ∨ ¬ fle rb.modRange (u2f n.toNat) = true) := by
  simp only [delayAccepted, Bool.and_eq_true, decide_eq_true_eq, not_or, not_lt, not_le, not_not, and_assoc]

/-- Settles O20, by R105's checks (`delayAccepted_iff`). -/
theorem setDelayMovesTheReadHead : Obligations.SetDelayMovesTheReadHead := by
  intro n s
  refine ⟨rfl, ?_⟩
  simp only [exec, execRbSetDelay, delayAccepted_iff, ite_not, wrap_eq_toNat]
  rfl

theorem modRangeAccepted_iff {p : Params} {rb : RB} {r : F32} :
    modRangeAccepted p rb r = true ↔ fle .zero r = true ∧ fle r (u2f (lat p rb)) = true := by
  rw [modRangeAccepted, Bool.and_eq_true]

/-- Settles O21: by the check (`modRangeAccepted_iff`), accepted or rejected; both clamp the offset to the range stored. -/
theorem setModRangeStoresAndClamps : Obligations.SetModRangeStoresAndClamps := by
  intro w s
  refine ⟨rfl, ?_⟩
  simp only [exec, execRbSetModRange, operandFloat, modRangeAccepted_iff, ← lat_eq_toNat]
  by_cases h : fle .zero (F32.ofBits w) = true ∧ fle (F32.ofBits w) (u2f (lat s.cfg s.rb)) = true
  · simp only [if_pos h]
    rfl
  · simp only [if_neg h]
    rfl

theorem modInput_eq (x : F32) : modInput x =
    (let y := if x = .nan then .zero else x
     let z := if flt .one y then .one else y
     if flt z .negOne then .negOne else z) := by
  simp only [modInput, isnan_iff]

/-- Settles O22: R107's operand is `modInput`. -/
theorem mapModScalesTheClampedOperand : Obligations.MapModScalesTheClampedOperand := by
  intro w s
  refine ⟨rfl, ?_⟩
  simp only [exec, execRbMapMod, modInput_eq]
  rfl

theorem inUnitInterval_iff {v : F32} : inUnitInterval v = true ↔ fle .zero v = true ∧ fle v .one = true := by
  rw [inUnitInterval, Bool.and_eq_true]

/-- "The only legal selector is 1 (BIQUAD)" (R31). -/
theorem stageOfSelector_eq (w : Word) : stageOfSelector w = if w.toNat = 1 then some .biquad else none := by
  unfold stageOfSelector
  split
  next h => rw [if_pos h]
  next h => rw [if_neg h]

theorem execRbAddFb_eq (w : Word) (s : State) : execRbAddFb w s = .next
    (if w.toNat = 1 ∧ s.rb.chain.length < s.cfg.fbMax then
      respond .ok (.bits 0) { s with rb := { s.rb with chain := s.rb.chain ++ [.biquad] } }
    else respond .invalidParameter (.bits 0) s) := by
  rw [execRbAddFb, stageOfSelector_eq]
  by_cases hw : w.toNat = 1
  · simp only [hw, if_true, true_and, ← Nat.not_lt, ite_not]
    rfl
  · simp only [hw, if_false, false_and]
    rfl

/-- Settles O23: the gain's domain, and the selector with the room in the chain (`execRbAddFb_eq`). -/
theorem feedbackSettersStoreGainAndStage : Obligations.FeedbackSettersStoreGainAndStage := by
  intro w s
  refine ⟨rfl, rfl, ?_, execRbAddFb_eq w s⟩
  simp only [exec, execRbSetFbGain, inUnitInterval_iff]
  rfl

/-- Settles O24, by `lat_eq_toNat`. -/
theorem gettersReadTheLatency : Obligations.GettersReadTheLatency := by
  intro s
  refine ⟨rfl, rfl, ?_, ?_⟩
  · rw [← lat_eq_toNat]
    rfl
  · rw [← lat_eq_toNat]
    rfl

theorem exec_rbTap_of_lt {n : Word} {s : State} (h : n.toNat < lat s.cfg s.rb) : exec (.rbTap n) s =
    .next (respond .ok (floatValue (memRead s.rb.buf (wrap s.cfg ((s.rb.wr : Int) - n.toNat)))) s) := by
  rw [exec, execRbTap, if_neg (Nat.not_le.mpr h)]
  rfl

theorem exec_rbTap_of_le {n : Word} {s : State} (h : lat s.cfg s.rb ≤ n.toNat) : exec (.rbTap n) s =
    .next (respond .invalidParameter (.bits 0) s) := by
  rw [exec, execRbTap, if_pos h]
  rfl

/-- Settles O19: at and beyond the latency (`exec_rbTap_of_le`), and below it (`exec_rbTap_of_lt`). -/
theorem tapReadsBehindTheWriteHead : Obligations.TapReadsBehindTheWriteHead := by
  intro n s
  refine ⟨rfl, ?_⟩
  rw [← lat_eq_emod, ← wrap_eq_toNat]
  rcases Nat.lt_or_ge n.toNat (lat s.cfg s.rb) with h | h
  · rw [exec_rbTap_of_lt h, if_neg (by omega)]
  · rw [exec_rbTap_of_le h, if_pos (by omega)]

/-! ## RB_PUSH and its feedback (R101, R102) -/

theorem exec_rbPush (w : Word) (s : State) : exec (.rbPush w) s = .next (respond .ok (.bits 0)
    { s with rb := rbPush s.cfg s.rb (F32.ofBits w) (feedback s.rb s.bq s.rb.rd).1,
             bq := (feedback s.rb s.bq s.rb.rd).2 }) := rfl

/-- Settles O15: a read of the store just written (`memRead_memWrite_self`, `memRead_memWrite_ne`). -/
theorem pushStoresOperandPlusFeedback : Obligations.PushStoresOperandPlusFeedback := by
  intro w s hbuf
  refine ⟨rfl, _, exec_rbPush w s, memRead_memWrite_self hbuf, fun a ha => memRead_memWrite_ne ha, ?_⟩
  rw [rbPush, wrap_succ]
  rfl

theorem runChain_append (c d : List Stage) (b : BQ) (t : F32) :
    runChain (c ++ d) b t = runChain d (runChain c b t).2 (runChain c b t).1 := by
  induction c generalizing b t with
  | nil => rfl
  | cons st rest ih => exact ih _ _

/-- There is no stage but BIQUAD (R31). -/
theorem runStage_eq_bqCore (st : Stage) (b : BQ) (t : F32) : runStage st b t = bqCore b t := by
  cases st
  rfl

/-- The sample and BQ after the first `k` stages of the feedback at an index. -/
def afterStages (rb : RB) (b : BQ) (i k : Nat) : F32 × BQ := runChain (rb.chain.take k) b (memRead rb.buf i)

theorem afterStages_succ {rb : RB} {k : Nat} (h : k < rb.chain.length) (b : BQ) (i : Nat) :
    afterStages rb b i (k + 1) = bqCore (afterStages rb b i k).2 (afterStages rb b i k).1 := by
  rw [afterStages, List.take_succ_eq_append_getElem h, runChain_append]
  exact runStage_eq_bqCore rb.chain[k] _ _

theorem feedback_eq_afterStages (rb : RB) (b : BQ) (i : Nat) : feedback rb b i =
    (fmul (afterStages rb b i rb.chain.length).1 rb.fbGain, (afterStages rb b i rb.chain.length).2) := by
  rw [afterStages, List.take_length]
  rfl

theorem exec_bqProc_toBits (x : F32) (s : State) : exec (.bqProc (F32.toBits x)) s =
    .next (respond .ok (floatValue (bqCore s.bq x).1) { s with bq := (bqCore s.bq x).2 }) := by
  rw [exec, execBqProc, operandFloat, F32.ofBits_toBits]
  rfl

/-- Settles O16: the sequences are those of `afterStages`, one `BqCore` apart. -/
theorem feedbackRunsTheBiquadOncePerStage : Obligations.FeedbackRunsTheBiquadOncePerStage := by
  intro s i
  refine ⟨fun k => (afterStages s.rb s.bq i k).1, fun k => (afterStages s.rb s.bq i k).2, rfl, rfl, fun k hk => ?_,
    feedback_eq_afterStages s.rb s.bq i⟩
  simp only [exec_bqProc_toBits, afterStages_succ hk]

/-! ## RB_PULL (R103) -/

theorem exec_rbPull (s : State) : exec .rbPull s = .next (respond .ok (floatValue (interpolate s.cfg s.rb))
    { s with rb := { s.rb with rd := (s.rb.rd + 1) % s.cfg.cap } }) := by
  rw [← wrap_succ]
  rfl

/-- The floor is the one integer `z` with `z <= v < z + 1`. -/
theorem floorZ_eq {v : F32} {z : Int} (hlo : z * 2 ^ 149 ≤ v.value) (hhi : v.value < (z + 1) * 2 ^ 149) : floorZ v = z := by
  unfold floorZ
  omega

/-- Settles O17: the floor of the offset is `i0` (`floorZ_eq`). -/
theorem pullInterpolatesLinearly : Obligations.PullInterpolatesLinearly := by
  intro s i0 _ hlo hhi
  refine ⟨rfl, ?_⟩
  simp only [exec_rbPull, interpolate, floorZ_eq hlo hhi, wrap_eq_toNat]

/-! ## The weight of a pull (R103, R113) -/

/-- A value of at most 2^24, the largest capacity, is finite. -/
theorem isfinite_of_abs_le {x : F32} (hx : x ≠ .nan) (h : |x.value| ≤ 2 ^ 24 * 2 ^ 149) : isfinite x = true :=
  isfinite_of_abs hx (h.trans_lt (by rw [← pow_add]; exact pow_lt_pow_right₀ (by decide) (by decide)))

/-- The offset is at most the range, and so below `CAP` (R113(a)). -/
theorem RB.Inv.modOffset_bounds {p : Params} {rb : RB} (hp : p.wf = true) (h : RB.Inv p rb) :
    rb.modOffset ≠ .nan ∧ |rb.modOffset.value| ≤ p.cap * 2 ^ 149 := by
  have hcap := cap_le_of_wf hp
  obtain ⟨-, hn, hlower⟩ := fle_iff.mp h.modOffset_lower
  obtain ⟨-, -, hupper⟩ := fle_iff.mp h.modOffset_upper
  obtain ⟨-, -, hrange⟩ := fle_iff.mp h.modRange_le
  rw [u2f_exact (by omega)] at hrange
  rw [value_fneg] at hlower
  exact ⟨hn, abs_le.mpr ⟨by omega, by omega⟩⟩

/-- What is left of a magnitude above whole multiples of 1.0 is a value: low bits of the same significand. -/
theorem exists_value_units_mod (a : Nat) : ∃ c : F32, c ≠ .nan ∧ c.value = ((units a % 2 ^ 149 : Nat) : Int) := by
  obtain ⟨k, m, rfl, hm, hk⟩ := mag_pack a
  rw [units_pack k m hm.le hk]
  rcases Nat.lt_or_ge k 149 with h | h
  · have hmod : m * 2 ^ k % 2 ^ 149 = m % 2 ^ (149 - k) * 2 ^ k := by
      rw [← Nat.mul_mod_mul_right, ← pow_add, Nat.sub_add_cancel h.le]
    rw [hmod, Nat.cast_mul, Nat.cast_pow, Nat.cast_ofNat]
    exact exists_value_int ((Nat.mod_le _ _).trans hm.le) h.le
  · rw [Nat.mod_eq_zero_of_dvd ((Nat.pow_dvd_pow 2 h).mul_left m)]
    exact ⟨.zero, zero_ne_nan, value_zero⟩

section
variable {m : F32}

theorem floorZ_bounds {n : Nat} (h : |m.value| ≤ n * 2 ^ 149) : -(n : Int) ≤ floorZ m ∧ floorZ m ≤ n := by
  rw [abs_le] at h
  unfold floorZ
  omega

/-- R103's `frac` is the exact fraction of the offset, rounded. -/
theorem value_frac (hn : m ≠ .nan) (h : |m.value| ≤ 2 ^ 24 * 2 ^ 149) : (i2f (floorZ m)).value = floorZ m * 2 ^ 149 ∧
    fsub m (i2f (floorZ m)) ≠ .nan ∧ (fsub m (i2f (floorZ m))).value = roundInt (m.value % 2 ^ 149) 1 := by
  have hfloor := floorZ_bounds (n := 2 ^ 24) (by exact_mod_cast h)
  push_cast at hfloor
  have hi : (i2f (floorZ m)).value = floorZ m * 2 ^ 149 := i2f_exact (by omega)
  have hfin : isfinite (i2f (floorZ m)) = true :=
    isfinite_of_abs_le (i2f_ne_nan _) (by rw [hi, abs_le]; omega)
  obtain ⟨hfn, hv⟩ := fsub_finite (isfinite_of_abs_le hn h) hfin
  refine ⟨hi, hfn, ?_⟩
  rw [hv, hi, floorZ, Int.emod_def, mul_comm]

/-- The fraction of a value that is not negative is exact. -/
theorem roundInt_emod (h : 0 ≤ m.value) : roundInt (m.value % 2 ^ 149) 1 = m.value % 2 ^ 149 := by
  obtain ⟨a, ha⟩ : ∃ a, m.value = (units a : Int) := by
    cases m with
    | nan => exact ⟨0, rfl⟩
    | num s b => exact ⟨b.val, by rw [← natAbs_value (s := s), Int.natAbs_of_nonneg h]⟩
  obtain ⟨c, hc, hv⟩ := exists_value_units_mod a
  rw [Int.natCast_mod, ← ha, Nat.cast_pow, Nat.cast_ofNat] at hv
  rw [← hv]
  exact roundInt_exact Nat.one_pos hc (by omega)

end

/-- Settles O18: the weight is the rounded fraction (`value_frac`), between 0 and 1.0 as the fraction is. -/
theorem pullWeightIsTheFraction : Obligations.PullWeightIsTheFraction := by
  intro s hs m i0 frac
  obtain ⟨hn, hcap⟩ := hs.rb.modOffset_bounds hs.cfg_wf
  have hbound : |m.value| ≤ 2 ^ 24 * 2 ^ 149 :=
    hcap.trans (by exact_mod_cast Nat.mul_le_mul_right _ (cap_le_of_wf hs.cfg_wf))
  have hfloor := floorZ_bounds hcap
  push_cast at hfloor
  obtain ⟨hi, hfn, hv⟩ : (i2f i0).value = i0 * 2 ^ 149 ∧ frac ≠ .nan ∧ frac.value = roundInt (m.value % 2 ^ 149) 1 :=
    value_frac hn hbound
  have hfrac : 0 ≤ m.value % 2 ^ 149 ∧ m.value % 2 ^ 149 < 2 ^ 149 := by omega
  refine ⟨hfloor, hi, fle_iff.mpr ⟨zero_ne_nan, hfn, ?_⟩, fle_iff.mpr ⟨hfn, one_ne_nan, ?_⟩, fun hm => ?_⟩
  · rw [hv]
    exact le_roundInt Nat.one_pos zero_ne_nan (by rw [value_zero]; omega)
  · rw [hv]
    exact roundInt_le Nat.one_pos one_ne_nan (by rw [value_one]; omega)
  · obtain ⟨-, -, h0⟩ := fle_iff.mp hm
    rw [value_zero] at h0
    have hexact : frac.value = m.value % 2 ^ 149 := by rw [hv, roundInt_emod h0]
    refine ⟨?_, flt_iff.mpr ⟨hfn, one_ne_nan, ?_⟩⟩
    · rw [hexact, Int.emod_def, mul_comm]
    · rw [hexact, value_one]
      exact hfrac.2

/-! ## Runs of pushes (R102, R113(d)) -/

@[simp] theorem issuePush_cfg (x : F32) (s : State) : (issuePush x s).cfg = s.cfg := rfl
@[simp] theorem issuePush_rd (x : F32) (s : State) : (issuePush x s).rb.rd = s.rb.rd := rfl
@[simp] theorem issuePush_fbGain (x : F32) (s : State) : (issuePush x s).rb.fbGain = s.rb.fbGain := rfl
@[simp] theorem issuePush_chain (x : F32) (s : State) : (issuePush x s).rb.chain = s.rb.chain := rfl
@[simp] theorem issuePush_modOffset (x : F32) (s : State) : (issuePush x s).rb.modOffset = s.rb.modOffset := rfl
@[simp] theorem issuePush_wr (x : F32) (s : State) : (issuePush x s).rb.wr = (s.rb.wr + 1) % s.cfg.cap := wrap_succ _ _
@[simp] theorem issuePush_buf (x : F32) (s : State) :
    (issuePush x s).rb.buf = memWrite s.rb.buf s.rb.wr (fadd x (feedback s.rb s.bq s.rb.rd).1) := by
  show memWrite _ _ (fadd (operandFloat (F32.toBits x)) _) = _
  rw [operandFloat, F32.ofBits_toBits]

theorem issuePush_wr_lt (x : F32) (s : State) : (issuePush x s).rb.wr < s.cfg.cap := by
  rw [issuePush_wr]
  exact Nat.mod_lt _ (cap_pos s.cfg)

@[simp] theorem pushRun_cfg (xs : List F32) (s : State) : (pushRun xs s).cfg = s.cfg := by
  induction xs generalizing s with
  | nil => rfl
  | cons x xs ih => exact ih _

@[simp] theorem pushRun_rd (xs : List F32) (s : State) : (pushRun xs s).rb.rd = s.rb.rd := by
  induction xs generalizing s with
  | nil => rfl
  | cons x xs ih => exact ih _

theorem pushRun_append (xs ys : List F32) (s : State) : pushRun (xs ++ ys) s = pushRun ys (pushRun xs s) := by
  induction xs generalizing s with
  | nil => rfl
  | cons x xs ih => exact ih _

theorem pushRun_wr (xs : List F32) {s : State} (h : s.rb.wr < s.cfg.cap) :
    (pushRun xs s).rb.wr = (s.rb.wr + xs.length) % s.cfg.cap := by
  induction xs generalizing s with
  | nil => exact (Nat.mod_eq_of_lt h).symm
  | cons x xs ih =>
    rw [pushRun, ih (issuePush_wr_lt x s), issuePush_wr, issuePush_cfg, Nat.mod_add_mod, List.length_cons, Nat.add_assoc,
      Nat.add_comm 1]

/-- Settles O27, by induction on the pushes (`pushRun_wr`). -/
theorem pushesWrapTheWriteHead : Obligations.PushesWrapTheWriteHead := fun xs s h =>
  ⟨pushRun_wr xs h, pushRun_rd xs s, pushRun_wr xs h ▸ Nat.mod_lt _ (cap_pos s.cfg)⟩

/-! ## A line without feedback (R102(b), R104) -/

/-- Zero gain, an empty chain and a canonical store of finite words: the feedback of a push is a zero. -/
structure DryLine (s : State) : Prop where
  buf_wf : Memory.wf s.cfg.cap s.rb.buf = true
  wr_lt  : s.rb.wr < s.cfg.cap
  fbGain : s.rb.fbGain = .zero
  chain  : s.rb.chain = []
  finite : ∀ a, isfinite (memRead s.rb.buf a) = true

namespace DryLine
variable {s : State} {x : F32} {xs : List F32}

/-- A push stores its operand, bit for bit. -/
theorem memRead_issuePush (h : DryLine s) (hx : x ≠ fneg .zero) (a : Nat) :
    memRead (issuePush x s).rb.buf a = if a = s.rb.wr then x else memRead s.rb.buf a := by
  obtain ⟨t, hfb⟩ : ∃ t, (feedback s.rb s.bq s.rb.rd).1 = signedZero t := by
    rw [feedback_nil h.chain, h.fbGain]
    exact exists_fmul_eq_signedZero (h.finite _) isfinite_zero (by rw [value_zero, mul_zero])
  rw [issuePush_buf, hfb, fadd_signedZero hx, memRead_memWrite h.buf_wf]

theorem push (h : DryLine s) (hx : isfinite x = true ∧ x ≠ fneg .zero) : DryLine (issuePush x s) where
  buf_wf := by
    rw [issuePush_buf]
    exact memWrite_wf h.wr_lt h.buf_wf
  wr_lt := issuePush_wr_lt x s
  fbGain := h.fbGain
  chain := h.chain
  finite a := by
    rw [h.memRead_issuePush hx.2]
    split
    · exact hx.1
    · exact h.finite a

theorem run (h : DryLine s) (hxs : ∀ y ∈ xs, isfinite y = true ∧ y ≠ fneg .zero) : DryLine (pushRun xs s) := by
  induction xs generalizing s with
  | nil => exact h
  | cons x xs ih =>
    rw [List.forall_mem_cons] at hxs
    exact ih (h.push hxs.1) hxs.2

/-- The slot `n` behind the write head holds the sample pushed `n` pushes ago, for `n` up to `CAP`. -/
theorem memRead_pushRun (h : DryLine s) (hxs : ∀ y ∈ xs, isfinite y = true ∧ y ≠ fneg .zero) {n : Nat} (h1 : 1 ≤ n)
    (hlen : n ≤ xs.length) (hcap : n ≤ s.cfg.cap) :
    xs[xs.length - n]? = some (memRead (pushRun xs s).rb.buf (wrap s.cfg ((pushRun xs s).rb.wr - n))) := by
  induction xs using List.reverseRecOn generalizing n with
  | nil => exact absurd (h1.trans hlen) (by decide)
  | append_singleton xs x ih =>
    rw [List.forall_mem_append, List.forall_mem_singleton] at hxs
    obtain ⟨hxs, hx⟩ := hxs
    have hline := h.run hxs
    obtain ⟨m, rfl⟩ := Nat.exists_eq_add_of_le' h1
    rw [List.length_append, List.length_singleton] at hlen
    rw [pushRun_append, pushRun, pushRun, issuePush_wr, pushRun_cfg, wrap_succ_sub_succ, hline.memRead_issuePush hx.2,
      List.length_append, List.length_singleton, Nat.add_sub_add_right]
    rcases Nat.eq_zero_or_pos m with rfl | hm
    · have hwr := hline.wr_lt
      rw [pushRun_cfg] at hwr
      rw [Nat.cast_zero, sub_zero, wrap_eq_self hwr, if_pos rfl, Nat.sub_zero, List.getElem?_concat_length]
    · rw [if_neg (wrap_sub_ne hm (by omega)), ← ih hxs hm (by omega) (by omega), List.getElem?_append_left (by omega)]

end DryLine

/-- Settles O28: the tap reads the slot of `DryLine.memRead_pushRun`; the latency keeps `n` below `CAP`. -/
theorem tapReturnsTheSamplePushedBefore : Obligations.TapReturnsTheSamplePushedBefore := by
  intro xs s n x hbuf hwr hgain hchain hfin hxs h1 hlen hlat hx
  have hline : DryLine s := ⟨hbuf, hwr, hgain, hchain, hfin⟩
  have hword := hline.memRead_pushRun hxs h1 hlen (hlat.le.trans (lat_lt _ _).le)
  rw [hx, Option.some_inj] at hword
  rw [exec_rbTap_of_lt (by rwa [pushRun_cfg]), pushRun_cfg, hword]

/-! ## The impulse response (R113(c)) -/

/-- A pull at offset +0.0 answers the word at the read head: its weight is +0.0. -/
theorem interpolate_of_zero_offset {p : Params} {rb : RB} (ho : rb.modOffset = .zero)
    (h0 : memRead rb.buf (wrap p rb.rd) ≠ fneg .zero)
    (hd : isfinite (fsub (memRead rb.buf (wrap p (rb.rd + 1))) (memRead rb.buf (wrap p rb.rd))) = true) :
    interpolate p rb = memRead rb.buf (wrap p rb.rd) := by
  have hfloor : floorZ .zero = 0 := by decide
  have hfrac : fsub .zero (i2f 0) = .zero := by decide
  obtain ⟨t, ht⟩ := exists_fmul_eq_signedZero isfinite_zero hd (by rw [value_zero, zero_mul])
  simp only [interpolate, ho, hfloor, hfrac, add_zero, ht, fadd_signedZero h0]

@[simp] theorem issue_rbPull_cfg (s : State) : (issue .rbPull s).cfg = s.cfg := rfl
@[simp] theorem issue_rbPull_rd (s : State) : (issue .rbPull s).rb.rd = (s.rb.rd + 1) % s.cfg.cap := wrap_succ _ _

theorem lastValue_rbPull (s : State) : lastValue (issue .rbPull s) = interpolate s.cfg s.rb := by
  simp [lastValue, issue, exec_rbPull]

/-- 1.0 in round `n`, +0.0 in every other. -/
def impulseAt (n k : Nat) : F32 := if k = n then .one else .zero

theorem impulseAt_ok (n k : Nat) : isfinite (impulseAt n k) = true ∧ impulseAt n k ≠ fneg .zero := by
  unfold impulseAt
  split <;> decide

/-- The line of R113(c) after `j` pushes and `k` pulls, from a read head at `r` and latency `N`: the impulse stands where
the first push put it, from that push until the push that comes round to its slot again. -/
structure ImpulseLine (r N j k : Nat) (s : State) : Prop extends DryLine s where
  modOffset : s.rb.modOffset = .zero
  wr_eq     : s.rb.wr = (r + N + j) % s.cfg.cap
  rd_eq     : s.rb.rd = (r + k) % s.cfg.cap
  word      : ∀ a, memRead s.rb.buf a = if a = (r + N) % s.cfg.cap ∧ 1 ≤ j ∧ j ≤ s.cfg.cap then .one else .zero

namespace ImpulseLine
variable {r N j k : Nat} {s : State}

/-- Heads at `r`, `N` apart, over an all-zero store: nothing pushed, nothing pulled. -/
theorem init (hline : DryLine s) (hbuf : s.rb.buf = []) (ho : s.rb.modOffset = .zero) (hrd : s.rb.rd < s.cfg.cap)
    (hlat : lat s.cfg s.rb = N) : ImpulseLine s.rb.rd N 0 0 s :=
  { hline with
    modOffset := ho
    wr_eq := hlat ▸ (add_lat_mod hline.wr_lt).symm
    rd_eq := (Nat.mod_eq_of_lt hrd).symm
    word := fun a => by simp [hbuf] }

theorem push (h : ImpulseLine r N j k s) : ImpulseLine r N (j + 1) k (issuePush (impulseAt 0 j) s) :=
  { h.toDryLine.push (impulseAt_ok 0 j) with
    modOffset := h.modOffset
    wr_eq := by rw [issuePush_wr, h.wr_eq, Nat.mod_add_mod, issuePush_cfg, Nat.add_assoc]
    rd_eq := h.rd_eq
    word := fun a => by
      rw [h.memRead_issuePush (impulseAt_ok 0 j).2, h.wr_eq, h.word, issuePush_cfg]
      rcases Nat.eq_zero_or_pos j with rfl | hj
      · have hcap : 1 ≤ s.cfg.cap := cap_pos s.cfg
        simp [impulseAt, hcap]
      · rw [impulseAt, if_neg hj.ne']
        by_cases ha : a = (r + N + j) % s.cfg.cap
        · rw [if_pos ha, if_neg]
          rintro ⟨e, -, hle⟩
          have := Nat.le_of_dvd hj (Nat.add_modEq_left_iff.mp (ha.symm.trans e))
          omega
        · rw [if_neg ha]
          refine if_congr (and_congr_right fun e => ?_) rfl rfl
          have hround : j ≠ s.cfg.cap := fun hjc => ha (by rw [e, hjc, Nat.add_mod_right])
          omega }

theorem pull (h : ImpulseLine r N j k s) : ImpulseLine r N j (k + 1) (issue .rbPull s) :=
  { h with rd_eq := by rw [issue_rbPull_rd, h.rd_eq, Nat.mod_add_mod, issue_rbPull_cfg, Nat.add_assoc] }

/-- The words of the line, 1.0 or +0.0, have finite differences, and none is -0.0. -/
theorem word_ok (h : ImpulseLine r N j k s) (a b : Nat) :
    memRead s.rb.buf a ≠ fneg .zero ∧ isfinite (fsub (memRead s.rb.buf b) (memRead s.rb.buf a)) = true := by
  rw [h.word, h.word]
  constructor
  · split <;> decide
  · split <;> split <;> decide

/-- The pull of round `k` answers the impulse in round `N`, if it is in the store then, and +0.0 in every other. -/
theorem lastValue_pull (h : ImpulseLine r N j k s) (hN : N < s.cfg.cap) (hk : k < N + s.cfg.cap)
    (hj : k = N → 1 ≤ j ∧ j ≤ s.cfg.cap) : lastValue (issue .rbPull s) = impulseAt N k := by
  have hrd : wrap s.cfg s.rb.rd = (r + k) % s.cfg.cap := by rw [wrap_natCast, h.rd_eq, Nat.mod_mod]
  have hslot : (r + k) % s.cfg.cap = (r + N) % s.cfg.cap ↔ k = N := by
    refine ⟨fun e => ?_, fun e => e ▸ rfl⟩
    exact (Nat.ModEq.add_left_cancel' r e).eq_of_abs_lt (by rw [abs_lt]; omega)
  obtain ⟨h0, hd⟩ := h.word_ok (wrap s.cfg s.rb.rd) (wrap s.cfg (s.rb.rd + 1))
  rw [lastValue_rbPull, interpolate_of_zero_offset h.modOffset h0 hd, hrd, h.word, impulseAt]
  exact if_congr (by rw [hslot, and_iff_left_of_imp hj]) rfl rfl

/-- Rounds of push and pull: the first push is in the store at every pull. -/
theorem pushPullRun_eq (h : ImpulseLine r N k k s) (hN : N < s.cfg.cap) {m : Nat} (hm : k + m ≤ N + s.cfg.cap) :
    (pushPullRun ((List.range' k m).map (impulseAt 0)) s).1 = (List.range' k m).map (impulseAt N) := by
  induction m generalizing k s with
  | zero => rfl
  | succ m ih =>
    rw [List.range'_succ, List.map_cons, List.map_cons, pushPullRun]
    have hround : k < N + s.cfg.cap := by omega
    have hheld : k = N → 1 ≤ k + 1 ∧ k + 1 ≤ s.cfg.cap := by omega
    have hrest : k + 1 + m ≤ N + s.cfg.cap := by omega
    exact congrArg₂ List.cons (h.push.lastValue_pull hN hround hheld) (ih h.push.pull hN hrest)

/-- Rounds of pull and push: the first push is in the store from round 1 on. -/
theorem pullPushRun_eq (h : ImpulseLine r N k k s) (h1 : 1 ≤ N) (hN : N < s.cfg.cap) {m : Nat} (hm : k + m ≤ N + s.cfg.cap) :
    (pullPushRun ((List.range' k m).map (impulseAt 0)) s).1 = (List.range' k m).map (impulseAt N) := by
  induction m generalizing k s with
  | zero => rfl
  | succ m ih =>
    rw [List.range'_succ, List.map_cons, List.map_cons, pullPushRun]
    have hround : k < N + s.cfg.cap := by omega
    have hheld : k = N → 1 ≤ k ∧ k ≤ s.cfg.cap := by omega
    have hrest : k + 1 + m ≤ N + s.cfg.cap := by omega
    exact congrArg₂ List.cons (h.lastValue_pull hN hround hheld) (ih h.pull.push hN hrest)

end ImpulseLine

/-- Settles O26: the premises are an `ImpulseLine` of no rounds, and both orders keep one. -/
theorem impulseComesBackAfterTheDelay : Obligations.ImpulseComesBackAfterTheDelay := by
  intro s N K _ hwr hrd hbuf hgain ho hchain hlat h1 hK impulse delayed
  have hline : DryLine s := ⟨by rw [hbuf]; rfl, hwr, hgain, hchain, fun a => by rw [hbuf]; exact isfinite_zero⟩
  have h := ImpulseLine.init hline hbuf ho hrd hlat
  have hN : N < s.cfg.cap := hlat ▸ lat_lt s.cfg s.rb
  have hm : 0 + K ≤ N + s.cfg.cap := by omega
  have himpulse : impulse = (List.range' 0 K).map (impulseAt 0) := by rw [← List.range_eq_range']; rfl
  have hdelayed : delayed = (List.range' 0 K).map (impulseAt N) := by rw [← List.range_eq_range']; rfl
  rw [himpulse, hdelayed]
  exact ⟨h.pushPullRun_eq hN hm, h.pullPushRun_eq h1 hN hm⟩

end Sys2Proof.Machine

/-! PROOFS. The biquad: the commands that commit a parameter (R147 to R153), the coefficients the gain leaves alone
(R133, R146, R151), the processing step (R130, R131, R157, R258), and the mix (R154, R155). -/

namespace Sys2Proof.Machine

/-! ## Committing a parameter (R147 to R153) -/

section
variable {s : State} {k : Kind} {f q g : F32} {fs : Word}

theorem bqFinish_bqCommit_of_committable (h : Committable k f q g fs) :
    bqFinish s (bqCommit machineNum s.bq k f q g fs) = respond .ok (.bits 0)
      { s with bq := { s.bq with kind := k, f := f, q := q, gainDb := g, fs := fs,
                                 coef := coefOf machineNum k f q g fs } } := by
  rw [bqCommit_of_committable s.bq h]
  rfl

theorem bqFinish_bqCommit_of_not_committable (h : ¬ Committable k f q g fs) :
    bqFinish s (bqCommit machineNum s.bq k f q g fs) = respond .invalidParameter (.bits 0) s := by
  rw [bqCommit_of_not_committable s.bq h]
  rfl

end

/-- The codes of R89 number the kinds from 0 to 6. -/
theorem kindOfCode_eq (w : Word) : kindOfCode w =
    [Kind.lowPass, .highPass, .bandPass, .notch, .lowShelf, .highShelf, .peaking][w.toNat]? := by
  unfold kindOfCode
  generalize w.toNat = n
  rcases n with _ | _ | _ | _ | _ | _ | _ | n <;> rfl

theorem execBqSetKind_of_none {w : Word} (h : kindOfCode w = none) (s : State) :
    execBqSetKind w s = .next (respond .invalidParameter (.bits 0) s) := by
  rw [execBqSetKind, h]
  rfl

theorem execBqSetKind_of_some {w : Word} {k : Kind} (h : kindOfCode w = some k) (s : State) : execBqSetKind w s =
    .next (bqFinish s ((bqCommit machineNum s.bq k s.bq.f s.bq.q s.bq.gainDb s.bq.fs).map bqClear)) := by
  rw [execBqSetKind, h]

/-- Settles O33: the code names no kind, or a kind (`kindOfCode_eq`) whose tuple is committed or rejected. -/
theorem setKindReconstructsInPlace : Obligations.SetKindReconstructsInPlace := by
  intro w s
  refine ⟨rfl, fun hw => ?_, fun n k hn hk => ?_⟩
  · exact execBqSetKind_of_none (by rw [kindOfCode_eq]; exact List.getElem?_eq_none hw) s
  · have hcode : kindOfCode w = some k := by rw [kindOfCode_eq, hn, hk]
    rw [exec, execBqSetKind_of_some hcode]
    constructor
    · intro h
      rw [bqCommit_of_committable s.bq h]
      rfl
    · intro h
      rw [bqCommit_of_not_committable s.bq h]
      rfl

/-- Settles O34: each setter finishes the commit of its candidate tuple. -/
theorem parameterSettersCommitAllOrNothing : Obligations.ParameterSettersCommitAllOrNothing := by
  intro w s b v
  exact ⟨rfl, rfl, rfl,
    fun h => congrArg _ (bqFinish_bqCommit_of_committable h), fun h => congrArg _ (bqFinish_bqCommit_of_not_committable h),
    fun h => congrArg _ (bqFinish_bqCommit_of_committable h), fun h => congrArg _ (bqFinish_bqCommit_of_not_committable h),
    fun h => congrArg _ (bqFinish_bqCommit_of_committable h), fun h => congrArg _ (bqFinish_bqCommit_of_not_committable h)⟩

/-- The sample rate is read as I32 (R82). -/
theorem positiveI32_iff {w : Word} : positiveI32 w = true ↔ 1 ≤ w.toInt := decide_eq_true_iff

theorem execBqSetFs_of_positive {w : Word} (h : 1 ≤ w.toInt) (s : State) : execBqSetFs w s =
    .next (bqFinish s (bqCommit machineNum s.bq s.bq.kind s.bq.f s.bq.q s.bq.gainDb w)) := by
  rw [execBqSetFs, if_pos (positiveI32_iff.mpr h)]

theorem execBqSetFs_of_not_positive {w : Word} (h : w.toInt < 1) (s : State) :
    execBqSetFs w s = .next (respond .invalidParameter (.bits 0) s) := by
  rw [execBqSetFs, if_neg (positiveI32_iff.not.mpr (Int.not_le.mpr h))]
  rfl

/-- Settles O35: by the sign of the operand as I32, then by the commit. -/
theorem biquadSetFsCommitsAllOrNothing : Obligations.BiquadSetFsCommitsAllOrNothing := by
  intro w s b
  refine ⟨rfl, fun hpos h => ?_, fun hbad => ?_⟩
  · rw [exec, execBqSetFs_of_positive hpos, bqFinish_bqCommit_of_committable h]
  · rcases lt_or_ge w.toInt 1 with hneg | hpos
    · exact execBqSetFs_of_not_positive hneg s
    · have h := hbad.resolve_left (Int.not_lt.mpr hpos)
      rw [exec, execBqSetFs_of_positive hpos, bqFinish_bqCommit_of_not_committable h]

/-! ## The gain in the coefficients (R133, R146, R151) -/

/-- Settles O37: every row of the table is a generator with its intermediates written out. -/
theorem coefficientTableAsWritten : Obligations.CoefficientTableAsWritten :=
  fun _ _ _ _ _ => ⟨rfl, rfl, rfl, rfl, rfl, rfl, rfl⟩

theorem peakingCoefs_one (c alpha : F32) : peakingCoefs .one c alpha =
    { b0 := fadd .one alpha, b1 := fmul .negTwo c, b2 := fsub .one alpha,
      a0 := fadd .one alpha, a1 := fmul .negTwo c, a2 := fsub .one alpha } := by
  simp only [peakingCoefs, fmul_one, fdiv_one]

/-- A gain of 0 dB of either sign is a factor of 1.0 (R14). -/
theorem fexp10_zero_gain (neg : Bool) : machineNum.fexp10 (fdiv (signedZero neg) .forty) = .one := by
  have hzero : feq (fdiv (signedZero neg) .forty) .zero = true := by cases neg <;> decide
  exact boundExp_of_zero Config.rawExp10 hzero

/-- Settles O39: the factor is 1.0 (`fexp10_zero_gain`), and a product and a quotient by it are the same (`peakingCoefs_one`). -/
theorem peakingWithoutGainIsIdentity : Obligations.PeakingWithoutGainIsIdentity := by
  intro f q fs neg k
  have hk : k = peakingCoefs .one (machineNum.fcos (omega f fs))
      (fdiv (machineNum.fsin (omega f fs)) (fmul .two q)) :=
    congrArg (peakingCoefs · _ _) (fexp10_zero_gain neg)
  rw [hk, peakingCoefs_one]
  exact ⟨rfl, rfl, rfl⟩

section
variable {k : Kind} {f q g : F32} {fs : Word}

/-- "The four low-order kinds never evaluate `fexp10`" (R133). -/
theorem coefOf_gain_irrelevant (hk : k ∈ [Kind.lowPass, .highPass, .bandPass, .notch]) (num : NumericRecord) (g v : F32) :
    coefOf num k f q g fs = coefOf num k f q v fs := by
  simp only [List.mem_cons, List.not_mem_nil, or_false] at hk
  rcases hk with rfl | rfl | rfl | rfl <;> rfl

theorem Committable.setGain (hk : k ∈ [Kind.lowPass, .highPass, .bandPass, .notch]) (h : Committable k f q g fs)
    {v : F32} (hv : isfinite v = true) : Committable k f q v fs := by
  rw [← commit_check_iff, Bool.and_eq_true] at h ⊢
  obtain ⟨hparams, hcoefs⟩ := h
  refine ⟨?_, coefOf_gain_irrelevant hk machineNum g v ▸ hcoefs⟩
  rw [paramsUsable, Bool.and_eq_true] at hparams ⊢
  obtain ⟨hfq, -⟩ := hparams
  exact ⟨hfq, hv⟩

end

/-- Settles O40: the tuple stays committable (`Committable.setGain`), and its coefficients are the stored ones. -/
theorem gainDoesNotEnterTheFirstFourKinds : Obligations.GainDoesNotEnterTheFirstFourKinds := by
  intro w s hk h hcoef hfin
  obtain ⟨-, -, -, -, -, -, -, hgain, -⟩ := parameterSettersCommitAllOrNothing w s
  rw [hgain (h.setGain hk hfin), coefOf_gain_irrelevant hk machineNum _ s.bq.gainDb, ← hcoef]

/-! ## The processing step (R130, R131, R132) -/

theorem exec_bqProc (w : Word) (s : State) : exec (.bqProc w) s = .next
    (respond .ok (floatValue (bqCore s.bq (F32.ofBits w)).1) { s with bq := (bqCore s.bq (F32.ofBits w)).2 }) := rfl

/-- Settles O30: `BqCore` written out (`exec_bqProc`). -/
theorem procRunsTheDifferenceEquation : Obligations.ProcRunsTheDifferenceEquation :=
  fun w s => ⟨rfl, exec_bqProc w s⟩

/-- Settles O32: the registers are those of `bqClear`. -/
theorem biquadResetZeroesTheDelayRegisters : Obligations.BiquadResetZeroesTheDelayRegisters := fun _ => ⟨rfl, rfl⟩

/-! ### The identity filter (R131(b), R258) -/

theorem fmul_comm (x y : F32) : fmul x y = fmul y x := by
  rcases x with _ | ⟨sx, a⟩ <;> rcases y with _ | ⟨sy, b⟩
  · rfl
  · rfl
  · rfl
  · simp only [fmul, mulNum, or_comm, Bool.xor_comm, Nat.mul_comm]

theorem one_fmul (x : F32) : fmul .one x = x := by rw [fmul_comm, fmul_one]

theorem exists_zero_fmul {x : F32} (hx : isfinite x = true) : ∃ t, fmul .zero x = signedZero t :=
  exists_fmul_eq_signedZero isfinite_zero hx (by rw [value_zero, Int.zero_mul])

/-- Zero times an infinity or a NaN is NaN. -/
theorem zero_fmul_of_not_finite {x : F32} (hx : isfinite x = false) : fmul .zero x = .nan := by
  rcases x with _ | ⟨s, m⟩
  · rfl
  · have hinf : m.val = infMag := by simpa [hx] using (isfinite_num (s := s) (m := m)).not
    obtain rfl : m = ⟨infMag, by decide⟩ := Fin.ext hinf
    exact fmul_inf_right

theorem fsub_signedZero {x : F32} (hx : x ≠ fneg .zero) (t : Bool) : fsub x (signedZero t) = x :=
  fadd_signedZero hx (!t)

section
variable {b : BQ} {x : F32}

/-- The four terms of the delay registers are zeros, and change nothing but a `-0.0`. -/
theorem bqOutput_identity (hcoef : b.coef = Coefs.identity) (hx1 : isfinite b.x1 = true) (hx2 : isfinite b.x2 = true)
    (hy1 : isfinite b.y1 = true) (hy2 : isfinite b.y2 = true) (hx : x ≠ fneg .zero) : bqOutput b x = x := by
  obtain ⟨t1, h1⟩ := exists_zero_fmul hx1
  obtain ⟨t2, h2⟩ := exists_zero_fmul hx2
  obtain ⟨t3, h3⟩ := exists_zero_fmul hy1
  obtain ⟨t4, h4⟩ := exists_zero_fmul hy2
  simp only [bqOutput, hcoef, Coefs.identity, fdiv_one, one_fmul, h1, h2, h3, h4, fadd_signedZero hx, fsub_signedZero hx]

/-- Wet alone: `1.0*y + 0.0*x`. -/
theorem bqMix_wet (hwet : b.wet = .one) (hdry : b.dry = .zero) (y : F32) : bqMix b x y = fadd y (fmul .zero x) := by
  rw [bqMix, hwet, hdry, one_fmul]

/-- From registers all +0.0 a `-0.0` is added to `+0.0`, and its sign is lost. -/
theorem bqOutput_identity_negZero (hcoef : b.coef = Coefs.identity) (hx1 : b.x1 = .zero) (hx2 : b.x2 = .zero)
    (hy1 : b.y1 = .zero) (hy2 : b.y2 = .zero) : bqOutput b (fneg .zero) = .zero := by
  simp only [bqOutput, hcoef, Coefs.identity, fdiv_one, one_fmul, hx1, hx2, hy1, hy2]
  decide

end

/-- Settles O31: the unmixed output (`bqOutput_identity`, `bqOutput_identity_negZero`), then the mix, whose dry term is a
zero for a finite operand and NaN for any other. -/
theorem identityFilterReturnsItsInput : Obligations.IdentityFilterReturnsItsInput := by
  intro x s t hcoef hwet hdry hx1 hx2 hy1 hy2 hexec
  rw [exec_bqProc_toBits] at hexec
  cases hexec
  rw [respond_responses, bqCore, bqMix_wet hwet hdry]
  refine ⟨fun hfin hx => ?_, fun hinf => ?_, fun hx hx1 hx2 hy1 hy2 => ?_⟩
  · obtain ⟨t, ht⟩ := exists_zero_fmul hfin
    rw [bqOutput_identity hcoef hx1 hx2 hy1 hy2 hx, ht, fadd_signedZero hx]
  · rw [zero_fmul_of_not_finite hinf, fadd_nan_right, floatValue_nan]
  · rw [hx, bqOutput_identity_negZero hcoef hx1 hx2 hy1 hy2]
    rfl

/-! ### A NaN in `y1` (R157(c)) -/

section
variable {b : BQ}

/-- `y1` enters every output, and the output is the next `y1`. -/
theorem bqCore_of_y1_nan (h : b.y1 = .nan) (x : F32) : bqCore b x = (.nan, bqShift b x .nan) := by
  rw [bqCore, bqOutput_nan h, bqMix, fmul_nan_right, fadd_nan_left]

theorem runChain_y1_nan (c : List Stage) (h : b.y1 = .nan) (x : F32) : (runChain c b x).2.y1 = .nan := by
  induction c generalizing b x with
  | nil => exact h
  | cons st rest ih =>
    rw [runChain, runStage_eq_bqCore, bqCore_of_y1_nan h]
    exact ih rfl _

end

/-- Every other command writes at most parameters, coefficients and mix of BQ (R52). -/
theorem issue_y1_nan {s : State} (h : s.bq.y1 = .nan) (i : Instr) (hreset : i ≠ .bqReset)
    (hkind : ∀ k, i ≠ .bqSetKind k) : (issue i s).bq.y1 = .nan := by
  have hwrites := writesOnly_issue i s
  cases i
  case rbPush w => exact runChain_y1_nan _ h _
  case bqProc w => exact congrArg (fun r => r.2.y1) (bqCore_of_y1_nan h _)
  case bqReset => exact absurd rfl hreset
  case bqSetKind k => exact absurd rfl (hkind k)
  all_goals
    obtain ⟨-, hbq, -⟩ := hwrites
    exact (congrArg BQ.y1 hbq).trans h

/-- Settles O41, by `issue_y1_nan` and the NaN output of `bqCore_of_y1_nan`. -/
theorem nanStaysUntilResetOrSetKind : Obligations.NaNStaysUntilResetOrSetKind := by
  intro i s t h hreset hkind hexec
  refine ⟨issue_eq_of_exec hexec ▸ issue_y1_nan h i hreset hkind, ?_⟩
  rintro x rfl
  rw [exec_bqProc, bqCore_of_y1_nan h] at hexec
  cases hexec
  rfl

/-! ## The mix (R154, R155) -/

/-- Settles O36: both setters check `inUnitInterval`. -/
theorem mixSettersStoreWetAndDry : Obligations.MixSettersStoreWetAndDry := by
  intro w s
  refine ⟨rfl, rfl, ?_, ?_⟩
  · simp only [exec, execBqSetWet, inUnitInterval_iff]
    rfl
  · simp only [exec, execBqSetDry, inUnitInterval_iff]
    rfl

end Sys2Proof.Machine

/-! PROOFS. The oscillator: its commands as equations (R171 to R187), the error of one rounding (R13), the cycle length (R181),
the period (R188), the phase position (R170), and the ranges of the shapes (R189). -/

namespace Sys2Proof.Machine

/-! ## The commands (R171 to R187) -/

/-- Settles O44: the top 24 bits of `rng` are a quotient by 2^8; the other shapes stand as written. -/
theorem shapesAsWritten : Obligations.ShapesAsWritten := by
  intro rng p
  refine ⟨rfl, rfl, rfl, rfl, ?_⟩
  rw [shape, randomShape, BitVec.toNat_ushiftRight, Nat.shiftRight_eq_div_pow]
  rfl

theorem exec_oscNext (s : State) : exec .oscNext s = .next (respond .ok
    (floatValue (rangeMap (oscAdvance s.osc) (shapeAt (oscAdvance s.osc) (oscAdvance s.osc).phase)))
    { s with osc := oscAdvance s.osc }) := rfl

/-- Settles O42: the new register values are those of `oscAdvance`, the generator's written out by `rngStep_eq`. -/
theorem nextAdvancesThenEvaluates : Obligations.NextAdvancesThenEvaluates := by
  intro s
  refine ⟨rfl, ?_⟩
  rw [← rngStep_eq]
  exact exec_oscNext s

/-- Settles O43: both commands answer `shapeAt`, which is the shape at the phase position. -/
theorem valueReadsTheShape : Obligations.ValueReadsTheShape := fun _ _ => ⟨rfl, rfl, rfl, rfl⟩

section
variable {f : F32} {fs : Word}

theorem oscCommit_of_some {n : Nat} (h : spcOf f fs = some n) (s : State) :
    oscCommit f fs s = respond .ok (.bits 0) { s with osc := oscRetune s.osc f fs n } := by
  rw [oscCommit, h]
  rfl

theorem oscCommit_of_none (h : spcOf f fs = none) (s : State) :
    oscCommit f fs s = respond .invalidParameter (.bits 0) s := by
  rw [oscCommit, h]
  rfl

end

/-- A tuning setter is rejected by its own check, or by the cycle length. -/
theorem ite_oscCommit_of_rejected {c : Prop} [Decidable c] {f : F32} {fs : Word} (h : ¬ c ∨ spcOf f fs = none) (s : State) :
    (if c then oscCommit f fs s else raiseInvalid s) = respond .invalidParameter (.bits 0) s := by
  split
  next hc => exact oscCommit_of_none (h.resolve_left (not_not.mpr hc)) s
  next => rfl

/-- Settles O48: past the operand's check both setters end as `oscCommit` does. -/
theorem tuningSettersRewrapProgress : Obligations.TuningSettersRewrapProgress := by
  intro w s retuned rejected
  refine ⟨rfl, rfl, fun n hf hn => ?_, fun h => ?_, fun n hw hn => ?_, fun h => ?_⟩
  · exact congrArg _ ((if_pos hf).trans (oscCommit_of_some hn s))
  · exact congrArg _ (ite_oscCommit_of_rejected h s)
  · exact congrArg _ ((if_pos (positiveI32_iff.mpr hw)).trans (oscCommit_of_some hn s))
  · rw [← Int.not_le, ← positiveI32_iff] at h
    exact congrArg _ (ite_oscCommit_of_rejected h s)

/-- The codes of R89 number the waveforms from 0 to 4. -/
theorem waveOfCode_eq (w : Word) : waveOfCode w = [Wave.sine, .triangle, .square, .saw, .random][w.toNat]? := by
  unfold waveOfCode
  generalize w.toNat = n
  rcases n with _ | _ | _ | _ | _ | n <;> rfl

/-- Settles O49: the waveform by its code (`waveOfCode_eq`), the phase by `inUnitInterval`, the range ends by `isfinite`. -/
theorem oscillatorSettersStoreTheirRegister : Obligations.OscillatorSettersStoreTheirRegister := by
  intro w s v rejected
  refine ⟨rfl, rfl, rfl, rfl, ?_, ?_, rfl, rfl⟩
  · rw [exec, execOscSetWave, waveOfCode_eq]
    cases [Wave.sine, .triangle, .square, .saw, .random][w.toNat]? <;> rfl
  · simp only [exec, execOscSetPhase, inUnitInterval_iff]
    rfl

/-! ## One rounding: its bounds and its error (R13) -/

theorem half_ne_nan : F32.half ≠ .nan := by decide
theorem twoPow31_ne_nan : F32.twoPow31 ≠ .nan := by decide

/-- A rounded result lies between values that the exact one lies between. -/
theorem fle_of_value_eq_roundInt {x lo hi : F32} {z : Int} {d : Nat} (hd : 0 < d) (hx : x ≠ .nan ∧ x.value = roundInt z d)
    (hlo : lo ≠ .nan) (hhi : hi ≠ .nan) (h1 : lo.value * d ≤ z) (h2 : z ≤ hi.value * d) :
    fle lo x = true ∧ fle x hi = true := by
  obtain ⟨hn, hv⟩ := hx
  exact ⟨fle_iff.mpr ⟨hlo, hn, hv ▸ le_roundInt hd hlo h1⟩, fle_iff.mpr ⟨hn, hhi, hv ▸ roundInt_le hd hhi h2⟩⟩

theorem value_bounds_of_fle {x lo hi : F32} (h : fle lo x = true ∧ fle x hi = true) :
    x ≠ .nan ∧ lo.value ≤ x.value ∧ x.value ≤ hi.value := by
  obtain ⟨-, hn, hlo⟩ := fle_iff.mp h.1
  obtain ⟨-, -, hhi⟩ := fle_iff.mp h.2
  exact ⟨hn, hlo, hhi⟩

/-- No value is nearer to the exact result than the rounded one. -/
theorem abs_sub_roundInt_le (z : Int) {d : Nat} {c : F32} (hd : 0 < d) (hc : c ≠ .nan) :
    |z - roundInt z d * d| ≤ |z - c.value * d| := by
  obtain ⟨b, hb, hv⟩ := exists_mag hc
  have hmag : |(z.natAbs : Int) - units (roundMag z.natAbs d) * d| ≤ |(z.natAbs : Int) - units b * d| := by
    rcases eq_or_ne b (roundMag z.natAbs d) with rfl | hne
    · exact le_rfl
    · rcases (isNearestEven_roundMag z.natAbs hd).2 b hb hne with h | h
      · exact h.le
      · exact h.1.le
  have hround : |z - roundInt z d * d| = |(z.natAbs : Int) - units (roundMag z.natAbs d) * d| := by
    rcases lt_or_ge z 0 with h | h
    · rw [roundInt_of_neg h, Int.ofNat_natAbs_of_nonpos h.le, neg_mul, abs_sub_comm, neg_sub_comm]
    · rw [roundInt_of_nonneg h, Int.natAbs_of_nonneg h]
  have hvalue : |(z.natAbs : Int) - units b * d| ≤ |z - c.value * d| := by
    rw [← hv, Int.natCast_natAbs, Int.natCast_natAbs, ← Nat.abs_cast d, ← abs_mul, Nat.abs_cast]
    exact abs_abs_sub_abs_le _ _
  rw [hround]
  exact hmag.trans hvalue

/-- Below 2^24 multiples of a power of two, rounding errs by at most half of it. -/
theorem two_mul_abs_sub_roundInt_le {z : Int} {j : Nat} (hj : j ≤ 149) (h0 : 0 ≤ z) (h : z ≤ 2 ^ 24 * 2 ^ j) :
    2 * |z - roundInt z 1| ≤ 2 ^ j := by
  have hpos : (0 : Int) < 2 ^ j := by positivity
  have herr : ∀ q : Int, 0 ≤ q → q ≤ 2 ^ 24 → |z - roundInt z 1| ≤ |z - q * 2 ^ j| := fun q hq0 hq => by
    obtain ⟨c, hc, hv⟩ := exists_value_int (z := q) (by omega) hj
    simpa [hv] using abs_sub_roundInt_le z Nat.one_pos hc
  have hdiv := Int.mul_ediv_add_emod z (2 ^ j)
  have hr0 := Int.emod_nonneg z hpos.ne'
  have hr1 := Int.emod_lt_of_pos z hpos
  have hq0 : 0 ≤ z / 2 ^ j := Int.ediv_nonneg h0 hpos.le
  have hq : z / 2 ^ j ≤ 2 ^ 24 := Int.ediv_le_of_le_mul hpos h
  generalize (2 : Int) ^ j = M at *
  generalize z / M = q at *
  generalize z % M = r at *
  rcases le_or_gt (2 * r) M with hlow | hhigh
  · have := herr q hq0 hq
    rw [show z - q * M = r by linarith, abs_of_nonneg hr0] at this
    linarith
  · have hlt : q < 2 ^ 24 := by
      by_contra hge
      have := Int.mul_le_mul_of_nonneg_left (Int.not_lt.mp hge) hpos.le
      linarith
    have := herr (q + 1) (by omega) hlt
    rw [show z - (q + 1) * M = -(M - r) by linarith, abs_neg, abs_of_pos (sub_pos.mpr hr1)] at this
    linarith

/-- An exact ratio at or below the midpoint of an even magnitude and its successor does not round above it. -/
theorem roundMag_le_of_midpoint {n d b : Nat} (hd : 0 < d) (hb : b % 2 = 0)
    (h : 2 * n ≤ units b * d + units (b + 1) * d) : roundMag n d ≤ b := by
  obtain ⟨-, hlo, -⟩ := (isNearestEven_iff hd).mp (isNearestEven_roundMag n hd)
  by_contra hlt
  have hle : units (b + 1) * d ≤ units (roundMag n d) * d :=
    Nat.mul_le_mul_right d (units_le_units.mpr (Nat.not_le.mp hlt))
  rcases hlo b (Nat.not_le.mp hlt) with habove | ⟨htie, heven⟩
  · omega
  · have := units_mul_lt hd (show b + 1 < roundMag n d by omega)
    omega

theorem natAbs_roundInt (z : Int) (d : Nat) : (roundInt z d).natAbs = units (roundMag z.natAbs d) := by
  rcases lt_or_ge z 0 with h | h
  · rw [roundInt_of_neg h, Int.natAbs_neg, Int.natAbs_natCast]
  · rw [roundInt_of_nonneg h, Int.natAbs_natCast]

/-! ## The cycle length (R181) -/

/-- R181's two checks of the quotient, and the integer within half of it. -/
theorem spcOf_eq_some_iff {f : F32} {fs : Word} {n : Nat} : spcOf f fs = some n ↔
    fdiv (u2f fs.toNat) f ≠ .nan ∧ 2 ^ 148 ≤ (fdiv (u2f fs.toNat) f).value ∧
    (fdiv (u2f fs.toNat) f).value < 2 ^ 31 * 2 ^ 149 ∧ (2 * (n : Int) - 1) * 2 ^ 148 ≤ (fdiv (u2f fs.toNat) f).value ∧
    (fdiv (u2f fs.toNat) f).value < (2 * (n : Int) + 1) * 2 ^ 148 := by
  rw [spcOf]
  generalize fdiv (u2f fs.toNat) f = q
  rw [Option.ite_none_right_eq_some, Bool.and_eq_true, fle_iff, flt_iff, value_half, value_twoPow31, Option.some_inj,
    roundHalfUp]
  constructor
  · rintro ⟨⟨⟨-, hq, hlo⟩, -, -, hhi⟩, hn⟩
    exact ⟨hq, by omega⟩
  · rintro ⟨hq, hlo, hhi, hnear⟩
    exact ⟨⟨⟨half_ne_nan, hq, hlo⟩, hq, twoPow31_ne_nan, by omega⟩, by omega⟩

/-- Settles O47, by `spcOf_eq_some_iff` and `spcOf_bounds`. -/
theorem cycleLengthIsTheRoundedQuotient : Obligations.CycleLengthIsTheRoundedQuotient :=
  fun _ _ _ => ⟨spcOf_eq_some_iff, spcOf_bounds⟩

/-! ## The period (R188) -/

theorem issue_oscNext_osc (s : State) : (issue .oscNext s).osc = oscAdvance s.osc := rfl

theorem lastValue_issue_oscNext (s : State) : lastValue (issue .oscNext s) =
    rangeMap (oscAdvance s.osc) (shapeAt (oscAdvance s.osc) (oscAdvance s.osc).phase) := by
  simp [lastValue, issue, exec_oscNext]

/-- A run of `OSC_NEXT` writes nothing of the block but OSC (R52). -/
theorem oscNextRun_frame (n : Nat) (s : State) : (oscNextRun n s).rb = s.rb ∧ (oscNextRun n s).bq = s.bq := by
  induction n generalizing s with
  | zero => exact ⟨rfl, rfl⟩
  | succ n ih => exact ih (issue .oscNext s)

theorem oscNextRun_osc (n : Nat) (s : State) : (oscNextRun n s).osc = oscAdvance^[n] s.osc := by
  induction n generalizing s with
  | zero => rfl
  | succ n ih => exact ih (issue .oscNext s)

theorem oscNextRun_succ (n : Nat) (s : State) : oscNextRun (n + 1) s = issue .oscNext (oscNextRun n s) := by
  induction n generalizing s with
  | zero => rfl
  | succ n ih => exact ih (issue .oscNext s)

/-- The response of the last of a run of `OSC_NEXT` is the value of the oscillator it leaves. -/
theorem lastValue_oscNextRun {n : Nat} (h : 0 < n) (s : State) : lastValue (oscNextRun n s) =
    rangeMap (oscNextRun n s).osc (shapeAt (oscNextRun n s).osc (oscNextRun n s).osc.phase) := by
  obtain ⟨k, rfl⟩ := Nat.exists_eq_succ_of_ne_zero h.ne'
  rw [Nat.succ_eq_add_one, oscNextRun_succ, lastValue_issue_oscNext, issue_oscNext_osc]

section
variable {o : OSC}

/-- Within one cycle: `progress` has advanced modulo `spc`, and `rng` has stepped iff it has passed 0. -/
theorem iterate_oscAdvance (hspc : o.spc.toNat ≤ 2 ^ 31) (hlt : o.progress.toNat < o.spc.toNat) {k : Nat}
    (hk : k ≤ o.spc.toNat) : oscAdvance^[k] o =
      { o with progress := BitVec.ofNat 32 ((o.progress.toNat + k) % o.spc.toNat),
               rng := if o.progress.toNat + k < o.spc.toNat then o.rng else rngStep o.rng } := by
  induction k with
  | zero => rw [Nat.add_zero, Nat.mod_eq_of_lt hlt, if_pos hlt, BitVec.ofNat_toNat, BitVec.setWidth_eq]; rfl
  | succ k ih =>
    have hmod := Nat.mod_lt (o.progress.toNat + k) (by omega : 0 < o.spc.toNat)
    have hprogress : (BitVec.ofNat 32 ((o.progress.toNat + k) % o.spc.toNat)).toNat =
        (o.progress.toNat + k) % o.spc.toNat := toNat_ofNat_of_lt (by omega)
    rw [Function.iterate_succ_apply', ih (by omega), oscAdvance, hprogress, Nat.mod_add_mod, Nat.add_assoc]
    dsimp only
    congr 1
    rcases Nat.lt_trichotomy (o.progress.toNat + (k + 1)) o.spc.toNat with h | h | h
    · rw [Nat.mod_eq_of_lt h, if_neg (by omega), if_pos (by omega), if_pos h]
    · rw [h, Nat.mod_self, if_pos rfl, if_pos (by omega), if_neg (lt_irrefl _)]
    · rw [Nat.mod_eq_sub_mod h.le, Nat.mod_eq_of_lt (by omega), if_neg (by omega), if_neg (by omega), if_neg (by omega)]

/-- A whole cycle changes the generator alone. -/
theorem OSC.Inv.iterate_spc (h : OSC.Inv o) : oscAdvance^[o.spc.toNat] o = { o with rng := rngStep o.rng } := by
  rw [iterate_oscAdvance h.spc_le h.progress_lt le_rfl, Nat.add_mod_right, Nat.mod_eq_of_lt h.progress_lt,
    if_neg (by omega), BitVec.ofNat_toNat, BitVec.setWidth_eq]

/-- Only the random shape reads `rng`, and the range map does not. -/
theorem rangeMap_shapeAt_setRng (h : o.wave ≠ .random) (r : Word) (ph : F32) :
    rangeMap { o with rng := r } (shapeAt { o with rng := r } ph) = rangeMap o (shapeAt o ph) := by
  have hshape : ∀ p, shape o.wave r p = shape o.wave o.rng p := fun p => by
    unfold shape
    split
    case h_5 hw => exact absurd hw h
    all_goals rfl
  exact congrArg (rangeMap o) (hshape _)

theorem oscAdvance_setRng (o : OSC) (r : Word) :
    oscAdvance { o with rng := r } = { oscAdvance o with rng := (oscAdvance { o with rng := r }).rng } := rfl

end

/-- Settles O50: the whole cycle by `OSC.Inv.iterate_spc`, and the values, which do not depend on the generator. -/
theorem oscillatorIsPeriodic : Obligations.OscillatorIsPeriodic := by
  intro s h n t
  have hosc : t.osc = { s.osc with rng := rngStep s.osc.rng } := (oscNextRun_osc n s).trans h.iterate_spc
  obtain ⟨hrb, hbq⟩ : t.rb = s.rb ∧ t.bq = s.bq := oscNextRun_frame n s
  refine ⟨by rw [hosc, rngStep_eq], hrb, hbq, fun hw => ?_, fun hw _ => ?_⟩
  · rw [oscNextRun_succ, oscNextRun_succ, lastValue_issue_oscNext, lastValue_issue_oscNext, hosc, oscAdvance_setRng]
    exact rangeMap_shapeAt_setRng (o := oscAdvance s.osc) hw _ _
  · have hlast : lastValue t = rangeMap t.osc (shapeAt t.osc t.osc.phase) := lastValue_oscNextRun h.spc_pos s
    rw [hlast, hosc]
    exact rangeMap_shapeAt_setRng hw _ _

/-! ## The phase position (R170) -/

/-- No finite value is above the magnitude before the infinity. -/
theorem abs_value_le_of_isfinite {x : F32} (h : isfinite x = true) : |x.value| ≤ units (infMag - 1) := by
  rcases x with _ | ⟨s, m⟩
  · simp [isfinite] at h
  · have hm : m.val ≤ infMag := Nat.le_of_lt_succ m.isLt
    rw [isfinite_num] at h
    rw [Int.abs_eq_natAbs, natAbs_value]
    exact_mod_cast units_le_units.mpr (show m.val ≤ infMag - 1 by omega)

theorem isfinite_of_abs_le_two_pow {x : F32} (hx : x ≠ .nan) (h : |x.value| ≤ 2 ^ 180) : isfinite x = true :=
  isfinite_of_abs hx (h.trans_lt (pow_lt_pow_right₀ (by decide) (by decide)))

/-- A summand far below the last place of the largest value does not carry a finite one to an infinity. -/
theorem isfinite_fadd_of_small {x y : F32} (hx : isfinite x = true) (hy : y ≠ .nan) (h : |y.value| ≤ 2 ^ 180) :
    isfinite (fadd y x) = true := by
  have hyf : isfinite y = true := isfinite_of_abs_le_two_pow hy h
  obtain ⟨hn, hv⟩ := fadd_finite hyf hx
  have hxn : x ≠ .nan := (isfinite_iff.mp hx).1
  have herr := abs_sub_roundInt_le (y.value + x.value) Nat.one_pos hxn
  have hmax := abs_value_le_of_isfinite hx
  have hroom : (units (infMag - 1) : Int) + 2 * 2 ^ 180 < units infMag := by decide
  refine isfinite_of_abs hn ?_
  have hinf : (units infMag : Int) = 2 ^ 277 := by rw [units_infMag, Nat.cast_pow, Nat.cast_ofNat]
  rw [← hinf, hv]
  rw [Nat.cast_one, mul_one, mul_one, add_sub_cancel_right] at herr
  rw [abs_le] at herr hmax
  rw [abs_lt]
  constructor
  · linarith [neg_abs_le y.value]
  · linarith [le_abs_self y.value]

/-- "An F32 of magnitude `2^23` or more is already an integer" (R170). -/
theorem emod_of_large {m : F32} (h : 2 ^ 24 * 2 ^ 149 < |m.value|) : m.value % 2 ^ 149 = 0 := by
  rcases m with _ | ⟨s, a⟩
  · rw [value_nan, abs_zero] at h
    exact absurd h (by decide)
  · rw [Int.abs_eq_natAbs, natAbs_value] at h
    rw [← Int.dvd_iff_emod_eq_zero, ← Int.dvd_natAbs, natAbs_value]
    obtain ⟨k, m, ha, hm, hk⟩ := mag_pack a.val
    rw [ha, units_pack k m hm.le hk] at h ⊢
    have hk : 149 ≤ k := by
      by_contra hlt
      have : m * 2 ^ k ≤ 2 ^ 24 * 2 ^ 149 := Nat.mul_le_mul hm.le (Nat.pow_le_pow_right (by decide) (by omega))
      omega
    exact_mod_cast (pow_dvd_pow 2 hk).mul_left m

/-- The floor of a finite value is a value, and what is left is the rounded fraction. -/
theorem value_fsub_floor {m : F32} (hm : isfinite m = true) : (i2f (floorZ m)).value = floorZ m * 2 ^ 149 ∧
    fsub m (i2f (floorZ m)) ≠ .nan ∧ (fsub m (i2f (floorZ m))).value = roundInt (m.value % 2 ^ 149) 1 := by
  obtain ⟨hn, hfin⟩ := isfinite_iff.mp hm
  rcases le_or_gt |m.value| (2 ^ 24 * 2 ^ 149) with hsmall | hlarge
  · exact value_frac hn hsmall
  · have hmod := emod_of_large hlarge
    have hfloor : floorZ m * 2 ^ 149 = m.value := by
      rw [floorZ]
      omega
    have hi : (i2f (floorZ m)).value = m.value := by
      rw [value_i2f, hfloor]
      exact roundInt_exact Nat.one_pos hn (by omega)
    obtain ⟨hfn, hv⟩ := fsub_finite hm (isfinite_of_abs (i2f_ne_nan _) (hi.symm ▸ hfin))
    exact ⟨hi.trans hfloor.symm, hfn, by rw [hv, hi, sub_self, hmod]⟩

/-- What is left lies in [0, 1], and below 1 where it is exact. -/
theorem fsub_floor_bounds {m : F32} (hm : isfinite m = true) : fle .zero (fsub m (i2f (floorZ m))) = true ∧
    fle (fsub m (i2f (floorZ m))) .one = true ∧
    (0 ≤ m.value → (fsub m (i2f (floorZ m))).value = m.value % 2 ^ 149 ∧ flt (fsub m (i2f (floorZ m))) .one = true) := by
  obtain ⟨-, hn, hv⟩ := value_fsub_floor hm
  obtain ⟨hlo, hhi⟩ := fle_of_value_eq_roundInt Nat.one_pos ⟨hn, hv⟩ zero_ne_nan one_ne_nan
    (by rw [value_zero]; omega) (by rw [value_one]; omega)
  refine ⟨hlo, hhi, fun h0 => ?_⟩
  rw [roundInt_emod h0] at hv
  exact ⟨hv, flt_iff.mpr ⟨hn, one_ne_nan, by rw [hv, value_one]; omega⟩⟩

/-- A cycle length or a progress as F32. -/
theorem u2f_bounds {n : Nat} (h : n ≤ 2 ^ 31) : isfinite (u2f n) = true ∧ 0 ≤ (u2f n).value ∧ (u2f n).value ≤ 2 ^ 180 := by
  obtain ⟨-, hlo, hhi⟩ := value_bounds_of_fle (fle_of_value_eq_roundInt Nat.one_pos ⟨u2f_ne_nan n, value_u2f n⟩
    zero_ne_nan twoPow31_ne_nan (by rw [value_zero]; omega) (by rw [value_twoPow31]; omega))
  rw [value_zero] at hlo
  rw [value_twoPow31] at hhi
  exact ⟨isfinite_of_abs_le_two_pow (u2f_ne_nan n) ((abs_of_nonneg hlo).le.trans hhi), hlo, hhi⟩

/-- The cycle length is at least 1.0. -/
theorem one_le_value_u2f {n : Nat} (h : 1 ≤ n) : 2 ^ 149 ≤ (u2f n).value := by
  rw [value_u2f]
  exact value_one ▸ le_roundInt (z := n * 2 ^ 149) Nat.one_pos one_ne_nan (by rw [value_one]; omega)

/-- `progress/spc` is a value of moderate size. -/
theorem fdiv_progress_bounds {m n : Nat} (hm : m ≤ 2 ^ 31) (h1 : 1 ≤ n) (hn : n ≤ 2 ^ 31) :
    fdiv (u2f m) (u2f n) ≠ .nan ∧ |(fdiv (u2f m) (u2f n)).value| ≤ 2 ^ 180 := by
  obtain ⟨hxf, hx0, hx⟩ := u2f_bounds hm
  obtain ⟨hyf, -, -⟩ := u2f_bounds hn
  have hy := one_le_value_u2f h1
  have hpos : 0 < (u2f n).value := by omega
  have hq := fdiv_finite hxf hyf hpos.ne'
  rw [Int.sign_eq_one_of_pos hpos, mul_one] at hq
  obtain ⟨hn, hlo, hhi⟩ := value_bounds_of_fle (fle_of_value_eq_roundInt (Int.natAbs_pos.mpr hpos.ne') hq
    zero_ne_nan twoPow31_ne_nan
    (by rw [value_zero, zero_mul]; exact mul_nonneg hx0 (pow_nonneg zero_le_two _))
    (by
      rw [value_twoPow31, Int.natAbs_of_nonneg hpos.le]
      exact Int.mul_le_mul hx hy (by positivity) (by positivity)))
  rw [value_zero] at hlo
  rw [value_twoPow31] at hhi
  exact ⟨hn, (abs_of_nonneg hlo).le.trans hhi⟩

/-- Settles O45: the sum is finite (`isfinite_fadd_of_small`), and the position what its floor leaves. -/
theorem phasePositionIsTheFraction : Obligations.PhasePositionIsTheFraction := by
  intro o ph h hph sum whole
  obtain ⟨hq, hsmall⟩ := fdiv_progress_bounds (h.progress_lt.le.trans h.spc_le) h.spc_pos h.spc_le
  have hsum : isfinite sum = true := isfinite_fadd_of_small hph hq hsmall
  obtain ⟨hwhole, -⟩ := value_fsub_floor hsum
  exact ⟨rfl, hwhole, fsub_floor_bounds hsum⟩

/-! ## The ranges of the shapes (R189) -/

theorem value_fabs (x : F32) : (fabs x).value = |x.value| := by
  rcases x with _ | ⟨_ | _, m⟩ <;> simp [fabs]

theorem isfinite_fabs (x : F32) : isfinite (fabs x) = isfinite x := by cases x <;> rfl

theorem value_eight : F32.eight.value = 2 ^ 152 := by decide
theorem value_sixteen : F32.sixteen.value = 2 ^ 153 := by decide
theorem value_twoPow24 : F32.twoPow24.value = 2 ^ (149 + 24) := by decide

/-- A value of at most 1/2, sixteen times, is a value. -/
theorem exists_value_sixteen_mul {x : F32} (hx : x ≠ .nan) (h : |x.value| ≤ 2 ^ 148) :
    ∃ c : F32, c ≠ .nan ∧ c.value = 16 * |x.value| := by
  obtain ⟨b, -, hv⟩ := exists_mag hx
  obtain ⟨k, m, rfl, hm, hk⟩ := mag_pack b
  rw [units_pack k m hm.le hk] at hv
  rw [Int.abs_eq_natAbs, hv] at h ⊢
  have h16 : m * 2 ^ (k + 4) = 16 * (m * 2 ^ k) := by ring
  have hroom : 2 ^ 152 ≤ units infMag := by decide
  obtain ⟨c, hc, hcv⟩ := exists_value (a := m) (j := k + 4) hm (by omega)
  exact ⟨c, hc, by rw [hcv]; exact_mod_cast h16⟩

/-- The product of the sine's half wave before it is rounded: at most 1.0 exactly, and at most half an ulp above it after the
rounding of its second factor, whose ulp halves at `|d| = 1/4`. -/
theorem parabola_product_le {D u : Int} (h0 : 0 ≤ D) (h1 : D ≤ 2 ^ 148)
    (hlow : D ≤ 2 ^ 147 → 2 * (u - (2 ^ 152 - 16 * D)) ≤ 2 ^ 128)
    (hhigh : 2 ^ 147 < D → 2 * (u - (2 ^ 152 - 16 * D)) ≤ 2 ^ 127) :
    2 * (D * u) ≤ 2 ^ 149 * 2 ^ 149 + (2 ^ 149 + 2 ^ 126) * 2 ^ 149 := by
  have hexact : 16 * (D * (2 ^ 148 - D)) ≤ 2 ^ 149 * 2 ^ 149 := by
    have := sq_nonneg (D - 2 ^ 147)
    linarith
  have herr : D * (2 * (u - (2 ^ 152 - 16 * D))) ≤ 2 ^ 147 * 2 ^ 128 := by
    rcases le_or_gt D (2 ^ 147) with h | h
    · calc D * (2 * (u - (2 ^ 152 - 16 * D))) ≤ D * 2 ^ 128 := Int.mul_le_mul_of_nonneg_left (hlow h) h0
        _ ≤ 2 ^ 147 * 2 ^ 128 := Int.mul_le_mul_of_nonneg_right h (by positivity)
    · calc D * (2 * (u - (2 ^ 152 - 16 * D))) ≤ D * 2 ^ 127 := Int.mul_le_mul_of_nonneg_left (hhigh h) h0
        _ ≤ 2 ^ 148 * 2 ^ 127 := Int.mul_le_mul_of_nonneg_right h1 (by positivity)
        _ = 2 ^ 147 * 2 ^ 128 := by norm_num
  linarith

section
variable {d : F32}

/-- The second factor `8 - 16|d|` rounds once. -/
theorem value_parabola_factor (hd : isfinite d = true) (h : |d.value| ≤ 2 ^ 148) :
    isfinite (fsub .eight (fmul .sixteen (fabs d))) = true ∧
    0 ≤ (fsub .eight (fmul .sixteen (fabs d))).value ∧
    (fsub .eight (fmul .sixteen (fabs d))).value = roundInt (2 ^ 152 - 16 * |d.value|) 1 := by
  have hdn := (isfinite_iff.mp hd).1
  obtain ⟨htn, htv⟩ := fmul_finite (x := .sixteen) (y := fabs d) (by decide) (by rwa [isfinite_fabs])
  obtain ⟨c, hc, hcv⟩ := exists_value_sixteen_mul hdn h
  rw [value_sixteen, value_fabs, roundInt_exact (by positivity) hc (by rw [hcv]; push_cast; ring), hcv] at htv
  have h0 := abs_nonneg d.value
  have htf : isfinite (fmul .sixteen (fabs d)) = true :=
    isfinite_of_abs_le htn (by rw [htv, abs_le]; omega)
  obtain ⟨hun, huv⟩ := fsub_finite (x := .eight) (by decide) htf
  rw [value_eight, htv] at huv
  obtain ⟨-, hlo, hhi⟩ := value_bounds_of_fle (fle_of_value_eq_roundInt (lo := .zero) (hi := .eight) Nat.one_pos
    ⟨hun, huv⟩ zero_ne_nan (by decide) (by rw [value_zero]; omega) (by rw [value_eight]; omega))
  rw [value_zero] at hlo
  rw [value_eight] at hhi
  exact ⟨isfinite_of_abs_le hun (by rw [abs_le]; omega), hlo, huv⟩

/-- R172's half wave stays in [-1, 1] on [-1/2, 1/2]. -/
theorem parabola_bounds (hd : isfinite d = true) (h : |d.value| ≤ 2 ^ 148) :
    parabola d ≠ .nan ∧ |(parabola d).value| ≤ 2 ^ 149 := by
  obtain ⟨huf, hu0, huv⟩ := value_parabola_factor hd h
  obtain ⟨hn, hv⟩ : parabola d ≠ .nan ∧ (parabola d).value = _ := fmul_finite hd huf
  have h0 := abs_nonneg d.value
  generalize hu : (fsub F32.eight (fmul F32.sixteen (fabs d))).value = u at hu0 huv hv
  have herr : ∀ j ≤ 149, 2 ^ 152 - 16 * |d.value| ≤ 2 ^ 24 * 2 ^ j → 2 * (u - (2 ^ 152 - 16 * |d.value|)) ≤ 2 ^ j := by
    intro j hj hle
    have hround := two_mul_abs_sub_roundInt_le hj (by omega) hle
    rw [← huv, abs_sub_comm] at hround
    linarith [le_abs_self (u - (2 ^ 152 - 16 * |d.value|))]
  have hprod : 2 * (|d.value| * u) ≤ 2 ^ 149 * 2 ^ 149 + (2 ^ 149 + 2 ^ 126) * 2 ^ 149 :=
    parabola_product_le h0 h (fun _ => herr 128 (by decide) (by omega)) (fun _ => herr 127 (by decide) (by omega))
  refine ⟨hn, ?_⟩
  have hnext : units (0x3F800000 + 1) = 2 ^ 149 + 2 ^ 126 := by decide
  have hmag : roundMag (d.value * u).natAbs (2 ^ 149) ≤ 0x3F800000 := by
    refine roundMag_le_of_midpoint (by positivity) (by decide) ?_
    rw [units_one, hnext, ← Nat.cast_le (α := Int)]
    push_cast
    rwa [abs_mul, abs_of_nonneg hu0]
  rw [hv, Int.abs_eq_natAbs, natAbs_roundInt]
  exact_mod_cast (units_le_units.mpr hmag).trans units_one.le

end

section
variable {p : F32}

/-- A position of R189, as a finite value and its bounds. -/
theorem unit_bounds (h0 : fle .zero p = true) (h1 : fle p .one = true) :
    isfinite p = true ∧ 0 ≤ p.value ∧ p.value ≤ 2 ^ 149 := by
  obtain ⟨hn, hlo, hhi⟩ := value_bounds_of_fle ⟨h0, h1⟩
  rw [value_zero] at hlo
  rw [value_one] at hhi
  exact ⟨isfinite_of_abs_le hn (abs_le.mpr ⟨by omega, by omega⟩), hlo, hhi⟩

/-- Both halves of the sine are `parabola` on [-1/2, 1/2]. -/
theorem sineShape_bounds (h0 : fle .zero p = true) (h1 : fle p .one = true) :
    fle .negOne (sineShape p) = true ∧ fle (sineShape p) .one = true := by
  obtain ⟨hp, hlo, hhi⟩ := unit_bounds h0 h1
  have hneg : F32.negOne ≠ .nan := by decide
  have habs : sineShape p ≠ .nan ∧ |(sineShape p).value| ≤ 2 ^ 149 := by
    unfold sineShape
    split
    next hupper =>
      obtain ⟨-, -, hgt⟩ := flt_iff.mp hupper
      rw [value_half] at hgt
      obtain ⟨hdn, hge, hle⟩ := value_bounds_of_fle (fle_of_value_eq_roundInt (lo := fneg .half) (hi := .zero) Nat.one_pos
        (fsub_finite hp isfinite_one) (by decide) zero_ne_nan
        (by rw [value_fneg, value_half, value_one]; omega) (by rw [value_zero, value_one]; omega))
      rw [value_fneg, value_half] at hge
      rw [value_zero] at hle
      have habs : |(fsub p .one).value| ≤ 2 ^ 148 := abs_le.mpr ⟨hge, by omega⟩
      exact parabola_bounds (isfinite_of_abs_le hdn (by omega)) habs
    next hlower =>
      have hle : p.value ≤ 2 ^ 148 := by
        by_contra hgt
        exact hlower (flt_iff.mpr ⟨half_ne_nan, (isfinite_iff.mp hp).1, by rw [value_half]; omega⟩)
      exact parabola_bounds hp (abs_le.mpr ⟨by omega, hle⟩)
  obtain ⟨hn, hv⟩ := habs
  obtain ⟨hge, hle⟩ := abs_le.mp hv
  exact ⟨fle_iff.mpr ⟨hneg, hn, value_negOne.symm ▸ hge⟩, fle_iff.mpr ⟨hn, one_ne_nan, value_one.symm ▸ hle⟩⟩

/-- Twice a value in [0, 1/2]. -/
theorem two_fmul_bounds (h0 : fle .zero p = true) (hhalf : fle p .half = true) :
    fle .zero (fmul .two p) = true ∧ fle (fmul .two p) .one = true := by
  obtain ⟨hp, hlo, -⟩ := unit_bounds h0 (fle_trans hhalf (by decide))
  obtain ⟨-, -, hhi⟩ := fle_iff.mp hhalf
  rw [value_half] at hhi
  exact fle_of_value_eq_roundInt (by positivity) (fmul_finite (by decide) hp) zero_ne_nan one_ne_nan
    (by rw [value_zero, value_two]; omega) (by rw [value_one, value_two]; push_cast; omega)

/-- Both halves of the triangle are twice a value in [0, 1/2]. -/
theorem triangleShape_bounds (h0 : fle .zero p = true) (h1 : fle p .one = true) :
    fle .zero (triangleShape p) = true ∧ fle (triangleShape p) .one = true := by
  unfold triangleShape
  split
  next hlower => exact two_fmul_bounds h0 hlower
  next hupper =>
    obtain ⟨hp, -, hhi⟩ := unit_bounds h0 h1
    have hgt : 2 ^ 148 < p.value := by
      by_contra hle
      exact hupper (fle_iff.mpr ⟨(isfinite_iff.mp hp).1, half_ne_nan, by rw [value_half]; omega⟩)
    obtain ⟨hlo, hhalf⟩ := fle_of_value_eq_roundInt Nat.one_pos (fsub_finite isfinite_one hp) zero_ne_nan half_ne_nan
      (by rw [value_zero, value_one]; omega) (by rw [value_half, value_one]; omega)
    exact two_fmul_bounds hlo hhalf

theorem squareShape_eq (p : F32) : squareShape p = .zero ∨ squareShape p = .one := by
  unfold squareShape
  split
  · exact .inr rfl
  · exact .inl rfl

/-- 24 bits over 2^24 (R176) is exact. -/
theorem randomShape_bounds (rng : Word) : fle .zero (randomShape rng) = true ∧ flt (randomShape rng) .one = true := by
  have hbits : (rng >>> 8).toNat < 2 ^ 24 := by
    rw [BitVec.toNat_ushiftRight, Nat.shiftRight_eq_div_pow]
    have := rng.isLt
    omega
  obtain ⟨hn, hv⟩ : randomShape rng ≠ .nan ∧ (randomShape rng).value = _ :=
    fdiv_u2f_exact hbits.le (by decide) value_twoPow24
  refine ⟨fle_iff.mpr ⟨zero_ne_nan, hn, ?_⟩, flt_iff.mpr ⟨hn, one_ne_nan, ?_⟩⟩
  · rw [hv, value_zero]
    omega
  · rw [hv, value_one]
    omega

end

/-- Settles O46, shape by shape; the saw is the position. -/
theorem shapeValuesStayInRange : Obligations.ShapeValuesStayInRange := fun rng p h0 h1 =>
  ⟨sineShape_bounds h0 h1, triangleShape_bounds h0 h1, squareShape_eq p, ⟨h0, h1⟩, randomShape_bounds rng⟩

end Sys2Proof.Machine

/-! PROOFS. The composite effects: the commands each pseudo-operation issues (R200 to R204), the heads it moves (R205, R207), and
the bound of the half-gain comb (R206). -/

namespace Sys2Proof.Machine

/-! ## The commands of a pseudo-operation (R200 to R204) -/

/-- The `filtered_prev` and the state a run of LPFBCOMB has before input `k` (R203). -/
def lpFbCombAt (a b c : F32) : F32 × State → List F32 → Nat → F32 × State
  | h, _, 0 => h
  | h, [], _ + 1 => h
  | h, x :: xs, k + 1 => lpFbCombAt a b c (lpFbComb a b c h.1 x h.2).2 xs k

section
variable (a b c : F32)

@[simp] theorem lpFbCombAt_zero (h : F32 × State) (xs : List F32) : lpFbCombAt a b c h xs 0 = h := by cases xs <;> rfl

theorem length_lpFbCombFrom (prev : F32) (xs : List F32) (s : State) :
    (lpFbCombFrom a b c prev xs s).1.length = xs.length := by
  induction xs generalizing prev s with
  | nil => rfl
  | cons x xs ih => exact congrArg (· + 1) (ih _ _)

theorem lpFbCombFrom_end (prev : F32) (xs : List F32) (s : State) :
    (lpFbCombFrom a b c prev xs s).2 = lpFbCombAt a b c (prev, s) xs xs.length := by
  induction xs generalizing prev s with
  | nil => rfl
  | cons x xs ih => exact ih _ _

/-- A run is LPFBCOMB sample by sample, from what the sample before handed on. -/
theorem lpFbCombFrom_getElem? (prev : F32) {xs : List F32} {k : Nat} {x : F32} (hx : xs[k]? = some x) (s : State) :
    ∃ d, (lpFbCombFrom a b c prev xs s).1[k]? = some d ∧
      lpFbComb a b c (lpFbCombAt a b c (prev, s) xs k).1 x (lpFbCombAt a b c (prev, s) xs k).2 =
        (d, lpFbCombAt a b c (prev, s) xs (k + 1)) := by
  induction xs generalizing prev s k with
  | nil => simp at hx
  | cons y ys ih =>
    cases k with
    | zero =>
      obtain rfl : y = x := by simpa using hx
      exact ⟨_, rfl, by rw [lpFbCombAt_zero, lpFbCombAt, lpFbCombAt_zero]⟩
    | succ k => exact ih _ hx _

end

/-- Settles O58: `issue` gives the state each command ends in; a run hands on the `filtered_prev` and the state of
`lpFbCombAt`. -/
theorem compositesIssueTheirCommands : Obligations.CompositesIssueTheirCommands := by
  constructor
  · intro a b c prev x s s1 s2 s3 hpull
    refine ⟨fun hpush => ?_, fun hpush => ?_, fun t1 t2 hnext hmap => ?_⟩
    · simp only [allpass, fbComb, issuePush, issue_eq_of_exec hpull, issue_eq_of_exec hpush, and_self]
    · simp only [lpFbComb, issuePush, issue_eq_of_exec hpull, issue_eq_of_exec hpush]
    · simp only [modAllpass, issue_eq_of_exec hnext, issue_eq_of_exec hmap]
  · intro a b c xs s
    have hinit : lpFbCombAt a b c (.zero, s) xs 0 = (.zero, s) := lpFbCombAt_zero a b c _ xs
    exact ⟨length_lpFbCombFrom a b c .zero xs s, fun k => (lpFbCombAt a b c (.zero, s) xs k).1,
      fun k => (lpFbCombAt a b c (.zero, s) xs k).2, congrArg Prod.fst hinit, congrArg Prod.snd hinit,
      fun _ _ hx => lpFbCombFrom_getElem? a b c .zero hx s, lpFbCombFrom_end a b c .zero xs s⟩

/-! ## The heads (R205, R207) -/

/-- Heads that advance together keep the latency (R207(c)). -/
theorem lat_succ_succ {p : Params} {rb rb' : RB} (hwr : rb'.wr = (rb.wr + 1) % p.cap) (hrd : rb'.rd = (rb.rd + 1) % p.cap) :
    lat p rb' = lat p rb := by
  rw [lat, lat, hwr, hrd, wrap, wrap, Int.natCast_mod, Int.natCast_mod, ← Int.sub_emod, Nat.cast_succ, Nat.cast_succ,
    add_sub_add_right_eq_sub]

/-- A pull and a push advance both heads. -/
theorem issuePush_rbPull_heads (v : F32) (s : State) :
    (issuePush v (issue .rbPull s)).rb.wr = (s.rb.wr + 1) % s.cfg.cap ∧
    (issuePush v (issue .rbPull s)).rb.rd = (s.rb.rd + 1) % s.cfg.cap :=
  ⟨issuePush_wr v (issue .rbPull s), by rw [issuePush_rd, issue_rbPull_rd]⟩

/-- Settles O59: each of the four ends in a pull and a push, and the two commands before them in MODALLPASS move no head. -/
theorem compositesKeepTheLatency : Obligations.CompositesKeepTheLatency := by
  intro a b c prev x s t ht
  obtain ⟨v, u, rfl, hcfg, hwr, hrd⟩ : ∃ v u, t = issuePush v (issue .rbPull u) ∧ u.cfg = s.cfg ∧ u.rb.wr = s.rb.wr ∧
      u.rb.rd = s.rb.rd := by
    simp only [List.mem_cons, List.not_mem_nil, or_false] at ht
    rcases ht with rfl | rfl | rfl | rfl <;> exact ⟨_, _, rfl, rfl, rfl, rfl⟩
  obtain ⟨hw, hr⟩ := issuePush_rbPull_heads v u
  rw [hcfg, hwr] at hw
  rw [hcfg, hrd] at hr
  refine ⟨hw, hr, ?_, oscAdvance_progress s.osc⟩
  rw [issuePush_cfg, issue_rbPull_cfg, hcfg]
  exact lat_succ_succ hw hr

/-! ## Magnitudes (R13) -/

section
variable {x y a b c : F32}

theorem fle_fabs_iff : fle (fabs x) c = true ↔ x ≠ .nan ∧ c ≠ .nan ∧ |x.value| ≤ c.value := by
  have hnan : fabs x = .nan ↔ x = .nan := by cases x <;> simp [fabs]
  rw [fle_iff, value_fabs, ne_eq, hnan]

theorem isfinite_of_fle_fabs (ha : isfinite a = true) (h : fle (fabs x) a = true) : isfinite x = true := by
  obtain ⟨hx, -, hle⟩ := fle_fabs_iff.mp h
  exact isfinite_iff.mpr ⟨hx, (hle.trans (le_abs_self _)).trans_lt (isfinite_iff.mp ha).2⟩

/-- A rounded result has a magnitude of at most `c` when the exact one has. -/
theorem fle_fabs_of_value_eq_roundInt {z : Int} {d : Nat} (hd : 0 < d) (hx : x ≠ .nan ∧ x.value = roundInt z d)
    (hc : c ≠ .nan) (h : |z| ≤ c.value * d) : fle (fabs x) c = true := by
  obtain ⟨hlo, hhi⟩ := abs_le.mp h
  obtain ⟨hn, h1, h2⟩ := value_bounds_of_fle (fle_of_value_eq_roundInt hd hx (lo := fneg c) (by rwa [ne_eq, fneg_eq_nan]) hc
    (by rwa [value_fneg, neg_mul]) hhi)
  rw [value_fneg] at h1
  exact fle_fabs_iff.mpr ⟨hn, hc, abs_le.mpr ⟨h1, h2⟩⟩

/-- Rounding is monotone (R206): a sum has a magnitude of at most every value that bounds the sum of the bounds. -/
theorem fle_fabs_fadd (hx : fle (fabs x) a = true) (hy : fle (fabs y) b = true)
    (hfin : isfinite a = true ∧ isfinite b = true ∧ isfinite c = true) (h : a.value + b.value ≤ c.value) :
    fle (fabs (fadd x y)) c = true := by
  obtain ⟨ha, hb, hc⟩ := hfin
  refine fle_fabs_of_value_eq_roundInt Nat.one_pos (fadd_finite (isfinite_of_fle_fabs ha hx) (isfinite_of_fle_fabs hb hy))
    (isfinite_iff.mp hc).1 ?_
  rw [Nat.cast_one, mul_one]
  exact (abs_add_le _ _).trans ((add_le_add (fle_fabs_iff.mp hx).2.2 (fle_fabs_iff.mp hy).2.2).trans h)

/-- The same of a product and the product of the bounds. -/
theorem fle_fabs_fmul (hx : fle (fabs x) a = true) (hy : fle (fabs y) b = true)
    (hfin : isfinite a = true ∧ isfinite b = true ∧ isfinite c = true) (h : a.value * b.value ≤ c.value * 2 ^ 149) :
    fle (fabs (fmul x y)) c = true := by
  obtain ⟨ha, hb, hc⟩ := hfin
  obtain ⟨-, -, hxa⟩ := fle_fabs_iff.mp hx
  obtain ⟨-, -, hyb⟩ := fle_fabs_iff.mp hy
  refine fle_fabs_of_value_eq_roundInt (by positivity) (fmul_finite (isfinite_of_fle_fabs ha hx) (isfinite_of_fle_fabs hb hy))
    (isfinite_iff.mp hc).1 ?_
  calc |x.value * y.value| = |x.value| * |y.value| := abs_mul _ _
    _ ≤ a.value * b.value := mul_le_mul hxa hyb (abs_nonneg _) ((abs_nonneg _).trans hxa)
    _ ≤ c.value * ((2 ^ 149 : Nat) : Int) := by exact_mod_cast h

theorem fle_fabs_fneg (h : fle (fabs x) c = true) : fle (fabs (fneg x)) c = true := by
  rwa [show fabs (fneg x) = fabs x by cases x <;> rfl]

end

/-! ## The half-gain comb (R206) -/

/-- A pull at offset +0.0 weighs the difference of its two words with +0.0. -/
theorem interpolate_eq_of_zero_offset {p : Params} {rb : RB} (ho : rb.modOffset = .zero) :
    interpolate p rb = fadd (memRead rb.buf (wrap p rb.rd))
      (fmul .zero (fsub (memRead rb.buf (wrap p (rb.rd + 1))) (memRead rb.buf (wrap p rb.rd)))) := by
  have hfloor : floorZ .zero = 0 := by decide
  have hfrac : fsub .zero (i2f 0) = .zero := by decide
  simp only [interpolate, ho, hfloor, hfrac, add_zero]

/-- A line that adds no feedback of its own, at offset +0.0, over words of magnitude at most 2.0. -/
structure BoundedLine (s : State) : Prop where
  inv       : State.Inv s
  fbGain    : s.rb.fbGain = .zero
  chain     : s.rb.chain = []
  modOffset : s.rb.modOffset = .zero
  words     : ∀ a, fle (fabs (memRead s.rb.buf a)) .two = true

namespace BoundedLine
variable {s : State} {x g : F32}

theorem pull (h : BoundedLine s) : BoundedLine (issue .rbPull s) := { h with inv := h.inv.issue .rbPull }

/-- A pull answers the word at the read head plus a zero. -/
theorem fle_fabs_lastValue_rbPull (h : BoundedLine s) : fle (fabs (lastValue (issue .rbPull s))) .two = true := by
  rw [lastValue_rbPull, interpolate_eq_of_zero_offset h.modOffset]
  have hdiff : ∀ i j, fle (fabs (fsub (memRead s.rb.buf i) (memRead s.rb.buf j))) .four = true := fun i j =>
    fle_fabs_fadd (h.words i) (fle_fabs_fneg (h.words j)) (by decide) (by decide)
  have hzero : fle (fabs .zero) .zero = true := by decide
  exact fle_fabs_fadd (h.words _) (fle_fabs_fmul hzero (hdiff _ _) (c := .zero) (by decide) (by decide))
    (by decide) (by decide)

/-- A push stores its operand plus a zero. -/
theorem push (h : BoundedLine s) (hx : fle (fabs x) .two = true) : BoundedLine (issuePush x s) where
  inv := h.inv.issue _
  fbGain := h.fbGain
  chain := h.chain
  modOffset := h.modOffset
  words a := by
    have hfb : fle (fabs (fmul (memRead s.rb.buf s.rb.rd) .zero)) .zero = true :=
      fle_fabs_fmul (h.words _) (show fle (fabs .zero) .zero = true by decide) (by decide) (by decide)
    rw [issuePush_buf, feedback_nil h.chain, h.fbGain, memRead_memWrite h.inv.rb.buf_wf]
    split
    · exact fle_fabs_fadd hx hfb (by decide) (by decide)
    · exact h.words a

/-- R206's induction step: `1 + 0.5 * 2.0` is 2.0. -/
theorem fbComb_step (h : BoundedLine s) (hg : fle (fabs g) .half = true) (hx : fle (fabs x) .one = true) :
    fle (fabs (fbComb g x s).1) .two = true ∧ BoundedLine (fbComb g x s).2 := by
  have hfed : fle (fabs (fmul g (lastValue (issue .rbPull s)))) .one = true :=
    fle_fabs_fmul hg h.fle_fabs_lastValue_rbPull (by decide) (by decide)
  have hout : fle (fabs (fadd x (fmul g (lastValue (issue .rbPull s))))) .two = true :=
    fle_fabs_fadd hx hfed (by decide) (by decide)
  exact ⟨hout, h.pull.push hout⟩

theorem fle_fabs_fbCombRun (h : BoundedLine s) (hg : fle (fabs g) .half = true) {xs : List F32}
    (hxs : ∀ x ∈ xs, fle (fabs x) .one = true) : ∀ out ∈ (fbCombRun g xs s).1, fle (fabs out) .two = true := by
  induction xs generalizing s with
  | nil => exact fun _ hout => absurd hout List.not_mem_nil
  | cons x xs ih =>
    rw [List.forall_mem_cons] at hxs
    obtain ⟨hout, hline⟩ := h.fbComb_step hg hxs.1
    exact List.forall_mem_cons.mpr ⟨hout, ih hline hxs.2⟩

end BoundedLine

/-- Settles O60: the premises are a `BoundedLine`, and both gains have magnitude 0.5. -/
theorem halfGainCombStaysBelowTwo : Obligations.HalfGainCombStaysBelowTwo := by
  intro neg xs s hinv hgain hchain ho hwords hxs
  have hline : BoundedLine s := ⟨hinv, hgain, hchain, ho, hwords⟩
  have hhalf : fle (fabs (.num neg ⟨0x3F000000, by decide⟩)) .half = true := by cases neg <;> decide
  exact hline.fle_fabs_fbCombRun hhalf hxs

end Sys2Proof.Machine

/-! PROOFS. Responses and errors: the step without a command (R215, R240 to R242), the one response of a command (R210), when it
is InvalidParameter and what a rejection changes (R211, R219), and what no command reads (R27, R223). -/

namespace Sys2Proof.Machine

/-! ## The step without a command (R215, R240) -/

section
variable {s : State} {rest : List PortInput}

theorem step_of_nil (hs : s.input = []) : step s = .next s := by
  unfold step
  rw [hs]

theorem step_of_reset (hs : s.input = .reset :: rest) : step s = .next (resetBlock { s with input := rest }) := by
  unfold step
  rw [hs]

end

/-- Settles O8: the empty port (`step_of_nil`), and the reset input (`step_of_reset`), after which every field is that of
`State.resetWith`. -/
theorem emptyPortWaitsAndResetInputResets : Obligations.EmptyPortWaitsAndResetInputResets :=
  fun _ => ⟨step_of_nil, fun _ => step_of_reset⟩

/-! ## One response (R210) -/

theorem Ends.status_code {s t : State} {o : Host.Outcome State Fault Refusal} {r : Response} (h : Ends s o t r) :
    (statusCode r.status = 0 ∨ statusCode r.status = 1) ∧ (r.status ≠ .ok → r.value = .bits 0) := by
  obtain hok | rfl := h.status
  · exact ⟨.inl (by rw [hok]; rfl), fun hne => absurd hok hne⟩
  · exact ⟨.inr rfl, fun _ => rfl⟩

/-- Settles O10: a command by `exec_ends`; a word by what it decodes to, a command or an IllegalCommand response. -/
theorem everyCommandGivesOneResponse : Obligations.EveryCommandGivesOneResponse := by
  constructor
  · intro i s
    obtain ⟨t, r, h⟩ := exec_ends i s
    obtain ⟨hcode, hvalue⟩ := h.status_code
    exact ⟨t, r, h.next, h.responses, h.cfg, h.input, hcode, hvalue⟩
  · intro s c rest hs
    cases hd : decode c with
    | ok i =>
      obtain ⟨t, r, h⟩ := exec_ends i { s with input := rest }
      obtain ⟨hcode, hvalue⟩ := h.status_code
      exact ⟨t, r, (step_of_decode_ok hs hd).trans h.next, h.responses, hcode.imp_right .inl, hvalue⟩
    | error e => exact ⟨_, _, step_of_decode_error hs hd, rfl, .inr (.inr rfl), fun _ => rfl⟩

/-! ## Domains (R89, R211) -/

/-- Between two bounds is what is no NaN and beyond neither. -/
theorem fle_and_fle_iff {lo hi v : F32} (hlo : lo ≠ .nan) (hhi : hi ≠ .nan) :
    fle lo v = true ∧ fle v hi = true ↔ ¬ (v = .nan ∨ flt v lo = true ∨ flt hi v = true) := by
  by_cases hv : v = .nan
  · simp [hv, fle_iff]
  · simp [fle_iff, flt_iff, hv, hlo, hhi]

theorem inUnitInterval_iff_not_outsideUnit {v : F32} : inUnitInterval v = true ↔ ¬ outsideUnit v :=
  inUnitInterval_iff.trans (fle_and_fle_iff zero_ne_nan one_ne_nan)

theorem modRangeAccepted_iff_not_outside {p : Params} {rb : RB} {r : F32} : modRangeAccepted p rb r = true ↔
    ¬ (r = .nan ∨ flt r .zero = true ∨ flt (u2f (lat p rb)) r = true) :=
  modRangeAccepted_iff.trans (fle_and_fle_iff zero_ne_nan (u2f_ne_nan _))

theorem isfinite_iff_ne_false {v : F32} : isfinite v = true ↔ ¬ isfinite v = false := by
  rw [Bool.not_eq_false]

theorem kindOfCode_eq_none_iff {w : Word} : kindOfCode w = none ↔ 6 < w.toNat := by
  rw [kindOfCode_eq, List.getElem?_eq_none_iff]
  rfl

theorem waveOfCode_eq_none_iff {w : Word} : waveOfCode w = none ↔ 4 < w.toNat := by
  rw [waveOfCode_eq, List.getElem?_eq_none_iff]
  rfl

theorem bqCommit_eq_none_iff {b : BQ} {k : Kind} {f q g : F32} {fs : Word} :
    bqCommit machineNum b k f q g fs = none ↔ ¬ Committable k f q g fs := by
  rw [bqCommit, ite_eq_right_iff, commit_check_iff]
  exact forall_congr' fun _ => iff_false_intro (Option.some_ne_none _)

/-! ## InvalidParameter (R211, R219) -/

/-- What a rejected command leaves (R219): the state it found, but for `RB_SETMODRANGE` (R106). -/
def rejectedState (i : Instr) (s : State) : State :=
  match i with
  | .rbSetModRange _ => { s with rb := rbSetRange s.rb .zero }
  | _ => s

theorem rejectedState_of_ne {i : Instr} (hi : ∀ r, i ≠ .rbSetModRange r) (s : State) : rejectedState i s = s := by
  unfold rejectedState
  split
  next r => exact absurd rfl (hi r)
  next => rfl

@[simp] theorem rejectedState_responses (i : Instr) (s : State) : (rejectedState i s).responses = s.responses := by
  cases i <;> rfl

/-- How a command answers (R211): InvalidParameter outside its domain, OK inside it. -/
inductive Answers (i : Instr) (s : State) : Host.Outcome State Fault Refusal → Prop where
  | rejected (h : outsideDomain i s) :
      Answers i s (.next (respond .invalidParameter (.bits 0) (rejectedState i s)))
  | accepted (h : ¬ outsideDomain i s) {u : State} {v : Value} (hu : u.responses = s.responses) :
      Answers i s (.next (respond .ok v u))

section
variable {i : Instr} {s : State}

/-- A command without a row in the table. -/
theorem answers_of_total (h : outsideDomain i s = False) {u : State} {v : Value} (hu : u.responses = s.responses) :
    Answers i s (.next (respond .ok v u)) := .accepted (of_eq_false h) hu

/-- A command that ends OK where its check holds. -/
theorem answers_ite {c : Prop} [Decidable c] {u : State} {v : Value} (hc : c ↔ ¬ outsideDomain i s)
    (hu : u.responses = s.responses) :
    Answers i s (.next (if c then respond .ok v u else respond .invalidParameter (.bits 0) (rejectedState i s))) := by
  split
  next h => exact .accepted (hc.mp h) hu
  next h => exact .rejected (not_not.mp (hc.not.mp h))

/-- A setter that commits. -/
theorem answers_bqFinish {o : Option BQ} (hi : rejectedState i s = s) (ho : outsideDomain i s ↔ o = none) :
    Answers i s (.next (bqFinish s o)) := by
  cases o with
  | none =>
    have h := Answers.rejected (ho.mpr rfl)
    rwa [hi] at h
  | some b => exact .accepted (ho.not.mpr (Option.some_ne_none b)) rfl

/-- A tuning setter, which checks its operand and then the cycle length. -/
theorem answers_ite_oscCommit {c : Prop} [Decidable c] {f : F32} {fs : Word} (hi : rejectedState i s = s)
    (ho : outsideDomain i s ↔ ¬ c ∨ spcOf f fs = none) :
    Answers i s (.next (if c then oscCommit f fs s else raiseInvalid s)) := by
  by_cases h : outsideDomain i s
  · rw [ite_oscCommit_of_rejected (ho.mp h)]
    have h' := Answers.rejected h
    rwa [hi] at h'
  · obtain ⟨hc, hn⟩ := not_or.mp (ho.not.mp h)
    obtain ⟨n, hn⟩ := Option.ne_none_iff_exists'.mp hn
    rw [if_pos (not_not.mp hc), oscCommit_of_some hn]
    exact .accepted h rfl

end

/-- Row by row of R211's table. -/
theorem exec_answers (i : Instr) (s : State) : Answers i s (exec i s) := by
  cases i
  case rbPush w => exact answers_of_total rfl rfl
  case rbPull => exact answers_of_total rfl rfl
  case rbTap n =>
    rcases Nat.lt_or_ge n.toNat (lat s.cfg s.rb) with h | h
    · rw [exec_rbTap_of_lt h]
      refine .accepted ?_ rfl
      exact h.not_ge
    · rw [exec_rbTap_of_le h]
      exact .rejected h
  case rbSetDelay n => exact answers_ite delayAccepted_iff rfl
  case rbSetModRange r => exact answers_ite modRangeAccepted_iff_not_outside rfl
  case rbMapMod x => exact answers_of_total rfl rfl
  case rbSetFbGain g => exact answers_ite inUnitInterval_iff_not_outsideUnit rfl
  case rbAddFb k =>
    rw [exec, execRbAddFb_eq]
    refine answers_ite ?_ rfl
    rw [outsideDomain, not_or, not_not, not_le, ← BitVec.toNat_inj]
    rfl
  case rbGetLat => exact answers_of_total rfl rfl
  case rbGetMaxLat => exact answers_of_total rfl rfl
  case bqProc x => exact answers_of_total rfl rfl
  case bqReset => exact answers_of_total rfl rfl
  case bqSetKind k =>
    cases hk : kindOfCode k with
    | none =>
      rw [exec, execBqSetKind_of_none hk]
      exact .rejected (.inl (kindOfCode_eq_none_iff.mp hk))
    | some kind =>
      have hcode : ¬ 6 < k.toNat := kindOfCode_eq_none_iff.not.mp (by rw [hk]; exact Option.some_ne_none _)
      rw [exec, execBqSetKind_of_some hk]
      refine answers_bqFinish rfl ?_
      rw [Option.map_eq_none_iff, bqCommit_eq_none_iff]
      simp only [outsideDomain, hcode, hk, false_or, Option.some_inj, forall_eq']
  case bqSetFreq f => exact answers_bqFinish rfl bqCommit_eq_none_iff.symm
  case bqSetQ q => exact answers_bqFinish rfl bqCommit_eq_none_iff.symm
  case bqSetGain g => exact answers_bqFinish rfl bqCommit_eq_none_iff.symm
  case bqSetFs n =>
    rcases lt_or_ge n.toInt 1 with h | h
    · rw [exec, execBqSetFs_of_not_positive h]
      exact .rejected (.inl h)
    · rw [exec, execBqSetFs_of_positive h]
      exact answers_bqFinish rfl ((or_iff_right (Int.not_lt.mpr h)).trans bqCommit_eq_none_iff.symm)
  case bqSetWet w => exact answers_ite inUnitInterval_iff_not_outsideUnit rfl
  case bqSetDry d => exact answers_ite inUnitInterval_iff_not_outsideUnit rfl
  case oscNext => exact answers_of_total rfl rfl
  case oscValue => exact answers_of_total rfl rfl
  case oscValueP ph => exact answers_ite isfinite_iff_ne_false rfl
  case oscSetWave w =>
    rw [exec, execOscSetWave]
    cases hw : waveOfCode w with
    | none => exact .rejected (waveOfCode_eq_none_iff.mp hw)
    | some v =>
      refine .accepted ?_ rfl
      exact waveOfCode_eq_none_iff.not.mp (by rw [hw]; exact Option.some_ne_none v)
  case oscSetFreq f => exact answers_ite_oscCommit rfl Iff.rfl
  case oscSetFs n => exact answers_ite_oscCommit rfl (or_congr_left (positiveI32_iff.not.trans Int.not_le).symm)
  case oscSetPhase ph => exact answers_ite inUnitInterval_iff_not_outsideUnit rfl
  case oscSetMin m => exact answers_ite isfinite_iff_ne_false rfl
  case oscSetMax m => exact answers_ite isfinite_iff_ne_false rfl

/-- Settles O53: both ways a command answers (`exec_answers`). -/
theorem invalidParameterExactlyOutsideTheDomain : Obligations.InvalidParameterExactlyOutsideTheDomain := by
  intro i s t h
  have hans := exec_answers i s
  rw [h] at hans
  cases hans with
  | rejected hout =>
    refine ⟨{ status := .invalidParameter, value := .bits 0 }, ?_, iff_of_true rfl hout, iff_of_false nofun (not_not.mpr hout)⟩
    rw [respond_responses, rejectedState_responses]
  | @accepted hin u v hu =>
    refine ⟨{ status := .ok, value := v }, ?_, iff_of_false nofun hin, iff_of_true rfl hin⟩
    rw [respond_responses, hu]

/-- An offset clamped to the range +0.0 is a zero (R106). -/
theorem clampOffset_zero {v : F32} (hv : v ≠ .nan) : feq (clampOffset v .zero) .zero = true := by
  obtain ⟨hlo, hhi⟩ := clampOffset_bounds hv fle_zero_zero
  obtain ⟨-, hn, hlo⟩ := fle_iff.mp hlo
  obtain ⟨-, -, hhi⟩ := fle_iff.mp hhi
  rw [value_fneg, value_zero, neg_zero] at hlo
  exact feq_iff.mpr ⟨hn, zero_ne_nan, le_antisymm hhi hlo⟩

/-- Settles O52: an InvalidParameter response is that of a rejection (`exec_answers`), which leaves `rejectedState`. -/
theorem rejectionChangesNothing : Obligations.RejectionChangesNothing := by
  intro i s t hs h hresp
  have hans := exec_answers i s
  rw [h] at hans
  cases hans with
  | accepted _ hu =>
    rw [respond_responses, hu] at hresp
    cases List.append_cancel_left hresp
  | rejected _ =>
    constructor
    · intro hi
      rw [rejectedState_of_ne hi]
    · rintro r rfl
      obtain ⟨hn, -⟩ := hs.rb.modOffset_bounds hs.cfg_wf
      exact ⟨clampOffset_zero hn, rfl⟩

/-! ## What no command reads (R27, R223) -/

/-- The state with another `RB.delay` and other old responses. -/
def setUnread (d : Word) (old : List Response) (s : State) : State :=
  { s with rb := { s.rb with delay := d }, responses := old }

/-- Two outcomes of one command, one of them from a state with the old responses `old`: they differ in `RB.delay` and the old
responses alone. -/
def AgreeBut (s : State) (old : List Response) (t t' : State) : Prop :=
  ∃ r d', t.responses = s.responses ++ [r] ∧ t' = setUnread d' (old ++ [r]) t

section
variable {s : State} {d : Word} {old : List Response}

theorem agreeBut_respond {st : Status} {v : Value} {u : State} {d' : Word} (hu : u.responses = s.responses) :
    AgreeBut s old (respond st v u) (respond st v (setUnread d' old u)) :=
  ⟨{ status := st, value := v }, d', by rw [respond_responses, hu], rfl⟩

theorem agreeBut_ite {c : Prop} [Decidable c] {a b a' b' : State} (ha : AgreeBut s old a a') (hb : AgreeBut s old b b') :
    AgreeBut s old (if c then a else b) (if c then a' else b') := by
  split
  · exact ha
  · exact hb

theorem agreeBut_bqFinish (o : Option BQ) : AgreeBut s old (bqFinish s o) (bqFinish (setUnread d old s) o) := by
  cases o with
  | none => exact agreeBut_respond rfl
  | some b => exact agreeBut_respond rfl

theorem agreeBut_oscCommit (f : F32) (fs : Word) :
    AgreeBut s old (oscCommit f fs s) (oscCommit f fs (setUnread d old s)) := by
  unfold oscCommit
  cases spcOf f fs with
  | none => exact agreeBut_respond rfl
  | some n => exact agreeBut_respond rfl

end

theorem issue_setUnread (i : Instr) (s : State) (d : Word) (old : List Response) :
    AgreeBut s old (issue i s) (issue i (setUnread d old s)) := by
  cases i
  case rbPush w => exact agreeBut_respond rfl
  case rbPull => exact agreeBut_respond rfl
  case rbTap n => exact agreeBut_ite (agreeBut_respond rfl) (agreeBut_respond rfl)
  case rbSetDelay n => exact agreeBut_ite (agreeBut_respond rfl) (agreeBut_respond rfl)
  case rbSetModRange r => exact agreeBut_ite (agreeBut_respond rfl) (agreeBut_respond rfl)
  case rbMapMod x => exact agreeBut_respond rfl
  case rbSetFbGain g => exact agreeBut_ite (agreeBut_respond rfl) (agreeBut_respond rfl)
  case rbAddFb k =>
    simp only [issue, exec, execRbAddFb_eq]
    exact agreeBut_ite (agreeBut_respond rfl) (agreeBut_respond rfl)
  case rbGetLat => exact agreeBut_respond rfl
  case rbGetMaxLat => exact agreeBut_respond rfl
  case bqProc x => exact agreeBut_respond rfl
  case bqReset => exact agreeBut_respond rfl
  case bqSetKind k =>
    simp only [issue, exec, execBqSetKind]
    cases kindOfCode k with
    | none => exact agreeBut_respond rfl
    | some kind => exact agreeBut_bqFinish _
  case bqSetFreq f => exact agreeBut_bqFinish _
  case bqSetQ q => exact agreeBut_bqFinish _
  case bqSetGain g => exact agreeBut_bqFinish _
  case bqSetFs n => exact agreeBut_ite (agreeBut_bqFinish _) (agreeBut_respond rfl)
  case bqSetWet w => exact agreeBut_ite (agreeBut_respond rfl) (agreeBut_respond rfl)
  case bqSetDry d => exact agreeBut_ite (agreeBut_respond rfl) (agreeBut_respond rfl)
  case oscNext => exact agreeBut_respond rfl
  case oscValue => exact agreeBut_respond rfl
  case oscValueP ph => exact agreeBut_ite (agreeBut_respond rfl) (agreeBut_respond rfl)
  case oscSetWave w =>
    simp only [issue, exec, execOscSetWave]
    cases waveOfCode w with
    | none => exact agreeBut_respond rfl
    | some v => exact agreeBut_respond rfl
  case oscSetFreq f => exact agreeBut_ite (agreeBut_oscCommit _ _) (agreeBut_respond rfl)
  case oscSetFs n => exact agreeBut_ite (agreeBut_oscCommit _ _) (agreeBut_respond rfl)
  case oscSetPhase ph => exact agreeBut_ite (agreeBut_respond rfl) (agreeBut_respond rfl)
  case oscSetMin m => exact agreeBut_ite (agreeBut_respond rfl) (agreeBut_respond rfl)
  case oscSetMax m => exact agreeBut_ite (agreeBut_respond rfl) (agreeBut_respond rfl)

theorem exec_eq_issue (i : Instr) (s : State) : exec i s = .next (issue i s) := by
  obtain ⟨t, _, h⟩ := exec_ends i s
  rw [issue_eq_of_exec h.next, h.next]

/-- Settles O54, by `issue_setUnread`, command by command. -/
theorem delayAndOldResponsesAreNeverRead : Obligations.DelayAndOldResponsesAreNeverRead := by
  intro i s t d old h
  obtain ⟨r, d', hr, hnext⟩ := issue_setUnread i s d old
  rw [issue_eq_of_exec h] at hr hnext
  exact ⟨r, d', hr, (exec_eq_issue i _).trans (congrArg _ hnext)⟩

end Sys2Proof.Machine

/-! PROOFS. Reset and hazards: the invariants at reset (R241), the latency of unpaired pushes and pulls (R252), and the offsets
at which a pull reads current history (R253). -/

namespace Sys2Proof.Machine

/-! ## Reset (R241) -/

theorem State.Inv.resetWith {p : Params} (hp : p.wf = true) : (State.resetWith p).Inv :=
  ⟨hp, .reset hp, .reset hp, .reset hp⟩

/-- Settles O13, by `State.Inv.resetWith`; the default configuration is a legal one. -/
theorem resetMeetsTheInvariants : Obligations.ResetMeetsTheInvariants :=
  ⟨.resetWith (by decide), fun _ => .resetWith⟩

/-! ## The latency (R252, R32(c)) -/

section
variable {p : Params} {rb rb' : RB}

/-- A write head that advances raises the latency. -/
theorem lat_of_wr_succ (hwr : rb'.wr = (rb.wr + 1) % p.cap) (hrd : rb'.rd = rb.rd) :
    lat p rb' = (lat p rb + 1) % p.cap := by
  have h : (lat p rb' : Int) = ((lat p rb + 1 : Nat) : Int) % p.cap := by
    rw [lat_cast, hwr, hrd, Int.natCast_mod, Int.emod_sub_emod, Nat.cast_succ, Nat.cast_succ, lat_cast, Int.emod_add_emod,
      add_sub_right_comm]
  exact_mod_cast h

/-- A read head that advances lowers the latency. -/
theorem lat_of_rd_succ (hrd : rb'.rd = (rb.rd + 1) % p.cap) (hwr : rb'.wr = rb.wr) :
    (lat p rb' : Int) = ((lat p rb : Int) - 1) % p.cap := by
  rw [lat_cast, hwr, hrd, Int.natCast_mod, Int.sub_emod_emod, Nat.cast_succ, lat_cast, Int.emod_sub_emod, sub_add_eq_sub_sub]

/-- A read head put `n` slots behind the write head makes the latency `n` (R105(b)). -/
theorem lat_of_rd_behind {n : Nat} (hn : n < p.cap) (hrd : rb.rd = wrap p ((rb.wr : Int) - n)) : lat p rb = n := by
  have h : (lat p rb : Int) = n % p.cap := by rw [lat_cast, hrd, wrap_cast, Int.sub_emod_emod, sub_sub_cancel]
  rw [← Int.natCast_mod, Nat.mod_eq_of_lt hn] at h
  exact_mod_cast h

end

/-- The range a rejected `RB_SETMODRANGE` stores is within any latency. -/
theorem fle_zero_u2f (n : Nat) : fle .zero (u2f n) = true := by
  refine fle_iff.mpr ⟨zero_ne_nan, u2f_ne_nan n, ?_⟩
  rw [value_u2f]
  exact le_roundInt Nat.one_pos zero_ne_nan (by rw [value_zero]; omega)

section
variable {s t : State} {w : Word}

theorem issue_rbSetDelay (h : delayAccepted s.cfg s.rb w = true) : issue (.rbSetDelay w) s =
    respond .ok (.bits 0) { s with rb := { s.rb with rd := wrap s.cfg ((s.rb.wr : Int) - w.toNat), delay := w } } :=
  if_pos h

/-- R105(b) and R32(c): the delay becomes the latency, and it was checked against the range, which stays. -/
theorem lat_of_rbSetDelay (h : exec (.rbSetDelay w) s = .next t) (hw : delayAccepted s.cfg s.rb w = true) :
    lat t.cfg t.rb = w.toNat ∧ fle t.rb.modRange (u2f (lat t.cfg t.rb)) = true := by
  have ht := (issue_eq_of_exec h).symm.trans (issue_rbSetDelay hw)
  simp only [delayAccepted, Bool.and_eq_true, decide_eq_true_eq] at hw
  obtain ⟨⟨-, hlt⟩, hrange⟩ := hw
  have hlat : lat t.cfg t.rb = w.toNat := by
    rw [ht]
    exact lat_of_rd_behind hlt rfl
  refine ⟨hlat, ?_⟩
  rw [hlat, ht]
  exact hrange

/-- R32(c): the new range is an operand checked against the latency, which stays, or +0.0. -/
theorem modRange_le_lat_of_rbSetModRange (h : exec (.rbSetModRange w) s = .next t) :
    fle t.rb.modRange (u2f (lat t.cfg t.rb)) = true := by
  obtain rfl := issue_eq_of_exec h
  simp only [issue, exec, execRbSetModRange]
  split
  next hr => exact (modRangeAccepted_iff.mp hr).2
  next => exact fle_zero_u2f _

end

/-- Settles O25: each head moves as its command says, and the two setters check the range against the latency. -/
theorem latencyFollowsPushAndPull : Obligations.LatencyFollowsPushAndPull := by
  intro s t w
  refine ⟨fun h => ?_, fun h => ?_, fun h hin => ?_, fun h => ?_⟩
  · obtain rfl := issue_eq_of_exec h
    exact lat_of_wr_succ (wrap_succ _ _) rfl
  · obtain rfl := issue_eq_of_exec h
    have hlat := lat_of_rd_succ (issue_rbPull_rd s) rfl
    rwa [Nat.cast_pow, Nat.cast_ofNat] at hlat
  · exact lat_of_rbSetDelay h (delayAccepted_iff.mpr hin)
  · exact modRange_le_lat_of_rbSetModRange h

/-! ## The slots a pull reads (R253) -/

section
variable {p : Params} {rb : RB} {k : Nat}

/-- With `k` the floor of the offset, a pull reads the slots `k` and `k + 1` from the read head on. -/
theorem interpolate_of_floor (hk : floorZ rb.modOffset = k) : interpolate p rb =
    fadd (memRead rb.buf ((rb.rd + k) % p.cap)) (fmul (fsub rb.modOffset (i2f k))
      (fsub (memRead rb.buf ((rb.rd + (k + 1)) % p.cap)) (memRead rb.buf ((rb.rd + k) % p.cap)))) := by
  have h0 : wrap p ((rb.rd : Int) + k) = (rb.rd + k) % p.cap := wrap_natCast p (rb.rd + k)
  have h1 : wrap p ((rb.rd : Int) + k + 1) = (rb.rd + (k + 1)) % p.cap := wrap_succ p (rb.rd + k)
  simp only [interpolate, hk, h0, h1]

/-- The response is a function of the words in those two slots. -/
theorem interpolate_congr {rb' : RB} (hk : floorZ rb.modOffset = k) (hrd : rb'.rd = rb.rd)
    (ho : rb'.modOffset = rb.modOffset)
    (hword : ∀ j, j = k ∨ j = k + 1 → memRead rb'.buf ((rb.rd + j) % p.cap) = memRead rb.buf ((rb.rd + j) % p.cap)) :
    interpolate p rb' = interpolate p rb := by
  rw [interpolate_of_floor (ho ▸ hk), interpolate_of_floor hk, hrd, ho, hword k (.inl rfl), hword (k + 1) (.inr rfl)]

/-- A NaN in either slot is a NaN in the response, whatever the weight. -/
theorem interpolate_of_memRead_nan {j : Nat} (hk : floorZ rb.modOffset = k) (hj : j = k ∨ j = k + 1)
    (hnan : memRead rb.buf ((rb.rd + j) % p.cap) = .nan) : interpolate p rb = .nan := by
  rw [interpolate_of_floor hk]
  obtain rfl | rfl := hj
  · rw [hnan, fadd_nan_left]
  · rw [hnan, fsub_nan_left, fmul_nan_right, fadd_nan_right]

theorem interpolate_memWrite_nan {j : Nat} (hbuf : Memory.wf p.cap rb.buf = true) (hk : floorZ rb.modOffset = k)
    (hj : j = k ∨ j = k + 1) :
    interpolate p { rb with buf := memWrite rb.buf ((rb.rd + j) % p.cap) .nan } = .nan := by
  refine interpolate_of_memRead_nan ?_ hj (memRead_memWrite_self hbuf)
  exact hk

/-- The floor of an offset that is not negative, as a slot distance below `CAP`: the offset is within the range. -/
theorem RB.Inv.exists_floor (hp : p.wf = true) (h : RB.Inv p rb) (h0 : fle .zero rb.modOffset = true) :
    ∃ k : Nat, floorZ rb.modOffset = k ∧ k < p.cap := by
  have hcap := cap_le_of_wf hp
  have hpos := cap_pos p
  obtain ⟨-, -, h0⟩ := fle_iff.mp h0
  obtain ⟨-, -, hle⟩ := fle_iff.mp (fle_trans h.modOffset_upper h.modRange_le)
  rw [value_zero] at h0
  rw [u2f_exact (by omega)] at hle
  obtain ⟨k, hk⟩ := Int.eq_ofNat_of_zero_le (a := floorZ rb.modOffset) (by unfold floorZ; omega)
  refine ⟨k, hk, ?_⟩
  unfold floorZ at hk
  omega

/-- The last slot read is within the latency iff the offset is below the latency less one. -/
theorem floor_succ_lt_lat_iff (hk : floorZ rb.modOffset = k) :
    k + 1 < lat p rb ↔ rb.modOffset.value < ((lat p rb : Int) - 1) * 2 ^ 149 := by
  unfold floorZ at hk
  omega

theorem pullReadsHistory_iff (hk : floorZ rb.modOffset = k) : pullReadsHistory p rb ↔ k + 1 < lat p rb := by
  unfold pullReadsHistory
  omega

end

@[simp] theorem issue_rbPull_responses (s : State) : (issue .rbPull s).responses =
    s.responses ++ [{ status := .ok, value := floatValue (interpolate s.cfg s.rb) }] := rfl

/-- Settles O29, by the slots read, `k` and `k + 1` with `k` the floor of the offset. From `L - 1` on, the slot outside the last
`L` samples is `k` itself or, where `k` is `L - 1`, the write head's. -/
theorem pullReadsHistoryBelowLatencyMinusOne : Obligations.PullReadsHistoryBelowLatencyMinusOne := by
  intro s hs h0 L slot
  obtain ⟨k, hk, hkcap⟩ := hs.rb.exists_floor hs.cfg_wf h0
  have hbelow : k + 1 < L ↔ s.rb.modOffset.value < ((L : Int) - 1) * 2 ^ 149 := floor_succ_lt_lat_iff hk
  refine ⟨(pullReadsHistory_iff hk).trans hbelow, fun h u hcfg hrd ho hword => ?_, fun h => ?_⟩
  · have hlast := hbelow.mpr h
    have hsame : interpolate s.cfg u.rb = interpolate s.cfg s.rb :=
      interpolate_congr hk hrd ho fun j hj => hword j (by omega)
    exact ⟨_, _, _, exec_eq_issue _ _, exec_eq_issue _ _, issue_rbPull_responses s,
      by rw [issue_rbPull_responses, hcfg, hsame]⟩
  · have hLk : L ≤ k + 1 := Nat.not_lt.mp (mt hbelow.mp (Int.not_lt.mpr h))
    have hL : L < s.cfg.cap := lat_lt s.cfg s.rb
    obtain ⟨j, hj, hLj, hjcap⟩ : ∃ j, (j = k ∨ j = k + 1) ∧ L ≤ j ∧ j < s.cfg.cap := by
      rcases Nat.lt_or_ge k L with hkL | hkL
      · exact ⟨k + 1, .inr rfl, hLk, by omega⟩
      · exact ⟨k, .inl rfl, hkL, hkcap⟩
    refine ⟨j, _, hLj, hjcap, exec_eq_issue _ _, ?_⟩
    rw [issue_rbPull_responses, interpolate_memWrite_nan hs.rb.buf_wf hk hj, floatValue_nan]

end Sys2Proof.Machine
